-- ==== Sys2Proof/Word.lean ====
section
/-! DEFINITION. The word types of AAOSC: 32-bit bus words (00_scope.md R7) and the bytes their lanes carry (20_memory.md R53). -/

namespace Sys2Proof

/-- A 32-bit bus word; a binary32 value is its 32-bit interchange encoding (00_scope.md R7). -/
abbrev Word := BitVec 32

/-- One byte lane of a bus word (20_memory.md R53). -/
abbrev Byte := BitVec 8

end Sys2Proof
end

