-- ==== Sys2Proof/Syntax.lean ====
section
/-! DEFINITION. The commands of AAOSC: one constructor per row of spec/opcode_table.json (30_encoding.md R70 to R76). -/

namespace Sys2Proof

/-- The eight waveform shapes, in the order of their SHAPE codes 0 to 7 (30_encoding.md R73). -/
inductive Shape where
  | impulse
  | saw
  | triangle
  | slope
  | square
  | squareBright
  | squareDark
  | squareTriangle
  deriving DecidableEq, Repr

/-- A command. Each RENDER row carries TZ, FM and SIZE (30_encoding.md R72); its real operands come from registers. SIZE is a
count, the 16-bit field read as unsigned and zero-extended (R72, 00_scope.md R9). -/
inductive Instr where
  | nop
  | init
  | keval
  | renderImpulse (tz fm : Bool) (size : Nat)
  | renderSaw (tz fm : Bool) (size : Nat)
  | renderTriangle (tz fm : Bool) (size : Nat)
  | renderSlope (tz fm : Bool) (size : Nat)
  | renderSquare (tz fm : Bool) (size : Nat)
  | renderSquareBright (tz fm : Bool) (size : Nat)
  | renderSquareDark (tz fm : Bool) (size : Nat)
  | renderSquareTriangle (tz fm : Bool) (size : Nat)
  deriving DecidableEq, Repr

end Sys2Proof
end

