-- ==== Sys2Proof/Decode.lean ====
section
/-! DEFINITION. The decoder of a command word (30_encoding.md R71), total on all words and rejecting by name, and the encoder
of the same tables (R70, R73, R76, R79). -/

namespace Sys2Proof

/-- Why a word is ILLEGAL, one name for each bullet of 30_encoding.md R77. -/
inductive DecodeReject where
  /-- OP is one of 0b0100 to 0b1111. -/
  | unassignedOp
  /-- OP is 0b0000, 0b0001 or 0b0011 and one of bits 31:4 is set. -/
  | controlWordBits
  /-- OP is 0b0010 and one of bits 15:9 is set. -/
  | reservedBits
  deriving DecidableEq, Repr

/-- The SHAPE code of bits 6:4 (30_encoding.md R73). -/
def shapeCode : Shape → Nat
  | .impulse => 0
  | .saw => 1
  | .triangle => 2
  | .slope => 3
  | .square => 4
  | .squareBright => 5
  | .squareDark => 6
  | .squareTriangle => 7

/-- The shape of a 3-bit code: all eight codes are legal (30_encoding.md R73). -/
def shapeOfCode (code : BitVec 3) : Shape :=
  match code.toNat with
  | 0 => .impulse
  | 1 => .saw
  | 2 => .triangle
  | 3 => .slope
  | 4 => .square
  | 5 => .squareBright
  | 6 => .squareDark
  | _ => .squareTriangle

/-- The RENDER command of a shape: one row of the opcode table for each SHAPE value (40_render.md R100). -/
def renderOf (shape : Shape) (tz fm : Bool) (size : Nat) : Instr :=
  match shape with
  | .impulse => .renderImpulse tz fm size
  | .saw => .renderSaw tz fm size
  | .triangle => .renderTriangle tz fm size
  | .slope => .renderSlope tz fm size
  | .square => .renderSquare tz fm size
  | .squareBright => .renderSquareBright tz fm size
  | .squareDark => .renderSquareDark tz fm size
  | .squareTriangle => .renderSquareTriangle tz fm size

/-- OP, bits 3:0 (30_encoding.md R70). -/
def opField (w : Word) : BitVec 4 := w.extractLsb' 0 4

/-- SHAPE, bits 6:4. -/
def shapeField (w : Word) : BitVec 3 := w.extractLsb' 4 3

/-- TZ, bit 7. -/
def tzField (w : Word) : Bool := w.getLsbD 7

/-- FM, bit 8. -/
def fmField (w : Word) : Bool := w.getLsbD 8

/-- RSV, bits 15:9. -/
def rsvField (w : Word) : BitVec 7 := w.extractLsb' 9 7

/-- SIZE, bits 31:16, unsigned and zero-extended (30_encoding.md R72). -/
def sizeField (w : Word) : Nat := (w.extractLsb' 16 16).toNat

/-- Why a word that matches no row is ILLEGAL (30_encoding.md R77). -/
def rejectReason (w : Word) : DecodeReject :=
  if opField w = 0b0010#4 then .reservedBits
  else if opField w = 0b0000#4 ∨ opField w = 0b0001#4 ∨ opField w = 0b0011#4 then .controlWordBits
  else .unassignedOp

/-- The decoder: the rows of 30_encoding.md R71 in order, the first match wins, every other word is ILLEGAL. -/
def decode (w : Word) : Except DecodeReject Instr :=
  if w = 0x00000000#32 then .ok .nop
  else if w = 0x00000001#32 then .ok .init
  else if w = 0x00000003#32 then .ok .keval
  else if opField w = 0b0010#4 ∧ rsvField w = 0#7 then
    .ok (renderOf (shapeOfCode (shapeField w)) (tzField w) (fmField w) (sizeField w))
  else .error (rejectReason w)

/-- The word of `render.<shape>[.tz][.fm] N` (30_encoding.md R79). A SIZE that does not fit its field has no word of its own:
its low 16 bits are taken. -/
def renderWord (shape : Shape) (tz fm : Bool) (size : Nat) : Word :=
  (BitVec.ofNat 32 size <<< 16) ||| (BitVec.ofNat 32 fm.toNat <<< 8) ||| (BitVec.ofNat 32 tz.toNat <<< 7)
    ||| (BitVec.ofNat 32 (shapeCode shape) <<< 4) ||| 0x2#32

/-- The encoder: the word the host writes to CMD for a command (30_encoding.md R76, R79). -/
def encode : Instr → Word
  | .nop => 0x00000000#32
  | .init => 0x00000001#32
  | .keval => 0x00000003#32
  | .renderImpulse tz fm size => renderWord .impulse tz fm size
  | .renderSaw tz fm size => renderWord .saw tz fm size
  | .renderTriangle tz fm size => renderWord .triangle tz fm size
  | .renderSlope tz fm size => renderWord .slope tz fm size
  | .renderSquare tz fm size => renderWord .square tz fm size
  | .renderSquareBright tz fm size => renderWord .squareBright tz fm size
  | .renderSquareDark tz fm size => renderWord .squareDark tz fm size
  | .renderSquareTriangle tz fm size => renderWord .squareTriangle tz fm size

/-- A command word given as the opcode table numbers its bits. Every command is one 32-bit word (30_encoding.md R70), so bits
from `nbits` up to 31 are zero. -/
def tableWord (nbits w : Nat) : Word := BitVec.ofNat 32 (w % 2 ^ nbits)

/-- The instruction the decoder reads from such a word, none where it is ILLEGAL. -/
def decodeTableWord (nbits w : Nat) : Option Instr :=
  match decode (tableWord nbits w) with
  | .ok i => some i
  | .error _ => none

end Sys2Proof
end

