-- ==== Sys2Proof/Config.lean ====
section
/-! DEFINITION. What an implementation fixes (the OPEN parameters of 00_scope.md R4, as plain data) and the free values
of the model (opaque constants with no body, which no proof can evaluate). -/

namespace Sys2Proof

/-- The OPEN parameters of 00_scope.md R4 that a machine is built with. State carries them unchanged, so that a statement
about every state is a statement about every value of them (log entry 3). T0 and T1 (R250) are left out with timing. -/
structure Params where
  /-- The platform address of the window, a multiple of 0x4000 (20_memory.md R50). -/
  base : Nat
  /-- MAX_BLOCK_SIZE, 1 to 1024 (00_scope.md R4, 10_state.md R41). -/
  maxBlockSize : Nat
  /-- KERNEL_ID: 0 is the default kernel of 41_phase_and_corrections.md R140 to R143 (10_state.md R41). -/
  kernelId : BitVec 8
  deriving DecidableEq, Repr

/-- The stated defaults (00_scope.md R4). BASE has none: 0 is a DESIGN CHOICE (log entry 3). -/
def Params.default : Params := { base := 0, maxBlockSize := 128, kernelId := 0 }

/-- The four operators of the pseudocode that round (00_scope.md R6). -/
inductive ArithOp where
  | add
  | sub
  | mul
  | div
  deriving DecidableEq, Repr

/-- The four functions of the OPEN parameter `kernel` (00_scope.md R4, R5). -/
inductive KernelFn where
  | bThis
  | bNext
  | iThis
  | iNext
  deriving DecidableEq, Repr

/-- FREE VALUE: the bits of the NaN that an operator produces from two operands. 00_scope.md R6 follows IEEE 754-2008, which
does not fix them (log entry 5). Machine/Float.lean confines the value to the NaNs. -/
opaque Config.freeNaN : ArithOp → Word → Word → Word

/-- FREE VALUE: the kernel functions of an implementation whose KERNEL_ID is not 0, pure functions of the fraction t
(00_scope.md R5, 10_state.md R41; log entry 4). It is never applied to KERNEL_ID 0. -/
opaque Config.fittedKernel : BitVec 8 → KernelFn → Word → Word

end Sys2Proof
end

