-- ==== Sys2Proof/Machine/Float.lean ====
section
/-! DEFINITION. Binary32 arithmetic (00_scope.md R6 to R9): each operator is computed exactly on the grid of 2^-149, of which
every finite binary32 value is a whole multiple, and rounded once, to nearest with ties to even. Subnormals are kept. -/

namespace Sys2Proof.Machine.F32

open Sys2Proof

/-- Bits 30:0, the biased exponent and the fraction (R7), as a number: non-NaN magnitudes are in its order. -/
def mag (a : Word) : Nat := a.toNat % 2 ^ 31

/-- The magnitude bits of an infinity: exponent 255, fraction 0. -/
def infMag : Nat := 0x7F800000

/-- The sign, bit 31 (R7). -/
def sign (a : Word) : Bool := a.getLsbD 31

/-- `isNaN` (R8). -/
def isNaN (a : Word) : Bool := decide (infMag < mag a)

/-- An infinity of either sign. -/
def isInf (a : Word) : Bool := decide (mag a = infMag)

/-- `isFinite` (R8): neither a NaN nor an infinity. -/
def isFinite (a : Word) : Bool := decide (mag a < infMag)

/-- `-v` flips the sign bit and rounds nothing (R8). -/
def neg (a : Word) : Word := a ^^^ 0x80000000#32

/-- `abs(v)` clears the sign bit and rounds nothing (R8). -/
def abs (a : Word) : Word := a &&& 0x7FFFFFFF#32

/-- The word of a sign and a magnitude. -/
def pack (s : Bool) (m : Nat) : Word := BitVec.ofNat 32 (m + s.toNat * 2 ^ 31)

/-- The magnitude of a finite value in units of 2^-149, from its magnitude bits: a subnormal is its fraction, a normal value
carries the hidden bit. -/
def unitsOf (m : Nat) : Nat :=
  if m / 2 ^ 23 = 0 then m % 2 ^ 23 else (m % 2 ^ 23 + 2 ^ 23) * 2 ^ (m / 2 ^ 23 - 1)

/-- The magnitude of a finite word in units of 2^-149. -/
def units (a : Word) : Nat := unitsOf (mag a)

/-- The value of a finite word in units of 2^-149. -/
def value (a : Word) : Int := if sign a then -(units a : Int) else (units a : Int)

/-- Rounds the exact magnitude n/d units of 2^-149 to the nearest binary32 magnitude, ties to the even fraction, with gradual
underflow, and to the infinity where it overflows (R6). The last place is 2^e units, and e * 2^23 + m is the encoding of m
such places, since a carry out of the fraction is a carry into the exponent. -/
def roundMag (n d : Nat) : Nat :=
  let e := Nat.log2 (n / d) - 23
  let ulp := d * 2 ^ e
  let m := n / ulp
  let r := n % ulp
  let m' := if ulp < 2 * r ∨ (2 * r = ulp ∧ m % 2 = 1) then m + 1 else m
  min (e * 2 ^ 23 + m') infMag

/-- The NaN that an operator produces: the free value of Config, confined to the NaNs (log entry 5). -/
def nanOf (op : ArithOp) (a b : Word) : Word :=
  if isNaN (Config.freeNaN op a b) then Config.freeNaN op a b else 0x7FC00000#32

/-- The sum of `a` and `b`, with `nan` for an invalid sum. An exact zero sum is +0.0 unless both operands are -0.0. -/
def sum (nan a b : Word) : Word :=
  if isNaN a || isNaN b then nan
  else if isInf a then (if isInf b && (sign a != sign b) then nan else a)
  else if isInf b then b
  else if value a + value b = 0 then pack (sign a && sign b) 0
  else pack (decide (value a + value b < 0)) (roundMag (value a + value b).natAbs 1)

/-- `a + b` (R6). -/
def add (a b : Word) : Word := sum (nanOf .add a b) a b

/-- `a - b` (R6). -/
def sub (a b : Word) : Word := sum (nanOf .sub a b) a (neg b)

/-- `a * b` (R6). -/
def mul (a b : Word) : Word :=
  if isNaN a || isNaN b then nanOf .mul a b
  else if (isInf a && decide (mag b = 0)) || (isInf b && decide (mag a = 0)) then nanOf .mul a b
  else if isInf a || isInf b then pack (sign a != sign b) infMag
  else pack (sign a != sign b) (roundMag (units a * units b) (2 ^ 149))

/-- `a / b` (R6). -/
def div (a b : Word) : Word :=
  if isNaN a || isNaN b then nanOf .div a b
  else if (isInf a && isInf b) || (decide (mag a = 0) && decide (mag b = 0)) then nanOf .div a b
  else if isInf a || decide (mag b = 0) then pack (sign a != sign b) infMag
  else if isInf b then pack (sign a != sign b) 0
  else pack (sign a != sign b) (roundMag (units a * 2 ^ 149) (units b))

/-- The order of the non-NaN words: -0.0 and +0.0 share the key 0. -/
def key (a : Word) : Int := if sign a then -(mag a : Int) else (mag a : Int)

/-- `a < b`, false on a NaN (R8). -/
def lt (a b : Word) : Bool := !isNaN a && !isNaN b && decide (key a < key b)

/-- `a <= b`, false on a NaN (R8). -/
def le (a b : Word) : Bool := !isNaN a && !isNaN b && decide (key a ≤ key b)

/-- `float(n)` (R9): exact for every n below 2^24. -/
def ofNat (n : Nat) : Word := pack false (roundMag (n * 2 ^ 149) 1)

/-- The literals of the pseudocode (R13). -/
def zero : Word := 0x00000000#32
def sixteenth : Word := 0x3D800000#32
def half : Word := 0x3F000000#32
def one : Word := 0x3F800000#32
def two : Word := 0x40000000#32
def four : Word := 0x40800000#32
def six : Word := 0x40C00000#32
def oneHundredTwentyEight : Word := 0x43000000#32

end Sys2Proof.Machine.F32
end

