-- ==== Sys2Proof/Machine/Kernel.lean ====
section
/-! DEFINITION. The correction kernels (41_phase_and_corrections.md R140 to R143) and the choice of the kernel that is fitted
(10_state.md R41). -/

namespace Sys2Proof.Machine

open Sys2Proof

/-- BThis(t) = (0.5 * t) * t (R140). -/
def defaultBThis (t : Word) : Word := F32.mul (F32.mul F32.half t) t

/-- BNext(t) = -((0.5 * u) * u) with u = 1 - t (R141). -/
def defaultBNext (t : Word) : Word :=
  let u := F32.sub F32.one t
  F32.neg (F32.mul (F32.mul F32.half u) u)

/-- IThis(t) = ((t * t) * t) / 6 (R142). -/
def defaultIThis (t : Word) : Word := F32.div (F32.mul (F32.mul t t) t) F32.six

/-- INext(t) = ((u * u) * u) / 6 with u = 1 - t (R143). -/
def defaultINext (t : Word) : Word :=
  let u := F32.sub F32.one t
  F32.div (F32.mul (F32.mul u u) u) F32.six

/-- The default kernel, function by function. -/
def defaultKernel (fn : KernelFn) (t : Word) : Word :=
  match fn with
  | .bThis => defaultBThis t
  | .bNext => defaultBNext t
  | .iThis => defaultIThis t
  | .iNext => defaultINext t

/-- The fitted kernel: the default where KERNEL_ID is 0, the implementation's own otherwise, which is a free value
(10_state.md R41, 00_scope.md R5; log entry 4). -/
def kernel (id : BitVec 8) (fn : KernelFn) (t : Word) : Word :=
  if id = 0#8 then defaultKernel fn t else Config.fittedKernel id fn t

end Sys2Proof.Machine
end

