-- ==== Sys2Proof/Machine/State.lean ====
section
/-! DEFINITION. The state of AAOSC as plain data (10_state.md), what the host may ask of it (20_memory.md R54), the outcomes of
a step, and the state after reset (70_reset_and_hazards.md R230). -/

namespace Sys2Proof.Machine

open Sys2Proof

/-- The contents of FM_BUF and OUT_BUF (10_state.md R49): bytes by window offset, offsets strictly rising, a byte listed
exactly when it has been written since reset. An unlisted byte has no value (60_exceptions.md R216). -/
abbrev Memory := List Host.Cell

/-- The side of the pulse-width threshold that EDGE_STATE records (10_state.md R27): LOW is 0, HIGH is 1. -/
inductive Side where
  | low
  | high
  deriving DecidableEq, Repr

/-- The oscillator state (10_state.md R22 to R30), mirrored read-only at offsets 0x040 to 0x05C (R48). -/
structure Osc where
  /-- PHASE (R22). -/
  phase : Word
  /-- PENDING (R24). -/
  pending : Word
  /-- LP_STATE (R25). -/
  lpState : Word
  /-- HP_STATE (R26). -/
  hpState : Word
  /-- EDGE_STATE (R27). -/
  edgeState : Side
  /-- SMOOTH_FREQ (R28). -/
  smoothFreq : Word
  /-- SMOOTH_PW (R29). -/
  smoothPw : Word
  /-- SEEDED (R30). -/
  seeded : Bool
  deriving DecidableEq, Repr

/-- What reaches the block from outside: a bus access at a platform address, of a width in bits (20_memory.md R50 to R54), or
the platform's reset (70_reset_and_hazards.md R231). A write carries one bus word; a write of another width than 32 has no
effect whatever it carries (R51), so its data is not held (log entry 12). -/
inductive BusRequest where
  | read (addr width : Nat)
  | write (addr width : Nat) (data : Word)
  | reset
  deriving DecidableEq, Repr

/-- What the block answers on the bus (20_memory.md R54, 60_exceptions.md R213). -/
inductive BusResponse where
  /-- A read completed with this data. -/
  | readData (v : Word)
  /-- A write completed; a write to CMD completes once its command has executed (20_memory.md R55). -/
  | writeDone
  /-- BusError on a read: the error response, with this data beside it (always 0x00000000, R213). -/
  | readError (v : Word)
  /-- BusError on a write: the error response, no effect. -/
  | writeError
  deriving DecidableEq, Repr

/-- The model faults (60_exceptions.md R216): there is one. -/
inductive Fault where
  /-- Raised by a host read of an FM_BUF or OUT_BUF word, or by a RENDER with FM = 1 scanning FM_BUF, at the first word (its
  window offset) that nothing has written since reset. SAFE: hardware returns some value there and goes on, and the model
  claims nothing of it (log entry 6). -/
  | readUnwritten (offset : Nat)
  deriving DecidableEq, Repr

/-- The refusals. -/
inductive Refusal where
  /-- Raised by an arm of exec whose instruction has no meaning yet; no arm does so now. SAFE: nothing is claimed of it. -/
  | notModelled (mnemonic : String)
  deriving DecidableEq, Repr

/-- Everything the spec gives the block, the parameters it is built with, and the model's own two fields for the bus. -/
structure State where
  /-- The OPEN parameters (00_scope.md R4), which no step changes (log entry 3). -/
  params : Params
  /-- The oscillator state (10_state.md R22 to R30). -/
  osc : Osc
  /-- STATUS.ERR, bit 0 (10_state.md R43). -/
  err : Bool
  /-- STATUS.ERRCODE, bits 7:4 (10_state.md R43). -/
  errCode : BitVec 4
  /-- TARGET_FREQ (10_state.md R44). -/
  targetFreq : Word
  /-- TARGET_PW (10_state.md R45). -/
  targetPw : Word
  /-- KERNEL_T (10_state.md R46). -/
  kernelT : Word
  /-- KERNEL_BTHIS (10_state.md R47). -/
  kernelBThis : Word
  /-- KERNEL_BNEXT (10_state.md R47). -/
  kernelBNext : Word
  /-- KERNEL_ITHIS (10_state.md R47). -/
  kernelIThis : Word
  /-- KERNEL_INEXT (10_state.md R47). -/
  kernelINext : Word
  /-- FM_BUF and OUT_BUF (10_state.md R49). -/
  mem : Memory
  /-- The MODEL's own: what the host and the platform have issued and the block has not served yet, oldest first
  (20_memory.md R58; log entry 1). -/
  host : List BusRequest
  /-- The MODEL's own: the answer to the last access served, none where there is none (log entry 2). -/
  response : Option BusResponse
  deriving DecidableEq, Repr

/-- The block right after reset, built with the parameters `p` (70_reset_and_hazards.md R230). -/
def State.resetWith (p : Params) : State :=
  { params := p
    osc :=
      { phase := 0x3F000000#32
        pending := 0x00000000#32
        lpState := 0x00000000#32
        hpState := 0x00000000#32
        edgeState := .high
        smoothFreq := 0x00000000#32
        smoothPw := 0x3F000000#32
        seeded := false }
    err := false
    errCode := 0#4
    targetFreq := 0x00000000#32
    targetPw := 0x00000000#32
    kernelT := 0x00000000#32
    kernelBThis := 0x00000000#32
    kernelBNext := 0x00000000#32
    kernelIThis := 0x00000000#32
    kernelINext := 0x00000000#32
    mem := []
    host := []
    response := none }

/-- The block right after reset with the default parameters (00_scope.md R4) and an idle bus. -/
def State.reset : State := State.resetWith Params.default

end Sys2Proof.Machine
end

