-- ==== Sys2Proof/Machine/Ops.lean ====
section
/-! DEFINITION. The named operations over the buffers, the window and the registers (20_memory.md), and the two records of an
abnormal outcome that the machine goes on from: a Reject (60_exceptions.md R211) and a bus response (R213). -/

namespace Sys2Proof.Machine

open Sys2Proof

/-- The canonical form of the buffers' contents: window offsets strictly rising. No listed byte can equal what an unlisted
one reads as, since an unlisted byte has no value. -/
abbrev Memory.wf (m : Memory) : Prop := m.Pairwise (fun x y => x.1 < y.1)

/-- The byte at a window offset, none where nothing has written it since reset. -/
def Memory.byteAt : Memory → Nat → Option Byte
  | [], _ => none
  | (k, v) :: m, a => if a = k then some v else Memory.byteAt m a

/-- Writes one byte, keeping the canonical form. -/
def Memory.setByte : Memory → Nat → Byte → Memory
  | [], a, v => [(a, v)]
  | (k, w) :: m, a, v =>
    if a < k then (a, v) :: (k, w) :: m
    else if a = k then (a, v) :: m
    else (k, w) :: Memory.setByte m a v

/-- Byte lane k of a bus word carries bits 8k+7 : 8k (20_memory.md R53). -/
def byteLane (w : Word) (k : Nat) : Byte := w.extractLsb' (8 * k) 8

/-- The word whose lanes 0 to 3 are the four bytes (20_memory.md R53). -/
def wordOfLanes (b0 b1 b2 b3 : Byte) : Word := b3 ++ b2 ++ b1 ++ b0

/-- The word at a window offset, none where it is unwritten (10_state.md R49). Every write is of a whole word, so the lanes
are written together or not at all. -/
def Memory.readWord (m : Memory) (off : Nat) : Option Word :=
  match m.byteAt off, m.byteAt (off + 1), m.byteAt (off + 2), m.byteAt (off + 3) with
  | some b0, some b1, some b2, some b3 => some (wordOfLanes b0 b1 b2 b3)
  | _, _, _, _ => none

/-- Writes a word at a window offset and so marks it written (20_memory.md R54). -/
def Memory.writeWord (m : Memory) (off : Nat) (w : Word) : Memory :=
  (((m.setByte off (byteLane w 0)).setByte (off + 1) (byteLane w 1)).setByte (off + 2) (byteLane w 2)).setByte
    (off + 3) (byteLane w 3)

/-- The offset of FM_BUF[n] (20_memory.md R50). -/
def fmOffset (n : Nat) : Nat := 0x1000 + 4 * n

/-- The offset of OUT_BUF[n] (20_memory.md R50). -/
def outOffset (n : Nat) : Nat := 0x2000 + 4 * n

/-- Stores samples to OUT_BUF[n], OUT_BUF[n+1], … in order (42_shapes.md R171). -/
def Memory.writeOut : Memory → Nat → List Word → Memory
  | m, _, [] => m
  | m, n, y :: ys => Memory.writeOut (m.writeWord (outOffset n) y) (n + 1) ys

/-- The registers of the window (10_state.md, the table of section 3). -/
inductive Reg where
  | id
  | caps
  | cmd
  | status
  | targetFreq
  | targetPw
  | kernelT
  | kernelBThis
  | kernelBNext
  | kernelIThis
  | kernelINext
  | phase
  | pending
  | lpState
  | hpState
  | edgeState
  | smoothFreq
  | smoothPw
  | seeded
  deriving DecidableEq, Repr

/-- The offsets of the registers (10_state.md, the table of section 3). -/
def regTable : List (Nat × Reg) :=
  [(0x000, .id), (0x004, .caps), (0x008, .cmd), (0x00C, .status), (0x010, .targetFreq), (0x014, .targetPw),
   (0x018, .kernelT), (0x01C, .kernelBThis), (0x020, .kernelBNext), (0x024, .kernelIThis), (0x028, .kernelINext),
   (0x040, .phase), (0x044, .pending), (0x048, .lpState), (0x04C, .hpState), (0x050, .edgeState),
   (0x054, .smoothFreq), (0x058, .smoothPw), (0x05C, .seeded)]

/-- What a legal offset means (20_memory.md R50): a register, FM_BUF[n] or OUT_BUF[n]. -/
inductive Location where
  | reg (r : Reg)
  | fmBuf (n : Nat)
  | outBuf (n : Nat)
  deriving DecidableEq, Repr

/-- `legal(a)` and the map of 20_memory.md R50 in one: none where the offset is misaligned (R52) or unmapped. -/
def locate (p : Params) (off : Nat) : Option Location :=
  if off % 4 ≠ 0 then none
  else if off < 0x1000 then (regTable.lookup off).map .reg
  else if off < 0x1000 + 4 * p.maxBlockSize then some (.fmBuf ((off - 0x1000) / 4))
  else if 0x2000 ≤ off ∧ off < 0x2000 + 4 * p.maxBlockSize then some (.outBuf ((off - 0x2000) / 4))
  else none

/-- The window offset of a platform address, none where the address is outside the 16 KiB window at BASE (20_memory.md R50). -/
def windowOffset (p : Params) (addr : Nat) : Option Nat :=
  if p.base ≤ addr ∧ addr < p.base + 0x4000 then some (addr - p.base) else none

/-- ID (10_state.md R40). -/
def idWord : Word := 0x4F534301#32

/-- CAPS: MAX_BLOCK_SIZE in bits 15:0, KERNEL_ID in bits 23:16, zeros above (10_state.md R41). -/
def capsWord (p : Params) : Word := 0#8 ++ p.kernelId ++ BitVec.ofNat 16 p.maxBlockSize

/-- The codes of a Reject (60_exceptions.md R210). -/
inductive RejectCode where
  | illegalCmd
  | size
  | nonFinite
  | range
  deriving DecidableEq, Repr

/-- The ERRCODE value of each code (30_encoding.md R78, 60_exceptions.md R210). -/
def errCodeOf : RejectCode → BitVec 4
  | .illegalCmd => 1#4
  | .size => 2#4
  | .nonFinite => 3#4
  | .range => 4#4

/-- `raise Reject(code)` (60_exceptions.md R211): the command ends, its only effects are in STATUS, and the newest code
overwrites an older one. It is the block's whole exception machinery: nothing is saved and control goes nowhere (R220). -/
def reject (code : RejectCode) (s : State) : State := { s with err := true, errCode := errCodeOf code }

/-- The block's answer to the access being served. -/
def respond (r : BusResponse) (s : State) : State := { s with response := some r }

/-- Reset (70_reset_and_hazards.md R230, R231): every piece of state at its reset value. The parameters are the machine's own;
what is still queued was issued after the reset and stays. -/
def applyReset (s : State) : State := { State.resetWith s.params with host := s.host }

end Sys2Proof.Machine
end

