-- ==== Sys2Proof/Machine/Operands.lean ====
section
/-! DEFINITION. The operand forms of the commands: the fixed constants (00_scope.md R4), the clamps (R10, R11; 40_render.md R105,
R106), the FM_BUF scan (R103) and the per-sample control values (R112). -/

namespace Sys2Proof.Machine

open Sys2Proof

/-- K_MAX, 0.25 cycles per sample (00_scope.md R4). -/
def kMax : Word := 0x3E800000#32

/-- K_MIN, the binary32 value nearest to 1e-6 (00_scope.md R4). -/
def kMin : Word := 0x358637BD#32

/-- PW_FLOOR, 2·K_MIN (00_scope.md R4). -/
def pwFloor : Word := 0x360637BD#32

/-- FM_TARGET_LIMIT, 2^64 (00_scope.md R4). -/
def fmTargetLimit : Word := 0x5F800000#32

/-- CONSTRAIN: the lower bound first, a NaN passes (00_scope.md R10). -/
def constrain (x lo hi : Word) : Word := if F32.lt x lo then lo else if F32.lt hi x then hi else x

/-- SAT01: a sub-sample fraction brought into [0,1], a NaN to +0.0 (00_scope.md R11). -/
def sat01 (x : Word) : Word :=
  if F32.isNaN x then F32.zero
  else if F32.lt x F32.zero then F32.zero
  else if F32.lt F32.one x then F32.one
  else x

/-- CLAMP_F (40_render.md R105). -/
def clampF (x : Word) (tz : Bool) : Word :=
  if tz then constrain x (F32.neg kMax) kMax else constrain x kMin kMax

/-- The lower bound of CLAMP_PW: 2·abs(f), not below PW_FLOOR (40_render.md R106). -/
def pwLow (f : Word) : Word :=
  let a := F32.mul F32.two (F32.abs f)
  if F32.lt a pwFloor then pwFloor else a

/-- The upper bound of CLAMP_PW: 1 - 2·abs(f), not above 1 - PW_FLOOR (40_render.md R106). -/
def pwHigh (f : Word) : Word :=
  let b := F32.sub F32.one (F32.mul F32.two (F32.abs f))
  let hiF := F32.sub F32.one pwFloor
  if F32.lt hiF b then hiF else b

/-- CLAMP_PW (40_render.md R106). -/
def clampPw (p f : Word) : Word := constrain p (pwLow f) (pwHigh f)

/-- How the scan of FM_BUF ends (40_render.md R103). -/
inductive FmScan where
  /-- Every word is written and finite: these are they, in order. -/
  | finite (es : List Word)
  /-- A word is a NaN or an infinity: Reject(3), later words unread. -/
  | nonFinite
  /-- A word is unwritten: the model fault at its offset. -/
  | unwritten (offset : Nat)
  deriving DecidableEq, Repr

/-- The scan of `count` words from FM_BUF[k] in index order: each word is tested as it is read, and the first that is unwritten
or not finite decides (40_render.md R103, 60_exceptions.md R217). -/
def scanFm (m : Memory) : Nat → Nat → FmScan
  | _, 0 => .finite []
  | k, count + 1 =>
    match m.readWord (fmOffset k) with
    | none => .unwritten (fmOffset k)
    | some e =>
      if F32.isFinite e then
        match scanFm m (k + 1) count with
        | .finite es => .finite (e :: es)
        | .nonFinite => .nonFinite
        | .unwritten off => .unwritten off
      else .nonFinite

/-- The shapes whose pulse width the block forces to 0.5 (40_render.md R112). -/
def forcesHalf : Shape → Bool
  | .triangle => true
  | .squareTriangle => true
  | .impulse => false
  | .saw => false
  | .slope => false
  | .square => false
  | .squareBright => false
  | .squareDark => false

/-- The frequency of CONTROL: with external FM, fi times (1 + e), both rounded; then CLAMP_F (40_render.md R112). -/
def controlF (tz : Bool) (e : Option Word) (fi : Word) : Word :=
  match e with
  | none => clampF fi tz
  | some e => clampF (F32.mul fi (F32.add F32.one e)) tz

/-- The pulse width of CONTROL, clamped against that frequency (40_render.md R112). -/
def controlPw (shape : Shape) (f pwi : Word) : Word := clampPw (if forcesHalf shape then F32.half else pwi) f

end Sys2Proof.Machine
end

