-- ==== Sys2Proof/Machine/Control.lean ====
section
/-! DEFINITION. The control commands NOP, INIT and KEVAL (43_control.md R190 to R192). -/

namespace Sys2Proof.Machine

open Sys2Proof

/-- NOP: nothing (R190). -/
def execNop (s : State) : Host.Outcome State Fault Refusal := .next s

/-- INIT: the oscillator returns to its initial state; STATUS, the target, KERNEL_T and kernel-result registers and both buffers
keep their contents (R191). -/
def execInit (s : State) : Host.Outcome State Fault Refusal :=
  .next
    { s with
      osc :=
        { phase := F32.half
          pending := F32.zero
          lpState := F32.zero
          hpState := F32.zero
          edgeState := .high
          smoothFreq := F32.zero
          smoothPw := F32.half
          seeded := false } }

/-- KEVAL: the four kernel functions at SAT01(KERNEL_T) (R192). -/
def execKeval (s : State) : Host.Outcome State Fault Refusal :=
  let t := sat01 s.kernelT
  .next
    { s with
      kernelBThis := kernel s.params.kernelId .bThis t
      kernelBNext := kernel s.params.kernelId .bNext t
      kernelIThis := kernel s.params.kernelId .iThis t
      kernelINext := kernel s.params.kernelId .iNext t }

end Sys2Proof.Machine
end

