-- ==== Sys2Proof/Machine/Flags.lean ====
section
/-! DEFINITION. The flag-like state of AAOSC (10_state.md R33): STATUS, EDGE_STATE and SEEDED as words, the STATUS write and the
side of the threshold. -/

namespace Sys2Proof.Machine

open Sys2Proof

/-- STATUS as read: ERR in bit 0, ERRCODE in bits 7:4, zeros elsewhere (10_state.md R43). -/
def statusWord (err : Bool) (errCode : BitVec 4) : Word := 0#24 ++ errCode ++ 0#3 ++ BitVec.ofBool err

/-- A write to STATUS: a 1 in bit 0 clears ERR and ERRCODE, and nothing else is written (10_state.md R43). -/
def writeStatus (v : Word) (s : State) : State :=
  if v.getLsbD 0 then { s with err := false, errCode := 0#4 } else s

/-- A one-bit register as read: its bit in bit 0, zeros above (10_state.md R48). -/
def bitWord (b : Bool) : Word := 0#31 ++ BitVec.ofBool b

/-- EDGE_STATE as a bit: HIGH is 1 (10_state.md R27). -/
def sideBit : Side → Bool
  | .low => false
  | .high => true

/-- The side of the threshold a phase is on: HIGH exactly when PHASE >= pw (10_state.md R27, 41_phase_and_corrections.md R133). -/
def sideOf (phase pw : Word) : Side := if F32.le pw phase then .high else .low

end Sys2Proof.Machine
end

