-- ==== Sys2Proof/Machine/Corrections.lean ====
section
/-! DEFINITION. The phase accumulator, the detection of discontinuities and the BLEP/IBLEP correction engine
(41_phase_and_corrections.md). -/

namespace Sys2Proof.Machine

open Sys2Proof

/-- What one sample step reads and writes (42_shapes.md, first paragraph): the two accumulators `this` and `next`, and the
oscillator registers a step may change. A working value of one RENDER (10_state.md R32), not part of State. -/
structure Voice where
  phase : Word
  edgeState : Side
  lpState : Word
  hpState : Word
  thisAcc : Word
  nextAcc : Word
  deriving DecidableEq, Repr

/-- The sign of a discontinuity in time order: h or s is +1 for a rise, -1 for a fall (41_phase_and_corrections.md R137, R138). -/
inductive Turn where
  | rise
  | fall
  deriving DecidableEq, Repr

/-- Adds or subtracts a correction, by the sign of the discontinuity. -/
def applyTurn (h : Turn) (acc c : Word) : Word :=
  match h with
  | .rise => F32.add acc c
  | .fall => F32.sub acc c

/-- BLEP(h, t): the correction of a value step (R137). -/
def blep (kid : BitVec 8) (h : Turn) (t : Word) (v : Voice) : Voice :=
  { v with
    thisAcc := applyTurn h v.thisAcc (kernel kid .bThis t)
    nextAcc := applyTurn h v.nextAcc (kernel kid .bNext t) }

/-- IBLEP(s, m, t): the correction of a kink of slope change s·m (R138). -/
def iblep (kid : BitVec 8) (h : Turn) (m t : Word) (v : Voice) : Voice :=
  { v with
    thisAcc := applyTurn h v.thisAcc (F32.mul m (kernel kid .iThis t))
    nextAcc := applyTurn h v.nextAcc (F32.mul m (kernel kid .iNext t)) }

/-- The rising rate 1/pw of the slope family (R139). -/
def riseRate (pw : Word) : Word := F32.div F32.one pw

/-- The falling rate 1/(1 - pw) of the slope family (R139). -/
def fallRate (pw : Word) : Word := F32.div F32.one (F32.sub F32.one pw)

/-- The kink magnitude m = (up + dn) * abs(f) (R139). -/
def kinkSize (f pw : Word) : Word := F32.mul (F32.add (riseRate pw) (fallRate pw)) (F32.abs f)

/-- How a pulse-width shape corrects its discontinuities: the square family by BLEP, the slope family (TRIANGLE, SLOPE) by IBLEP
of magnitude m (R133 to R135). -/
inductive Family where
  | square
  | slope (m : Word)
  deriving DecidableEq, Repr

/-- The phase advance PHASE <- PHASE + f (R131). -/
def advance (f : Word) (v : Voice) : Voice := { v with phase := F32.add v.phase f }

/-- PHASE >= 1: a forward wrap is due. -/
def wrapsForward (v : Voice) : Bool := F32.le F32.one v.phase

/-- tz = 1 and PHASE < 0: a reverse wrap is due, if no forward wrap is. -/
def wrapsBackward (tz : Bool) (v : Voice) : Bool := tz && F32.lt v.phase F32.zero

/-- The fraction of a forward wrap, from the phase after it (R136). The fraction of a reverse wrap has the same form, from the
phase before it. -/
def wrapFraction (phase f : Word) : Word := sat01 (F32.div phase f)

/-- The fraction of a pulse-width edge (R136). -/
def edgeFraction (phase pw f : Word) : Word := sat01 (F32.div (F32.sub phase pw) f)

/-- WRAP_SAW: the wrap of IMPULSE and SAW (R132). EDGE_STATE is not touched. -/
def wrapSaw (kid : BitVec 8) (tz : Bool) (f : Word) (v : Voice) : Voice :=
  if wrapsForward v then
    let phase := F32.sub v.phase F32.one
    blep kid .fall (wrapFraction phase f) { v with phase := phase }
  else if wrapsBackward tz v then
    blep kid .rise (wrapFraction v.phase f) { v with phase := F32.add v.phase F32.one }
  else v

/-- The correction at a pulse-width edge into `side` (R133): the slope family's peak, the square's rise or fall. -/
def correctEdge (kid : BitVec 8) (fam : Family) (side : Side) (t : Word) (v : Voice) : Voice :=
  match fam, side with
  | .slope m, _ => iblep kid .fall m t v
  | .square, .high => blep kid .rise t v
  | .square, .low => blep kid .fall t v

/-- EDGE: the pulse-width edge, on the phase before any renormalisation (R133). -/
def edge (kid : BitVec 8) (fam : Family) (f pw : Word) (v : Voice) : Voice :=
  let side := sideOf v.phase pw
  if side = v.edgeState then v
  else { correctEdge kid fam side (edgeFraction v.phase pw f) v with edgeState := side }

/-- The correction at a wrap of a pulse-width shape: the slope family's valley in both directions; the square falls at a
forward wrap and rises at a reverse one (R134, R135). -/
def correctWrap (kid : BitVec 8) (fam : Family) (h : Turn) (t : Word) (v : Voice) : Voice :=
  match fam with
  | .slope m => iblep kid .rise m t v
  | .square => blep kid h t v

/-- The forward or the reverse wrap of the pulse-width shapes (R134, R135). -/
def wrapPulse (kid : BitVec 8) (fam : Family) (tz : Bool) (f : Word) (v : Voice) : Voice :=
  if wrapsForward v then
    let phase := F32.sub v.phase F32.one
    { correctWrap kid fam .fall (wrapFraction phase f) { v with phase := phase } with edgeState := .low }
  else if wrapsBackward tz v then
    { correctWrap kid fam .rise (wrapFraction v.phase f) { v with phase := F32.add v.phase F32.one } with
      edgeState := .high }
  else v

end Sys2Proof.Machine
end

