-- ==== Sys2Proof/Machine/Shapes.lean ====
section
/-! DEFINITION. The waveform shapers, one step rule for each shape (42_shapes.md R160 to R170). Each answers the voice after the
step and the sample y that RENDER stores. -/

namespace Sys2Proof.Machine

open Sys2Proof

/-- ONE_POLE(s, x, c) = s + (c * (x - s)) (00_scope.md R12). -/
def onePole (s x c : Word) : Word := F32.add s (F32.mul c (F32.sub x s))

/-- next <- next + v: the naive value goes in after every correction of the step (R168 to R170). -/
def addNaive (x : Word) (v : Voice) : Voice := { v with nextAcc := F32.add v.nextAcc x }

/-- The naive value of the slope family (R168). -/
def slopeNaive (pw : Word) (v : Voice) : Word :=
  match v.edgeState with
  | .low => F32.mul v.phase (riseRate pw)
  | .high => F32.sub F32.one (F32.mul (F32.sub v.phase pw) (fallRate pw))

/-- The naive value of the square family (R169). -/
def squareNaive (v : Voice) : Word :=
  match v.edgeState with
  | .low => F32.zero
  | .high => F32.one

/-- (2 * this) - 1, the output map of the unfiltered shapes (R161 to R164). -/
def centred (x : Word) : Word := F32.sub (F32.mul F32.two x) F32.one

/-- The corrections and the naive value of the saw family, IMPULSE and SAW (R132, R170). -/
def sawVoice (kid : BitVec 8) (tz : Bool) (f : Word) (v : Voice) : Voice :=
  let w := wrapSaw kid tz f v
  addNaive w.phase w

/-- The corrections and the naive value of the slope family, TRIANGLE and SLOPE (R139, R133 to R135, R168). -/
def slopeVoice (kid : BitVec 8) (tz : Bool) (f pw : Word) (v : Voice) : Voice :=
  let fam := Family.slope (kinkSize f pw)
  let w := wrapPulse kid fam tz f (edge kid fam f pw v)
  addNaive (slopeNaive pw w) w

/-- The corrections and the naive value of the square family (R133 to R135, R169). -/
def squareVoice (kid : BitVec 8) (tz : Bool) (f pw : Word) (v : Voice) : Voice :=
  let w := wrapPulse kid .square tz f (edge kid .square f pw v)
  addNaive (squareNaive w) w

/-- The one-pole output of SQUARE_DARK and SQUARE_TRIANGLE: LP_STATE follows gain * (this - 0.5) (R166, R167). -/
def lowPassed (gain c : Word) (v : Voice) : Voice × Word :=
  let lp := onePole v.lpState (F32.mul gain (F32.sub v.thisAcc F32.half)) c
  ({ v with lpState := lp }, lp)

/-- STEP[IMPULSE]: the saw differentiated and passed through a one-pole stage, K_IMP = 1 (R160). -/
def stepImpulse (kid : BitVec 8) (tz : Bool) (f : Word) (v : Voice) : Voice × Word :=
  let w := sawVoice kid tz f v
  let y1 := F32.add (F32.sub w.hpState w.thisAcc) f
  let lp := onePole w.lpState y1 F32.one
  ({ w with hpState := w.thisAcc, lpState := lp }, lp)

/-- STEP[SAW] (R161). -/
def stepSaw (kid : BitVec 8) (tz : Bool) (f : Word) (v : Voice) : Voice × Word :=
  let w := sawVoice kid tz f v
  (w, centred w.thisAcc)

/-- STEP[TRIANGLE]: the slope shape, whose pw CONTROL has forced to 0.5 (R162, 40_render.md R112). -/
def stepTriangle (kid : BitVec 8) (tz : Bool) (f pw : Word) (v : Voice) : Voice × Word :=
  let w := slopeVoice kid tz f pw v
  (w, centred w.thisAcc)

/-- STEP[SLOPE] (R163). -/
def stepSlope (kid : BitVec 8) (tz : Bool) (f pw : Word) (v : Voice) : Voice × Word :=
  let w := slopeVoice kid tz f pw v
  (w, centred w.thisAcc)

/-- STEP[SQUARE] (R164). -/
def stepSquare (kid : BitVec 8) (tz : Bool) (f pw : Word) (v : Voice) : Voice × Word :=
  let w := squareVoice kid tz f pw v
  (w, centred w.thisAcc)

/-- STEP[SQUARE_BRIGHT]: the centred square minus its low-pass at 2·abs(f), times G_BRIGHT = 0.5 (R165). -/
def stepSquareBright (kid : BitVec 8) (tz : Bool) (f pw : Word) (v : Voice) : Voice × Word :=
  let w := squareVoice kid tz f pw v
  let x := centred w.thisAcc
  let lp := onePole w.lpState x (F32.mul F32.two (F32.abs f))
  ({ w with lpState := lp }, F32.mul F32.half (F32.sub x lp))

/-- STEP[SQUARE_DARK]: the low-pass at 2·abs(f) with G_DARK = 4 (R166). -/
def stepSquareDark (kid : BitVec 8) (tz : Bool) (f pw : Word) (v : Voice) : Voice × Word :=
  lowPassed F32.four (F32.mul F32.two (F32.abs f)) (squareVoice kid tz f pw v)

/-- STEP[SQUARE_TRIANGLE]: the integrator at abs(f)·0.0625 with G_BLEND = 128 (R167). -/
def stepSquareTriangle (kid : BitVec 8) (tz : Bool) (f pw : Word) (v : Voice) : Voice × Word :=
  lowPassed F32.oneHundredTwentyEight (F32.mul (F32.abs f) F32.sixteenth) (squareVoice kid tz f pw v)

/-- STEP[shape] (42_shapes.md; 40_render.md R100). -/
def stepShape (shape : Shape) (kid : BitVec 8) (tz : Bool) (f pw : Word) (v : Voice) : Voice × Word :=
  match shape with
  | .impulse => stepImpulse kid tz f v
  | .saw => stepSaw kid tz f v
  | .triangle => stepTriangle kid tz f pw v
  | .slope => stepSlope kid tz f pw v
  | .square => stepSquare kid tz f pw v
  | .squareBright => stepSquareBright kid tz f pw v
  | .squareDark => stepSquareDark kid tz f pw v
  | .squareTriangle => stepSquareTriangle kid tz f pw v

end Sys2Proof.Machine
end

