-- ==== Sys2Proof/Machine/Render.lean ====
section
/-! DEFINITION. RENDER (40_render.md): the checks, the seeding, the linear parameter interpolator, the sample loop, and the
meaning of each of the eight RENDER rows. -/

namespace Sys2Proof.Machine

open Sys2Proof

/-- How the checks of a RENDER end (40_render.md R100 to R104). -/
inductive Verdict where
  /-- SIZE = 0: no state change and no error (R101). -/
  | nothing
  /-- Reject(code) (60_exceptions.md R210, R217). -/
  | rejected (code : RejectCode)
  /-- An unwritten FM_BUF word was scanned (60_exceptions.md R216). -/
  | unwritten (offset : Nat)
  /-- Accepted: the targets F and P after the block clamps (R104) and, sample by sample, the FM word where FM = 1. -/
  | accepted (f p : Word) (es : List (Option Word))
  deriving DecidableEq, Repr

/-- The two registers a RENDER takes its targets from hold a NaN (40_render.md R102). -/
def targetIsNaN (s : State) : Bool := F32.isNaN s.targetFreq || F32.isNaN s.targetPw

/-- Both targets are within FM_TARGET_LIMIT (40_render.md R103). -/
def targetsInRange (s : State) : Bool :=
  F32.le (F32.abs s.targetFreq) fmTargetLimit && F32.le (F32.abs s.targetPw) fmTargetLimit

/-- The checks of RENDER, in the order of 40_render.md R100 and 60_exceptions.md R217, and the block clamps (R104). -/
def checkRender (tz fm : Bool) (size : Nat) (s : State) : Verdict :=
  if s.params.maxBlockSize < size then .rejected .size
  else if size = 0 then .nothing
  else if targetIsNaN s then .rejected .nonFinite
  else if fm then
    if targetsInRange s then
      match scanFm s.mem 0 size with
      | .finite es => .accepted s.targetFreq s.targetPw (es.map some)
      | .nonFinite => .rejected .nonFinite
      | .unwritten off => .unwritten off
    else .rejected .range
  else
    .accepted (clampF s.targetFreq tz) (clampPw s.targetPw (clampF s.targetFreq tz)) (List.replicate size none)

/-- Seeding (40_render.md R108). -/
def seed (f p : Word) (o : Osc) : Osc :=
  if o.seeded then o else { o with smoothFreq := f, smoothPw := p, seeded := true }

/-- The interpolator's working values fi and pwi (40_render.md R100, R110). -/
structure Ramp where
  fi : Word
  pwi : Word
  deriving DecidableEq, Repr

/-- The increment of one parameter: one subtraction, one division, each rounded (40_render.md R109). -/
def increment (target baseline : Word) (size : Nat) : Word := F32.div (F32.sub target baseline) (F32.ofNat size)

/-- The interpolator step (40_render.md R110). -/
def rampStep (incF incPw : Word) (r : Ramp) : Ramp := { fi := F32.add r.fi incF, pwi := F32.add r.pwi incPw }

/-- The step takes `next` as `this` and clears `next` (40_render.md R100, 41_phase_and_corrections.md R130). -/
def takePending (v : Voice) : Voice := { v with thisAcc := v.nextAcc, nextAcc := F32.zero }

/-- One sample of a RENDER after the interpolator step: CONTROL, the phase advance and the shape's step (40_render.md R100,
41_phase_and_corrections.md R130). -/
def sample (shape : Shape) (kid : BitVec 8) (tz : Bool) (e : Option Word) (r : Ramp) (v : Voice) : Voice × Word :=
  let f := controlF tz e r.fi
  stepShape shape kid tz f (controlPw shape f r.pwi) (advance f (takePending v))

/-- What the sample loop leaves: the interpolator, the voice, and the samples in order. -/
structure Rendered where
  ramp : Ramp
  voice : Voice
  samples : List Word
  deriving DecidableEq, Repr

/-- The sample loop (40_render.md R100, R110), one pass for each entry of the list of FM words. -/
def renderLoop (shape : Shape) (kid : BitVec 8) (tz : Bool) (incF incPw : Word) : List (Option Word) → Ramp → Voice → Rendered
  | [], r, v => { ramp := r, voice := v, samples := [] }
  | e :: es, r, v =>
    let r' := rampStep incF incPw r
    let out := sample shape kid tz e r' v
    let rest := renderLoop shape kid tz incF incPw es r' out.1
    { rest with samples := out.2 :: rest.samples }

/-- The voice a block starts from: `next` holds PENDING (40_render.md R100). The first step clears `this` before it is used. -/
def startVoice (o : Osc) : Voice :=
  { phase := o.phase, edgeState := o.edgeState, lpState := o.lpState, hpState := o.hpState,
    thisAcc := F32.zero, nextAcc := o.pending }

/-- Persistence (40_render.md R111). -/
def persist (r : Rendered) (o : Osc) : Osc :=
  { o with
    phase := r.voice.phase
    edgeState := r.voice.edgeState
    lpState := r.voice.lpState
    hpState := r.voice.hpState
    pending := r.voice.nextAcc
    smoothFreq := r.ramp.fi
    smoothPw := r.ramp.pwi }

/-- The sample loop of an accepted block, from the seeded oscillator state `o` (40_render.md R109, R110). -/
def blockSamples (shape : Shape) (kid : BitVec 8) (tz : Bool) (f p : Word) (es : List (Option Word)) (o : Osc) : Rendered :=
  renderLoop shape kid tz (increment f o.smoothFreq es.length) (increment p o.smoothPw es.length) es
    { fi := o.smoothFreq, pwi := o.smoothPw } (startVoice o)

/-- An accepted RENDER of at least one sample: seeding, the loop, OUT_BUF[0..size-1], persistence (40_render.md R100). -/
def renderBlock (shape : Shape) (tz : Bool) (f p : Word) (es : List (Option Word)) (s : State) : State :=
  let o := seed f p s.osc
  let r := blockSamples shape s.params.kernelId tz f p es o
  { s with osc := persist r o, mem := s.mem.writeOut 0 r.samples }

/-- RENDER(shape, tz, fm, size) (40_render.md R100). -/
def render (shape : Shape) (tz fm : Bool) (size : Nat) (s : State) : Host.Outcome State Fault Refusal :=
  match checkRender tz fm size s with
  | .nothing => .next s
  | .rejected code => .next (reject code s)
  | .unwritten off => .fault (.readUnwritten off)
  | .accepted f p es => .next (renderBlock shape tz f p es s)

/-- RENDER.IMPULSE (40_render.md R100, 42_shapes.md R160). -/
def execRenderImpulse (tz fm : Bool) (size : Nat) (s : State) : Host.Outcome State Fault Refusal :=
  render .impulse tz fm size s

/-- RENDER.SAW (40_render.md R100, 42_shapes.md R161). -/
def execRenderSaw (tz fm : Bool) (size : Nat) (s : State) : Host.Outcome State Fault Refusal :=
  render .saw tz fm size s

/-- RENDER.TRIANGLE (40_render.md R100, 42_shapes.md R162). -/
def execRenderTriangle (tz fm : Bool) (size : Nat) (s : State) : Host.Outcome State Fault Refusal :=
  render .triangle tz fm size s

/-- RENDER.SLOPE (40_render.md R100, 42_shapes.md R163). -/
def execRenderSlope (tz fm : Bool) (size : Nat) (s : State) : Host.Outcome State Fault Refusal :=
  render .slope tz fm size s

/-- RENDER.SQUARE (40_render.md R100, 42_shapes.md R164). -/
def execRenderSquare (tz fm : Bool) (size : Nat) (s : State) : Host.Outcome State Fault Refusal :=
  render .square tz fm size s

/-- RENDER.SQUARE_BRIGHT (40_render.md R100, 42_shapes.md R165). -/
def execRenderSquareBright (tz fm : Bool) (size : Nat) (s : State) : Host.Outcome State Fault Refusal :=
  render .squareBright tz fm size s

/-- RENDER.SQUARE_DARK (40_render.md R100, 42_shapes.md R166). -/
def execRenderSquareDark (tz fm : Bool) (size : Nat) (s : State) : Host.Outcome State Fault Refusal :=
  render .squareDark tz fm size s

/-- RENDER.SQUARE_TRIANGLE (40_render.md R100, 42_shapes.md R167). -/
def execRenderSquareTriangle (tz fm : Bool) (size : Nat) (s : State) : Host.Outcome State Fault Refusal :=
  render .squareTriangle tz fm size s

end Sys2Proof.Machine
end

