-- ==== Sys2Proof/Machine/Dispatch.lean ====
section
/-! DEFINITION. exec: one arm for each constructor of Instr, each one direct call of that instruction's meaning. -/

namespace Sys2Proof.Machine

open Sys2Proof

def exec (i : Instr) (s : State) : Host.Outcome State Fault Refusal :=
  match i with
  | .nop => Sys2Proof.Machine.execNop s
  | .init => Sys2Proof.Machine.execInit s
  | .keval => Sys2Proof.Machine.execKeval s
  | .renderImpulse tz fm size => Sys2Proof.Machine.execRenderImpulse tz fm size s
  | .renderSaw tz fm size => Sys2Proof.Machine.execRenderSaw tz fm size s
  | .renderTriangle tz fm size => Sys2Proof.Machine.execRenderTriangle tz fm size s
  | .renderSlope tz fm size => Sys2Proof.Machine.execRenderSlope tz fm size s
  | .renderSquare tz fm size => Sys2Proof.Machine.execRenderSquare tz fm size s
  | .renderSquareBright tz fm size => Sys2Proof.Machine.execRenderSquareBright tz fm size s
  | .renderSquareDark tz fm size => Sys2Proof.Machine.execRenderSquareDark tz fm size s
  | .renderSquareTriangle tz fm size => Sys2Proof.Machine.execRenderSquareTriangle tz fm size s

end Sys2Proof.Machine
end

