-- ==== Sys2Proof/Machine/Bus.lean ====
section
/-! DEFINITION. How the block serves a bus access (20_memory.md R50 to R55, R62): MemRead, MemWrite, bus errors
(60_exceptions.md R213), and the execution of a command word written to CMD. -/

namespace Sys2Proof.Machine

open Sys2Proof

/-- A register as read (10_state.md R40 to R48); CMD reads 0x00000000 (R42). -/
def readReg (r : Reg) (s : State) : Word :=
  match r with
  | .id => idWord
  | .caps => capsWord s.params
  | .cmd => F32.zero
  | .status => statusWord s.err s.errCode
  | .targetFreq => s.targetFreq
  | .targetPw => s.targetPw
  | .kernelT => s.kernelT
  | .kernelBThis => s.kernelBThis
  | .kernelBNext => s.kernelBNext
  | .kernelIThis => s.kernelIThis
  | .kernelINext => s.kernelINext
  | .phase => s.osc.phase
  | .pending => s.osc.pending
  | .lpState => s.osc.lpState
  | .hpState => s.osc.hpState
  | .edgeState => bitWord (sideBit s.osc.edgeState)
  | .smoothFreq => s.osc.smoothFreq
  | .smoothPw => s.osc.smoothPw
  | .seeded => bitWord s.osc.seeded

/-- The read of a buffer word: an unwritten word is the model fault (20_memory.md R54, 60_exceptions.md R216). -/
def readBuffer (off : Nat) (s : State) : Host.Outcome State Fault Refusal :=
  match s.mem.readWord off with
  | some w => .next (respond (.readData w) s)
  | none => .fault (.readUnwritten off)

/-- A bus error on a read: 0x00000000 beside the error response, nothing changes (60_exceptions.md R213). -/
def refuseRead (s : State) : Host.Outcome State Fault Refusal := .next (respond (.readError 0#32) s)

/-- A bus error on a write: no effect (60_exceptions.md R213). -/
def refuseWrite (s : State) : Host.Outcome State Fault Refusal := .next (respond .writeError s)

/-- MemRead at a window offset (20_memory.md R51, R52, R54): reads change nothing but the response. -/
def busRead (off width : Nat) (s : State) : Host.Outcome State Fault Refusal :=
  if width ≠ 32 then refuseRead s
  else
    match locate s.params off with
    | none => refuseRead s
    | some (.reg r) => .next (respond (.readData (readReg r s)) s)
    | some (.fmBuf _) => readBuffer off s
    | some (.outBuf _) => readBuffer off s

/-- A command word: decoded and executed before the write completes, an ILLEGAL word rejected with code 1 (30_encoding.md R71,
43_control.md R193). -/
def command (w : Word) (s : State) : Host.Outcome State Fault Refusal :=
  match decode w with
  | .ok i => exec i s
  | .error _ => .next (reject .illegalCmd s)

/-- A write to a register (20_memory.md R54): CMD executes, STATUS clears, the three RW registers store, every other register is
read-only. The write's response is given before CMD executes, so that what CMD leaves is what its command leaves. -/
def writeReg (r : Reg) (w : Word) (s : State) : Host.Outcome State Fault Refusal :=
  match r with
  | .cmd => command w (respond .writeDone s)
  | .status => .next (writeStatus w (respond .writeDone s))
  | .targetFreq => .next { respond .writeDone s with targetFreq := w }
  | .targetPw => .next { respond .writeDone s with targetPw := w }
  | .kernelT => .next { respond .writeDone s with kernelT := w }
  | .id => refuseWrite s
  | .caps => refuseWrite s
  | .kernelBThis => refuseWrite s
  | .kernelBNext => refuseWrite s
  | .kernelIThis => refuseWrite s
  | .kernelINext => refuseWrite s
  | .phase => refuseWrite s
  | .pending => refuseWrite s
  | .lpState => refuseWrite s
  | .hpState => refuseWrite s
  | .edgeState => refuseWrite s
  | .smoothFreq => refuseWrite s
  | .smoothPw => refuseWrite s
  | .seeded => refuseWrite s

/-- MemWrite at a window offset (20_memory.md R51, R52, R54). -/
def busWrite (off width : Nat) (w : Word) (s : State) : Host.Outcome State Fault Refusal :=
  if width ≠ 32 then refuseWrite s
  else
    match locate s.params off with
    | none => refuseWrite s
    | some (.reg r) => writeReg r w s
    | some (.fmBuf _) => .next { respond .writeDone s with mem := s.mem.writeWord off w }
    | some (.outBuf _) => refuseWrite s

/-- Serves one request. An access outside the window at BASE is not this block's: it changes nothing and is not answered
(20_memory.md R50, R63; log entry 9). -/
def serve (q : BusRequest) (s : State) : Host.Outcome State Fault Refusal :=
  match q with
  | .reset => .next (applyReset s)
  | .read addr width =>
    match windowOffset s.params addr with
    | none => .next { s with response := none }
    | some off => busRead off width s
  | .write addr width w =>
    match windowOffset s.params addr with
    | none => .next { s with response := none }
    | some off => busWrite off width w s

/-- The write of a command word to CMD, at offset 0x008 (10_state.md R42). -/
def commandWrite (p : Params) (w : Word) : BusRequest := .write (p.base + 0x008) 32 w

end Sys2Proof.Machine
end

