-- ==== Sys2Proof/Machine/Step.lean ====
section
/-! DEFINITION. One step of the machine: the oldest request of the host is served (20_memory.md R55, R58). -/

namespace Sys2Proof.Machine

open Sys2Proof

/-- One step. With no request the block waits and nothing changes (70_reset_and_hazards.md R232); otherwise it takes the oldest
request and serves it in full before the next (20_memory.md R55, R58). -/
def step (s : State) : Host.Outcome State Fault Refusal :=
  match s.host with
  | [] => .next s
  | q :: rest => serve q { s with host := rest }

/-- The state whose next request is the write to CMD of the command word given as the opcode table numbers its bits. The block
fetches nothing (10_state.md R21): this is how a command comes to run (log entry 1). -/
def State.withFetchWord (s : State) (nbits w : Nat) : State :=
  { s with host := commandWrite s.params (tableWord nbits w) :: s.host }

end Sys2Proof.Machine
end

