-- ==== Sys2Proof/WellFormed.lean ====
section
/-! DEFINITION. Which commands and which parameter records stand for something the spec allows. -/

namespace Sys2Proof

/-- A SIZE that fits its 16-bit field, bits 31:16 (30_encoding.md R70, R74). -/
def sizeFits (size : Nat) : Bool := decide (size < 2 ^ 16)

/-- A command whose fields fit the encoding: every TZ, FM and SHAPE is legal (30_encoding.md R73, R75), so only SIZE is
checked. -/
def Instr.wellFormed : Instr → Bool
  | .nop => true
  | .init => true
  | .keval => true
  | .renderImpulse _ _ size => sizeFits size
  | .renderSaw _ _ size => sizeFits size
  | .renderTriangle _ _ size => sizeFits size
  | .renderSlope _ _ size => sizeFits size
  | .renderSquare _ _ size => sizeFits size
  | .renderSquareBright _ _ size => sizeFits size
  | .renderSquareDark _ _ size => sizeFits size
  | .renderSquareTriangle _ _ size => sizeFits size

/-- Parameters in their legal ranges: BASE a multiple of 0x4000 (20_memory.md R50), MAX_BLOCK_SIZE from 1 to 1024
(00_scope.md R4). Every KERNEL_ID is legal (10_state.md R41). -/
def Params.wellFormed (p : Params) : Bool :=
  decide (p.base % 0x4000 = 0) && decide (1 ≤ p.maxBlockSize) && decide (p.maxBlockSize ≤ 1024)

end Sys2Proof
end

