-- ==== Sys2Proof/Safety.lean ====
section
/-! DEFINITION. What counts as a safe state and what a command leaves alone, in the terms the statements use. -/

namespace Sys2Proof.Safety

open Sys2Proof Sys2Proof.Machine

/-- A byte of FM_BUF or OUT_BUF (20_memory.md R50). -/
def bufferByte (p : Params) (a : Nat) : Bool :=
  decide (0x1000 ≤ a ∧ a < 0x1000 + 4 * p.maxBlockSize) || decide (0x2000 ≤ a ∧ a < 0x2000 + 4 * p.maxBlockSize)

/-- The buffers are in canonical form, lie where the window maps them, and hold whole words (10_state.md R49). -/
abbrev buffersOk (s : State) : Prop :=
  s.mem.wf ∧ ∀ c ∈ s.mem, bufferByte s.params c.1 = true ∧ (s.mem.readWord (c.1 - c.1 % 4)).isSome = true

/-- ERRCODE is 0 whenever ERR is 0, and one of the codes 1 to 4 otherwise (10_state.md R43, 30_encoding.md R78). -/
abbrev statusOk (s : State) : Prop :=
  (s.err = false → s.errCode = 0#4) ∧ (s.err = true → 1 ≤ s.errCode.toNat ∧ s.errCode.toNat ≤ 4)

/-- The machine is one that the spec describes. -/
abbrev Inv (s : State) : Prop := s.params.wellFormed = true ∧ buffersOk s ∧ statusOk s

/-- A phase in [0, 1] (10_state.md R23). -/
abbrev phaseOk (phase : Word) : Prop := F32.le F32.zero phase = true ∧ F32.le phase F32.one = true

/-- 2^100, the bound the model's invariant puts on SMOOTH_FREQ and SMOOTH_PW: far above FM_TARGET_LIMIT, far below
overflow (log entry 19). -/
def rampLimit : Word := 0x71800000#32

/-- PHASE is in [0, 1] and the interpolator's two baselines are far from overflow (10_state.md R23, 40_render.md R109). -/
abbrev PhaseInv (s : State) : Prop :=
  s.params.wellFormed = true ∧ phaseOk s.osc.phase ∧ F32.le (F32.abs s.osc.smoothFreq) rampLimit = true ∧
    F32.le (F32.abs s.osc.smoothPw) rampLimit = true

/-- The registers no command writes, and the two fields of the bus (43_control.md R194). -/
def sameSettings (s t : State) : Prop :=
  t.params = s.params ∧ t.targetFreq = s.targetFreq ∧ t.targetPw = s.targetPw ∧ t.kernelT = s.kernelT ∧
    t.host = s.host ∧ t.response = s.response

/-- The four result registers of KEVAL. -/
def sameKernelResults (s t : State) : Prop :=
  t.kernelBThis = s.kernelBThis ∧ t.kernelBNext = s.kernelBNext ∧ t.kernelIThis = s.kernelIThis ∧
    t.kernelINext = s.kernelINext

/-- STATUS. -/
def sameStatus (s t : State) : Prop := t.err = s.err ∧ t.errCode = s.errCode

/-- Every byte of the buffers outside lo, …, hi - 1 reads as before. -/
def sameBytesOutside (lo hi : Nat) (s t : State) : Prop := ∀ a, a < lo ∨ hi ≤ a → t.mem.byteAt a = s.mem.byteAt a

/-- When RENDER is accepted and has at least one sample (40_render.md R101 to R103). -/
def renderAccepted (fm : Bool) (size : Nat) (s : State) : Prop :=
  0 < size ∧ size ≤ s.params.maxBlockSize ∧ F32.isNaN s.targetFreq = false ∧ F32.isNaN s.targetPw = false ∧
    (fm = true →
      F32.le (F32.abs s.targetFreq) 0x5F800000#32 = true ∧ F32.le (F32.abs s.targetPw) 0x5F800000#32 = true ∧
        ∀ k, k < size → ∃ e, s.mem.readWord (0x1000 + 4 * k) = some e ∧ F32.isFinite e = true)

/-- F of an accepted RENDER: the clamped target, or the register itself with external FM (40_render.md R104). -/
def targetF (tz fm : Bool) (s : State) : Word := if fm then s.targetFreq else clampF s.targetFreq tz

/-- P of an accepted RENDER (40_render.md R104). -/
def targetP (tz fm : Bool) (s : State) : Word :=
  if fm then s.targetPw else clampPw s.targetPw (clampF s.targetFreq tz)

/-- The external FM value of sample n: FM_BUF[n] with FM = 1, none otherwise (40_render.md R112). -/
def fmValue (fm : Bool) (n : Nat) (s : State) : Option Word := if fm then s.mem.readWord (0x1000 + 4 * n) else none

/-- What every accepted RENDER leaves alone and what it always writes (20_memory.md R56, 43_control.md R194). -/
def renderFrame (size : Nat) (s t : State) : Prop :=
  sameSettings s t ∧ sameKernelResults s t ∧ sameStatus s t ∧ sameBytesOutside 0x2000 (0x2000 + 4 * size) s t ∧
    t.osc.seeded = true ∧ ∀ n, n < size → (t.mem.readWord (0x2000 + 4 * n)).isSome = true

/-- The state after a Reject: STATUS and nothing else (60_exceptions.md R211). -/
def rejectedWith (code : BitVec 4) (s : State) : State := { s with err := true, errCode := code }

/-- The values of 70_reset_and_hazards.md R230. -/
def hasResetValues (t : State) : Prop :=
  t.osc.phase = 0x3F000000#32 ∧ t.osc.pending = 0#32 ∧ t.osc.lpState = 0#32 ∧ t.osc.hpState = 0#32 ∧
    t.osc.edgeState = .high ∧ t.osc.smoothFreq = 0#32 ∧ t.osc.smoothPw = 0x3F000000#32 ∧ t.osc.seeded = false ∧
    t.err = false ∧ t.errCode = 0#4 ∧ t.targetFreq = 0#32 ∧ t.targetPw = 0#32 ∧ t.kernelT = 0#32 ∧
    t.kernelBThis = 0#32 ∧ t.kernelBNext = 0#32 ∧ t.kernelIThis = 0#32 ∧ t.kernelINext = 0#32 ∧
    (∀ n, t.mem.readWord (0x1000 + 4 * n) = none) ∧ (∀ n, t.mem.readWord (0x2000 + 4 * n) = none) ∧
    readReg .id t = 0x4F534301#32 ∧
    readReg .caps t = (t.params.kernelId.setWidth 32 <<< 16) ||| (BitVec.ofNat 16 t.params.maxBlockSize).setWidth 32

/-- The offsets of the registers (10_state.md, the table of section 3). -/
def registerOffsets : List Nat :=
  [0x000, 0x004, 0x008, 0x00C, 0x010, 0x014, 0x018, 0x01C, 0x020, 0x024, 0x028, 0x040, 0x044, 0x048, 0x04C, 0x050,
   0x054, 0x058, 0x05C]

/-- The read-only registers (60_exceptions.md R213). -/
def readOnlyOffsets : List Nat :=
  [0x000, 0x004, 0x01C, 0x020, 0x024, 0x028, 0x040, 0x044, 0x048, 0x04C, 0x050, 0x054, 0x058, 0x05C]

/-- A window offset that 20_memory.md R50 maps. -/
def mapped (p : Params) (off : Nat) : Prop :=
  off ∈ registerOffsets ∨ (0x1000 ≤ off ∧ off < 0x1000 + 4 * p.maxBlockSize) ∨
    (0x2000 ≤ off ∧ off < 0x2000 + 4 * p.maxBlockSize)

/-- An access that a bus error answers, causes 1 to 3 of 60_exceptions.md R213. -/
def badAccess (p : Params) (off width : Nat) : Prop := width ≠ 32 ∨ off % 4 ≠ 0 ∨ ¬ mapped p off

/-- A write that a bus error answers, causes 1 to 4 of 60_exceptions.md R213. -/
def badWrite (p : Params) (off width : Nat) : Prop :=
  badAccess p off width ∨ off ∈ readOnlyOffsets ∨ (0x2000 ≤ off ∧ off < 0x2000 + 4 * p.maxBlockSize)

/-- The finite word `r` is the binary32 value nearest to num/den units of 2^-149, ties to the even fraction (00_scope.md R6). -/
def nearestEven (num : Int) (den : Nat) (r : Word) : Prop :=
  F32.isFinite r = true ∧
    ∀ c : Word, F32.isFinite c = true →
      |F32.value r * den - num| ≤ |F32.value c * den - num| ∧
        (|F32.value r * den - num| = |F32.value c * den - num| → F32.value c ≠ F32.value r → r.getLsbD 0 = false)

/-- The word `r` is num/den units of 2^-149 rounded to binary32: nearest even below the overflow threshold of half a last place
above the largest finite value, the infinity of its sign from there on (00_scope.md R6). -/
def correctlyRounded (num : Int) (den : Nat) (r : Word) : Prop :=
  (|num| < (2 ^ 25 - 1) * 2 ^ 252 * den → nearestEven num den r) ∧
    ((2 ^ 25 - 1) * 2 ^ 252 * den ≤ |num| → F32.isInf r = true ∧ F32.sign r = decide (num < 0))

end Sys2Proof.Safety
end

