-- ==== Sys2Proof/Certificates/Slice0/Obligations.lean ====
section
/-! DEFINITION. The statements about AAOSC, from the numbered rules of spec/. -/

open Sys2Proof Sys2Proof.Machine Sys2Proof.Safety

/-! ## Encoding -/

/-- Every well-formed command is read back from its own word, whatever its fields hold (30_encoding.md, sections 1, 2 and 6). -/
def Obligations.DecodeOfEncodeIsTheCommand : Prop :=
  ∀ i : Instr, i.wellFormed = true → decode (encode i) = .ok i

/-- Every word that decodes is the word of the command it decodes to, and no bit of it is dropped (30_encoding.md R71). -/
def Obligations.EncodeOfDecodeIsTheWord : Prop :=
  ∀ (w : Word) (i : Instr), decode w = .ok i → i.wellFormed = true ∧ encode i = w

/-- The decode function of 30_encoding.md R71, its fields written as arithmetic on the word's number. -/
def Obligations.DecodeFollowsTheRowsInOrder : Prop :=
  ∀ w : Word,
    (w.toNat = 0 → decode w = .ok .nop) ∧
    (w.toNat = 1 → decode w = .ok .init) ∧
    (w.toNat = 3 → decode w = .ok .keval) ∧
    (w.toNat % 16 = 2 → w.toNat / 2 ^ 9 % 2 ^ 7 = 0 →
      ∀ shape, shapeCode shape = w.toNat / 2 ^ 4 % 2 ^ 3 →
        decode w = .ok (renderOf shape (decide (w.toNat / 2 ^ 7 % 2 = 1)) (decide (w.toNat / 2 ^ 8 % 2 = 1))
          (w.toNat / 2 ^ 16))) ∧
    (w.toNat ≠ 0 → w.toNat ≠ 1 → w.toNat ≠ 3 → ¬ (w.toNat % 16 = 2 ∧ w.toNat / 2 ^ 9 % 2 ^ 7 = 0) →
      ∃ x, decode w = .error x)

/-- The words of 30_encoding.md R77 are exactly those that decode to no command, and each is rejected with ERRCODE 1 and
changes nothing else (R77, 43_control.md R193). -/
def Obligations.IllegalWordsAreRejectedWithCodeOne : Prop :=
  ∀ (w : Word) (s : State),
    ((4 ≤ w.toNat % 16 ∨
        ((w.toNat % 16 = 0 ∨ w.toNat % 16 = 1 ∨ w.toNat % 16 = 3) ∧ w.toNat / 16 ≠ 0) ∨
        (w.toNat % 16 = 2 ∧ w.toNat / 2 ^ 9 % 2 ^ 7 ≠ 0)) ↔ ∃ x, decode w = .error x) ∧
    ((∃ x, decode w = .error x) → command w s = .next { s with err := true, errCode := 1#4 })

/-- Words of 95_test_vectors.md and of 30_encoding.md R79 decode to the commands they stand for, and three ILLEGAL words to no
command. The three reject names are the model's own choice (log entry 18, DESIGN CHOICE). -/
def Obligations.SpecWordsDecodeToTheirCommands : Prop :=
  decode 0x00000000#32 = .ok .nop ∧ decode 0x00000001#32 = .ok .init ∧ decode 0x00000003#32 = .ok .keval ∧
    decode 0x00040002#32 = .ok (.renderImpulse false false 4) ∧ decode 0x00040192#32 = .ok (.renderSaw true true 4) ∧
    decode 0x00040022#32 = .ok (.renderTriangle false false 4) ∧ decode 0x000400B2#32 = .ok (.renderSlope true false 4) ∧
    decode 0x00640042#32 = .ok (.renderSquare false false 100) ∧
    decode 0x00040052#32 = .ok (.renderSquareBright false false 4) ∧
    decode 0x00040062#32 = .ok (.renderSquareDark false false 4) ∧
    decode 0xFFFF01F2#32 = .ok (.renderSquareTriangle true true 65535) ∧
    decode 0x00000202#32 = .error .reservedBits ∧ decode 0x80000003#32 = .error .controlWordBits ∧
    decode 0x0000000F#32 = .error .unassignedOp

/-! ## One step -/

/-- A write of a word to CMD runs the decoded command, or ends in Reject(1) where the word is ILLEGAL, on the state with that
request taken from the queue and the write answered; withFetchWord puts the word there (20_memory.md R55, 10_state.md R42,
43_control.md R193; log entries 1 and 2). -/
def Obligations.StepRunsTheDecodedCommand : Prop :=
  ∀ (s : State) (w : Word),
    (∀ i, decode w = .ok i →
      (∀ rest, s.host = .write (s.params.base + 0x008) 32 w :: rest →
        step s = exec i { s with host := rest, response := some .writeDone }) ∧
      step (s.withFetchWord 32 w.toNat) = exec i { s with response := some .writeDone }) ∧
    (∀ x, decode w = .error x →
      (∀ rest, s.host = .write (s.params.base + 0x008) 32 w :: rest →
        step s = .next (rejectedWith 1#4 { s with host := rest, response := some .writeDone })) ∧
      step (s.withFetchWord 32 w.toNat) = .next (rejectedWith 1#4 { s with response := some .writeDone }))

/-- With no request the block waits, and an access outside its window is not its own (70_reset_and_hazards.md R232,
20_memory.md R50, R63; log entries 1 and 9). -/
def Obligations.WaitingAndForeignAccessesChangeNothing : Prop :=
  ∀ (s : State),
    (s.host = [] → step s = .next s) ∧
    ∀ (addr width : Nat) (rest : List BusRequest), addr < s.params.base ∨ s.params.base + 0x4000 ≤ addr →
      (s.host = .read addr width :: rest → step s = .next { s with host := rest, response := none }) ∧
      (∀ w, s.host = .write addr width w :: rest → step s = .next { s with host := rest, response := none })

/-- No step refuses, and the one fault is the model fault: it is raised exactly by a read of an unwritten word of FM_BUF or
OUT_BUF (60_exceptions.md R216). -/
def Obligations.TheOnlyFaultIsReadUnwritten : Prop :=
  (∀ (s : State) (r : Refusal), step s ≠ .refused r) ∧
  (∀ (s : State) (x : Fault), step s = .fault x →
    ∃ off, x = .readUnwritten off ∧ s.mem.readWord off = none ∧
      ((0x1000 ≤ off ∧ off < 0x1000 + 4 * s.params.maxBlockSize) ∨
        (0x2000 ≤ off ∧ off < 0x2000 + 4 * s.params.maxBlockSize))) ∧
  (∀ (s : State) (n : Nat) (rest : List BusRequest), s.params.wellFormed = true → n < s.params.maxBlockSize →
    (s.host = .read (s.params.base + (0x1000 + 4 * n)) 32 :: rest → s.mem.readWord (0x1000 + 4 * n) = none →
      step s = .fault (.readUnwritten (0x1000 + 4 * n))) ∧
    (s.host = .read (s.params.base + (0x2000 + 4 * n)) 32 :: rest → s.mem.readWord (0x2000 + 4 * n) = none →
      step s = .fault (.readUnwritten (0x2000 + 4 * n))))

/-! ## Reset and invariants -/

/-- A reset puts every piece of state at the value of 70_reset_and_hazards.md R230, and State.reset is such a state. -/
def Obligations.ResetPutsEveryRegisterAtItsValue : Prop :=
  hasResetValues State.reset ∧
  ∀ (s : State) (rest : List BusRequest), s.host = .reset :: rest → ∃ t, step s = .next t ∧ hasResetValues t

/-- A reset keeps the parameters and what the host issued after it, and leaves no answer (log entries 3 and 17: the model's
choice). -/
def Obligations.ResetKeepsParametersAndQueue : Prop :=
  ∀ (s : State) (rest : List BusRequest), s.host = .reset :: rest →
    ∃ t, step s = .next t ∧ t.params = s.params ∧ t.host = rest ∧ t.response = none

/-- The machine after reset is one that the spec describes, with PHASE in [0, 1]. The parameters it is built with are the
defaults (00_scope.md R4), BASE the model's own choice (log entry 3). -/
def Obligations.ResetMeetsTheInvariants : Prop := Inv State.reset ∧ PhaseInv State.reset

/-- Every step keeps the buffers canonical, mapped and whole, STATUS coherent and the parameters legal (10_state.md R43, R49;
20_memory.md R50). -/
def Obligations.EveryStepKeepsTheMachineWellFormed : Prop :=
  ∀ s t : State, Inv s → step s = .next t → Inv t

/-- Every step keeps PHASE in [0, 1] (10_state.md R23) and the interpolator's baselines SMOOTH_FREQ and SMOOTH_PW within the bound
of log entry 19. -/
def Obligations.EveryStepKeepsPhaseInTheUnitInterval : Prop :=
  ∀ s t : State, PhaseInv s → step s = .next t → PhaseInv t

/-! ## Control commands -/

/-- NOP leaves every piece of state as it was (43_control.md R190). -/
def Obligations.NopChangesNothing : Prop := ∀ s : State, exec .nop s = .next s

/-- INIT writes the eight values of 43_control.md R191, which are those of a reset, and nothing else. -/
def Obligations.InitRestoresTheOscillatorOnly : Prop :=
  ∀ s : State, ∃ t, exec .init s = .next t ∧
    t.osc.phase = 0x3F000000#32 ∧ t.osc.pending = 0#32 ∧ t.osc.lpState = 0#32 ∧ t.osc.hpState = 0#32 ∧
    t.osc.edgeState = .high ∧ t.osc.smoothFreq = 0#32 ∧ t.osc.smoothPw = 0x3F000000#32 ∧ t.osc.seeded = false ∧
    t.osc = (applyReset s).osc ∧ sameSettings s t ∧ sameKernelResults s t ∧ sameStatus s t ∧ t.mem = s.mem

/-- With the default kernel KEVAL writes the four kernel functions at x = SAT01(KERNEL_T), by the formulas of
41_phase_and_corrections.md R140 to R143, and nothing else (43_control.md R192). -/
def Obligations.KevalWritesTheFourKernelValues : Prop :=
  ∀ s : State, s.params.kernelId = 0#8 →
    let x := sat01 s.kernelT
    let u := F32.sub 0x3F800000#32 x
    ∃ t, exec .keval s = .next t ∧
      t.kernelBThis = F32.mul (F32.mul 0x3F000000#32 x) x ∧
      t.kernelBNext = F32.neg (F32.mul (F32.mul 0x3F000000#32 u) u) ∧
      t.kernelIThis = F32.div (F32.mul (F32.mul x x) x) 0x40C00000#32 ∧
      t.kernelINext = F32.div (F32.mul (F32.mul u u) u) 0x40C00000#32 ∧
      t.osc = s.osc ∧ sameSettings s t ∧ sameStatus s t ∧ t.mem = s.mem

/-- With another kernel KEVAL writes that kernel's values at SAT01(KERNEL_T), whatever they are, and nothing else
(43_control.md R192, 10_state.md R41; the kernel is the free value of log entry 4). -/
def Obligations.KevalUsesTheFittedKernel : Prop :=
  ∀ s : State, s.params.kernelId ≠ 0#8 →
    ∃ t, exec .keval s = .next t ∧
      t.kernelBThis = Config.fittedKernel s.params.kernelId .bThis (sat01 s.kernelT) ∧
      t.kernelBNext = Config.fittedKernel s.params.kernelId .bNext (sat01 s.kernelT) ∧
      t.kernelIThis = Config.fittedKernel s.params.kernelId .iThis (sat01 s.kernelT) ∧
      t.kernelINext = Config.fittedKernel s.params.kernelId .iNext (sat01 s.kernelT) ∧
      t.osc = s.osc ∧ sameSettings s t ∧ sameStatus s t ∧ t.mem = s.mem

/-- A NaN or negative KERNEL_T acts as 0 and one above 1 acts as 1, with the boundary values of the default kernel; one in [0, 1],
-0.0 included, is taken as it is (43_control.md R192, 00_scope.md R11, 41_phase_and_corrections.md R144). -/
def Obligations.KevalSaturatesItsOperand : Prop :=
  ∀ s : State, s.params.kernelId = 0#8 →
    (F32.isNaN s.kernelT = true ∨ F32.lt s.kernelT 0#32 = true →
      exec .keval s = .next { s with
        kernelBThis := 0x00000000#32, kernelBNext := 0xBF000000#32,
        kernelIThis := 0x00000000#32, kernelINext := 0x3E2AAAAB#32 }) ∧
    (F32.lt 0x3F800000#32 s.kernelT = true →
      exec .keval s = .next { s with
        kernelBThis := 0x3F000000#32, kernelBNext := 0x80000000#32,
        kernelIThis := 0x3E2AAAAB#32, kernelINext := 0x00000000#32 }) ∧
    (F32.le 0#32 s.kernelT = true → F32.le s.kernelT 0x3F800000#32 = true →
      let x := s.kernelT
      let u := F32.sub 0x3F800000#32 x
      exec .keval s = .next { s with
        kernelBThis := F32.mul (F32.mul 0x3F000000#32 x) x
        kernelBNext := F32.neg (F32.mul (F32.mul 0x3F000000#32 u) u)
        kernelIThis := F32.div (F32.mul (F32.mul x x) x) 0x40C00000#32
        kernelINext := F32.div (F32.mul (F32.mul u u) u) 0x40C00000#32 })

/-- Whatever KERNEL_T holds, the default kernel's results lie between their boundary values: BTHIS in [0, 0.5], BNEXT in
[-0.5, 0], ITHIS and INEXT in [0, 1/6] (41_phase_and_corrections.md R140 to R144). -/
def Obligations.KevalResultsAreBounded : Prop :=
  ∀ s t : State, s.params.kernelId = 0#8 → exec .keval s = .next t →
    F32.le 0#32 t.kernelBThis = true ∧ F32.le t.kernelBThis 0x3F000000#32 = true ∧
    F32.le 0xBF000000#32 t.kernelBNext = true ∧ F32.le t.kernelBNext 0#32 = true ∧
    F32.le 0#32 t.kernelIThis = true ∧ F32.le t.kernelIThis 0x3E2AAAAB#32 = true ∧
    F32.le 0#32 t.kernelINext = true ∧ F32.le t.kernelINext 0x3E2AAAAB#32 = true

/-! ## RENDER: the checks -/

/-- SIZE above MAX_BLOCK_SIZE is Reject(2), SIZE = 0 a no-op, both before any other check and for every shape and mode
(40_render.md R101). -/
def Obligations.RenderChecksSizeFirst : Prop :=
  ∀ (shape : Shape) (tz fm : Bool) (size : Nat) (s : State),
    (s.params.maxBlockSize < size → exec (renderOf shape tz fm size) s = .next (rejectedWith 2#4 s)) ∧
    (size ≤ s.params.maxBlockSize → size = 0 → exec (renderOf shape tz fm size) s = .next s)

/-- A NaN in TARGET_FREQ or TARGET_PW is Reject(3) in every mode (40_render.md R102). -/
def Obligations.RenderRejectsNaNTargets : Prop :=
  ∀ (shape : Shape) (tz fm : Bool) (size : Nat) (s : State), 0 < size → size ≤ s.params.maxBlockSize →
    F32.isNaN s.targetFreq = true ∨ F32.isNaN s.targetPw = true →
    exec (renderOf shape tz fm size) s = .next (rejectedWith 3#4 s)

/-- With FM = 1: a target above FM_TARGET_LIMIT is Reject(4); then the first FM_BUF word, in index order, that is unwritten or
not finite decides, as the model fault or as Reject(3) (40_render.md R103, 60_exceptions.md R217). -/
def Obligations.RenderChecksExternalFmInOrder : Prop :=
  ∀ (shape : Shape) (tz : Bool) (size : Nat) (s : State), 0 < size → size ≤ s.params.maxBlockSize →
    F32.isNaN s.targetFreq = false → F32.isNaN s.targetPw = false →
    (F32.lt 0x5F800000#32 (F32.abs s.targetFreq) = true ∨ F32.lt 0x5F800000#32 (F32.abs s.targetPw) = true →
      exec (renderOf shape tz true size) s = .next (rejectedWith 4#4 s)) ∧
    (F32.lt 0x5F800000#32 (F32.abs s.targetFreq) = false → F32.lt 0x5F800000#32 (F32.abs s.targetPw) = false →
      ∀ k, k < size →
        (∀ j, j < k → ∃ e, s.mem.readWord (0x1000 + 4 * j) = some e ∧ F32.isFinite e = true) →
        (s.mem.readWord (0x1000 + 4 * k) = none →
          exec (renderOf shape tz true size) s = .fault (.readUnwritten (0x1000 + 4 * k))) ∧
        (∀ e, s.mem.readWord (0x1000 + 4 * k) = some e → F32.isFinite e = false →
          exec (renderOf shape tz true size) s = .next (rejectedWith 3#4 s)))

/-! ## RENDER: completion, result and frame -/

/-- RENDER.IMPULSE and RENDER.SAW complete whenever the checks pass: they write OUT_BUF[0..size-1] and the oscillator, never
EDGE_STATE, and SAW neither filter memory (40_render.md R100 to R103, 42_shapes.md R160, R161, 10_state.md R27). -/
def Obligations.RenderImpulseAndSawComplete : Prop :=
  ∀ (tz fm : Bool) (size : Nat) (s : State), renderAccepted fm size s →
    (∃ t, exec (.renderImpulse tz fm size) s = .next t ∧ renderFrame size s t ∧ t.osc.edgeState = s.osc.edgeState) ∧
    (∃ t, exec (.renderSaw tz fm size) s = .next t ∧ renderFrame size s t ∧ t.osc.edgeState = s.osc.edgeState ∧
      t.osc.lpState = s.osc.lpState ∧ t.osc.hpState = s.osc.hpState)

/-- RENDER.TRIANGLE, RENDER.SLOPE and RENDER.SQUARE complete whenever the checks pass, and write neither filter memory
(40_render.md R100 to R103, 42_shapes.md R162 to R164). -/
def Obligations.RenderUnfilteredPulseShapesComplete : Prop :=
  ∀ (tz fm : Bool) (size : Nat) (s : State), renderAccepted fm size s →
    (∃ t, exec (.renderTriangle tz fm size) s = .next t ∧ renderFrame size s t ∧
      t.osc.lpState = s.osc.lpState ∧ t.osc.hpState = s.osc.hpState) ∧
    (∃ t, exec (.renderSlope tz fm size) s = .next t ∧ renderFrame size s t ∧
      t.osc.lpState = s.osc.lpState ∧ t.osc.hpState = s.osc.hpState) ∧
    (∃ t, exec (.renderSquare tz fm size) s = .next t ∧ renderFrame size s t ∧
      t.osc.lpState = s.osc.lpState ∧ t.osc.hpState = s.osc.hpState)

/-- RENDER.SQUARE_BRIGHT, RENDER.SQUARE_DARK and RENDER.SQUARE_TRIANGLE complete whenever the checks pass, and write LP_STATE
but not HP_STATE; SQUARE_DARK and SQUARE_TRIANGLE leave in LP_STATE the last sample they emit (40_render.md R100 to R103,
42_shapes.md R165 to R167, 10_state.md R26). -/
def Obligations.RenderFilteredSquaresComplete : Prop :=
  ∀ (tz fm : Bool) (size : Nat) (s : State), renderAccepted fm size s →
    (∃ t, exec (.renderSquareBright tz fm size) s = .next t ∧ renderFrame size s t ∧ t.osc.hpState = s.osc.hpState) ∧
    (∃ t, exec (.renderSquareDark tz fm size) s = .next t ∧ renderFrame size s t ∧ t.osc.hpState = s.osc.hpState ∧
      t.mem.readWord (0x2000 + 4 * (size - 1)) = some t.osc.lpState) ∧
    (∃ t, exec (.renderSquareTriangle tz fm size) s = .next t ∧ renderFrame size s t ∧ t.osc.hpState = s.osc.hpState ∧
      t.mem.readWord (0x2000 + 4 * (size - 1)) = some t.osc.lpState)

/-- The result of an accepted RENDER of any shape, sample by sample: the interpolator (40_render.md R108 to R110), the control
values (R112), the phase advance (41_phase_and_corrections.md R131), the shape's step, OUT_BUF[n] and the carried `next`
(42_shapes.md R171), and what persists (R111). -/
def Obligations.RenderRunsOneStepForEachSample : Prop :=
  ∀ (shape : Shape) (tz fm : Bool) (size : Nat) (s : State), renderAccepted fm size s →
    ∃ (t : State) (vs : Nat → Voice) (rs : Nat → Ramp), exec (renderOf shape tz fm size) s = .next t ∧
      rs 0 = { fi := if s.osc.seeded then s.osc.smoothFreq else targetF tz fm s
               pwi := if s.osc.seeded then s.osc.smoothPw else targetP tz fm s } ∧
      (vs 0).phase = s.osc.phase ∧ (vs 0).edgeState = s.osc.edgeState ∧ (vs 0).lpState = s.osc.lpState ∧
      (vs 0).hpState = s.osc.hpState ∧ (vs 0).nextAcc = s.osc.pending ∧
      (∀ n, n < size →
        rs (n + 1) = { fi := F32.add (rs n).fi (F32.div (F32.sub (targetF tz fm s) (rs 0).fi) (F32.ofNat size))
                       pwi := F32.add (rs n).pwi (F32.div (F32.sub (targetP tz fm s) (rs 0).pwi) (F32.ofNat size)) } ∧
        let f := match fmValue fm n s with
          | none => clampF (rs (n + 1)).fi tz
          | some e => clampF (F32.mul (rs (n + 1)).fi (F32.add 0x3F800000#32 e)) tz
        let pw := clampPw (if shape = .triangle ∨ shape = .squareTriangle then 0x3F000000#32 else (rs (n + 1)).pwi) f
        ∃ y, stepShape shape s.params.kernelId tz f pw
              { vs n with phase := F32.add (vs n).phase f, thisAcc := (vs n).nextAcc, nextAcc := 0#32 } = (vs (n + 1), y) ∧
          t.mem.readWord (0x2000 + 4 * n) = some y) ∧
      t.osc = { phase := (vs size).phase, pending := (vs size).nextAcc, lpState := (vs size).lpState,
                hpState := (vs size).hpState, edgeState := (vs size).edgeState, smoothFreq := (rs size).fi,
                smoothPw := (rs size).pwi, seeded := true } ∧
      renderFrame size s t

/-- RENDER reads FM_BUF[n] only for n < size and only with FM = 1, and writes OUT_BUF[n] for every n < size and nothing else of
the buffers (20_memory.md R56). -/
def Obligations.RenderTouchesOnlyItsOwnBufferWords : Prop :=
  ∀ (shape : Shape) (tz fm : Bool) (size : Nat) (s t : State) (m : Memory),
    exec (renderOf shape tz fm size) s = .next t →
    sameBytesOutside 0x2000 (0x2000 + 4 * size) s t ∧
    (renderAccepted fm size s → ∀ n, n < size → (t.mem.readWord (0x2000 + 4 * n)).isSome = true) ∧
    ((fm = true → ∀ k, k < size → Memory.readWord m (0x1000 + 4 * k) = s.mem.readWord (0x1000 + 4 * k)) →
      ∃ t', exec (renderOf shape tz fm size) { s with mem := m } = .next t' ∧ t'.osc = t.osc ∧ sameStatus t t' ∧
        (renderAccepted fm size s → ∀ n, n < size → t'.mem.readWord (0x2000 + 4 * n) = t.mem.readWord (0x2000 + 4 * n)))

/-- The first block after INIT or reset does not ramp: with SEEDED = 0 both increments are +0.0 and the baseline keeps the
values of its targets, unclamped with FM = 1 (40_render.md R108). -/
def Obligations.FirstBlockDoesNotRamp : Prop :=
  ∀ (shape : Shape) (tz fm : Bool) (size : Nat) (s : State), renderAccepted fm size s → s.osc.seeded = false →
    increment (targetF tz fm s) (targetF tz fm s) size = 0#32 ∧
    increment (targetP tz fm s) (targetP tz fm s) size = 0#32 ∧
    ∃ t, exec (renderOf shape tz fm size) s = .next t ∧ t.osc.seeded = true ∧
      F32.isFinite t.osc.smoothFreq = true ∧ F32.value t.osc.smoothFreq = F32.value (targetF tz fm s) ∧
      F32.isFinite t.osc.smoothPw = true ∧ F32.value t.osc.smoothPw = F32.value (targetP tz fm s)

/-- After INIT or reset the first sample of an accepted SAW block is -1.0 in every mode, and so is that of a TRIANGLE, a SLOPE and
a SQUARE block with TZ = 0 and the default kernel: PENDING = +0.0 is emitted (70_reset_and_hazards.md R240; with TZ = 1 a first
step in reverse can correct that sample, 42_shapes.md R164). -/
def Obligations.FirstSampleAfterInitIsMinusOne : Prop :=
  ∀ (tz fm : Bool) (size : Nat) (s a : State), renderAccepted fm size a →
    exec .init s = .next a ∨ a.osc = State.reset.osc →
    (∃ t, exec (.renderSaw tz fm size) a = .next t ∧ t.mem.readWord 0x2000 = some 0xBF800000#32) ∧
    (a.params.kernelId = 0#8 →
      (∃ t, exec (.renderTriangle false fm size) a = .next t ∧ t.mem.readWord 0x2000 = some 0xBF800000#32) ∧
      (∃ t, exec (.renderSlope false fm size) a = .next t ∧ t.mem.readWord 0x2000 = some 0xBF800000#32) ∧
      (∃ t, exec (.renderSquare false fm size) a = .next t ∧ t.mem.readWord 0x2000 = some 0xBF800000#32))

/-- Without through-zero FM an accepted RENDER of any shape leaves PHASE in [0, 1): the value 1.0 needs a reverse wrap
(10_state.md R23, 41_phase_and_corrections.md R132, R135). The premise PhaseInv is an invariant of every step, with the bound of
log entry 19. -/
def Obligations.BlocksWithoutThroughZeroEndBelowOne : Prop :=
  ∀ (shape : Shape) (fm : Bool) (size : Nat) (s : State), PhaseInv s → renderAccepted fm size s →
    ∃ t, exec (renderOf shape false fm size) s = .next t ∧ phaseOk t.osc.phase ∧ F32.lt t.osc.phase 0x3F800000#32 = true

/-- IMPULSE, SAW, TRIANGLE and SQUARE_TRIANGLE ignore the pulse width, with and without external FM: another TARGET_PW that the
checks accept and another baseline SMOOTH_PW give the same samples and the same oscillator state but for SMOOTH_PW (42_shapes.md
R160 to R162, R167; 40_render.md R112). -/
def Obligations.FourShapesIgnoreThePulseWidth : Prop :=
  ∀ (shape : Shape) (tz fm : Bool) (size : Nat) (s : State) (p q : Word),
    shape = .impulse ∨ shape = .saw ∨ shape = .triangle ∨ shape = .squareTriangle →
    renderAccepted fm size s → renderAccepted fm size { s with targetPw := p } →
    ∃ t t', exec (renderOf shape tz fm size) s = .next t ∧
      exec (renderOf shape tz fm size) { s with targetPw := p, osc := { s.osc with smoothPw := q } } = .next t' ∧
      t'.mem = t.mem ∧ t'.osc = { t.osc with smoothPw := t'.osc.smoothPw }

/-- IMPULSE and SAW neither read nor write EDGE_STATE (10_state.md R27). -/
def Obligations.SawFamilyNeitherReadsNorWritesEdgeState : Prop :=
  ∀ (shape : Shape) (tz fm : Bool) (size : Nat) (s t : State) (side : Side), shape = .impulse ∨ shape = .saw →
    exec (renderOf shape tz fm size) s = .next t →
    t.osc.edgeState = s.osc.edgeState ∧
    exec (renderOf shape tz fm size) { s with osc := { s.osc with edgeState := side } } =
      .next { t with osc := { t.osc with edgeState := side } }

/-- INIT forgets the past: two machines with the same parameters, targets and FM_BUF words take the same oscillator state and
the same samples from INIT and one RENDER, whatever their oscillators held before (43_control.md R191). -/
def Obligations.InitThenRenderForgetsThePast : Prop :=
  ∀ (shape : Shape) (tz fm : Bool) (size : Nat) (s s' a a' t : State), s'.params = s.params →
    s'.targetFreq = s.targetFreq → s'.targetPw = s.targetPw →
    (∀ k, k < size → s'.mem.readWord (0x1000 + 4 * k) = s.mem.readWord (0x1000 + 4 * k)) →
    exec .init s = .next a → exec .init s' = .next a' → exec (renderOf shape tz fm size) a = .next t →
    ∃ t', exec (renderOf shape tz fm size) a' = .next t' ∧ t'.osc = t.osc ∧
      (renderAccepted fm size s → ∀ n, n < size → t'.mem.readWord (0x2000 + 4 * n) = t.mem.readWord (0x2000 + 4 * n))

/-! ## All commands -/

/-- Which command writes what (43_control.md R194): no command writes the targets, KERNEL_T or FM_BUF; only RENDER writes
OUT_BUF, only KEVAL the kernel results, only INIT and RENDER the oscillator, only a reject STATUS; and a target, KERNEL_T or a
byte of FM_BUF changes in a step only by the host's write to it or by a reset. -/
def Obligations.EachCommandWritesOnlyItsOwnState : Prop :=
  (∀ (i : Instr) (s t : State), exec i s = .next t →
    sameSettings s t ∧ (∀ a, a < 0x2000 → t.mem.byteAt a = s.mem.byteAt a) ∧
    (i ≠ .keval → sameKernelResults s t) ∧
    (i = .nop ∨ i = .init ∨ i = .keval → t.mem = s.mem ∧ sameStatus s t) ∧
    (i = .nop ∨ i = .keval → t.osc = s.osc) ∧
    (sameStatus s t ∨ ∃ c, t = rejectedWith (errCodeOf c) s)) ∧
  (∀ s t : State, step s = .next t →
    (t.targetFreq = s.targetFreq ∨ (∃ w rest, s.host = .write (s.params.base + 0x010) 32 w :: rest ∧ t.targetFreq = w) ∨
      ∃ rest, s.host = .reset :: rest) ∧
    (t.targetPw = s.targetPw ∨ (∃ w rest, s.host = .write (s.params.base + 0x014) 32 w :: rest ∧ t.targetPw = w) ∨
      ∃ rest, s.host = .reset :: rest) ∧
    (t.kernelT = s.kernelT ∨ (∃ w rest, s.host = .write (s.params.base + 0x018) 32 w :: rest ∧ t.kernelT = w) ∨
      ∃ rest, s.host = .reset :: rest) ∧
    (∀ a, 0x1000 ≤ a → a < 0x2000 → t.mem.byteAt a = s.mem.byteAt a ∨
      (∃ off w rest, s.host = .write (s.params.base + off) 32 w :: rest ∧ off ≤ a ∧ a < off + 4) ∨
      ∃ rest, s.host = .reset :: rest))

/-- No command reads ERR or ERRCODE: with another STATUS every command takes the same outcome and changes everything else
alike (60_exceptions.md R212). -/
def Obligations.NoCommandReadsTheErrorFlag : Prop :=
  ∀ (i : Instr) (s : State) (e : Bool) (c : BitVec 4),
    (∀ t, exec i s = .next t →
      (sameStatus s t ∧ exec i { s with err := e, errCode := c } = .next { t with err := e, errCode := c }) ∨
        exec i { s with err := e, errCode := c } = .next t) ∧
    (∀ x, exec i s = .fault x → exec i { s with err := e, errCode := c } = .fault x)

/-! ## The bus -/

/-- What a read of each register's offset answers, and that a read of a written word of FM_BUF or OUT_BUF answers that word
(20_memory.md R54, 10_state.md R40 to R49). -/
def Obligations.RegisterReadsFollowTheMap : Prop :=
  (∀ (s : State) (rest : List BusRequest) (entry : Nat × Word),
    entry ∈ [(0x000, 0x4F534301#32),
      (0x004, (s.params.kernelId.setWidth 32 <<< 16) ||| (BitVec.ofNat 16 s.params.maxBlockSize).setWidth 32),
      (0x008, 0x00000000#32), (0x00C, (s.errCode.setWidth 32 <<< 4) ||| (if s.err then 1#32 else 0#32)),
      (0x010, s.targetFreq), (0x014, s.targetPw), (0x018, s.kernelT), (0x01C, s.kernelBThis), (0x020, s.kernelBNext),
      (0x024, s.kernelIThis), (0x028, s.kernelINext), (0x040, s.osc.phase), (0x044, s.osc.pending),
      (0x048, s.osc.lpState), (0x04C, s.osc.hpState), (0x050, if s.osc.edgeState = .high then 1#32 else 0#32),
      (0x054, s.osc.smoothFreq), (0x058, s.osc.smoothPw), (0x05C, if s.osc.seeded then 1#32 else 0#32)] →
    s.host = .read (s.params.base + entry.1) 32 :: rest →
    step s = .next { s with host := rest, response := some (.readData entry.2) }) ∧
  ∀ (s : State) (rest : List BusRequest) (n : Nat) (v : Word), s.params.wellFormed = true → n < s.params.maxBlockSize →
    (s.host = .read (s.params.base + (0x1000 + 4 * n)) 32 :: rest → s.mem.readWord (0x1000 + 4 * n) = some v →
      step s = .next { s with host := rest, response := some (.readData v) }) ∧
    (s.host = .read (s.params.base + (0x2000 + 4 * n)) 32 :: rest → s.mem.readWord (0x2000 + 4 * n) = some v →
      step s = .next { s with host := rest, response := some (.readData v) })

/-- A read has no side effect at any address and any width: only the queue and the answer change (20_memory.md R54). -/
def Obligations.ReadsHaveNoSideEffect : Prop :=
  ∀ (s t : State) (addr width : Nat) (rest : List BusRequest), s.host = .read addr width :: rest → step s = .next t →
    t = { s with host := rest, response := t.response }

/-- A bus error is raised in exactly the four cases of 60_exceptions.md R213, changes nothing, and a read answers 0 with it. -/
def Obligations.BusErrorsAreExactlyTheFourCauses : Prop :=
  ∀ (s : State) (off width : Nat) (rest : List BusRequest), s.params.wellFormed = true → off < 0x4000 →
    (s.host = .read (s.params.base + off) width :: rest →
      (badAccess s.params off width → step s = .next { s with host := rest, response := some (.readError 0#32) }) ∧
      (¬ badAccess s.params off width → ∀ t, step s = .next t → ∀ v, t.response ≠ some (.readError v))) ∧
    (∀ w, s.host = .write (s.params.base + off) width w :: rest →
      (badWrite s.params off width → step s = .next { s with host := rest, response := some .writeError }) ∧
      (¬ badWrite s.params off width → ∀ t, step s = .next t → t.response = some .writeDone))

/-- A write to STATUS clears ERR and ERRCODE exactly when its bit 0 is 1, never gets a bus error and changes nothing else; and
only a reject, a STATUS write and a reset change STATUS (10_state.md R43). -/
def Obligations.StatusChangesByRejectWriteAndResetOnly : Prop :=
  (∀ (s : State) (w : Word) (rest : List BusRequest), s.host = .write (s.params.base + 0x00C) 32 w :: rest →
    (w.toNat % 2 = 1 →
      step s = .next { s with host := rest, response := some .writeDone, err := false, errCode := 0#4 }) ∧
    (w.toNat % 2 = 0 → step s = .next { s with host := rest, response := some .writeDone })) ∧
  (∀ s t : State, step s = .next t → ¬ sameStatus s t →
    (∃ rest, s.host = .reset :: rest) ∨
    (∃ w rest, s.host = .write (s.params.base + 0x00C) 32 w :: rest ∧ t.err = false ∧ t.errCode = 0#4) ∨
    ∃ w rest c, s.host = .write (s.params.base + 0x008) 32 w :: rest ∧
      t = rejectedWith (errCodeOf c) { s with host := rest, response := some .writeDone })

/-- A word written to TARGET_FREQ, TARGET_PW, KERNEL_T or FM_BUF[n] is read back bit for bit by the next transaction, and the
write leaves every other register, every other byte of the buffers and the parameters alone (00_scope.md R7, 20_memory.md R54,
R58). -/
def Obligations.WrittenWordsAreReadBackUnchanged : Prop :=
  ∀ (s : State) (off : Nat) (w : Word) (rest : List BusRequest), s.params.wellFormed = true →
    off = 0x010 ∨ off = 0x014 ∨ off = 0x018 ∨ (∃ n, n < s.params.maxBlockSize ∧ off = 0x1000 + 4 * n) →
    s.host = .write (s.params.base + off) 32 w :: .read (s.params.base + off) 32 :: rest →
    ∃ t u, step s = .next t ∧ t.response = some .writeDone ∧ t.params = s.params ∧
      t.host = .read (s.params.base + off) 32 :: rest ∧ t.osc = s.osc ∧ sameKernelResults s t ∧ sameStatus s t ∧
      (∀ a, a < off ∨ off + 4 ≤ a → t.mem.byteAt a = s.mem.byteAt a) ∧
      (off < 0x1000 → t.mem = s.mem) ∧ (off ≠ 0x010 → t.targetFreq = s.targetFreq) ∧
      (off ≠ 0x014 → t.targetPw = s.targetPw) ∧ (off ≠ 0x018 → t.kernelT = s.kernelT) ∧
      step t = .next u ∧ u.response = some (.readData w)

/-! ## Clamps and the sample step -/

/-- CONSTRAIN (00_scope.md R10), CLAMP_F (40_render.md R105) and CLAMP_PW with its bounds (R106), case by case: below the lower
bound, above the upper one, and neither, where the operand passes unchanged, a NaN included. -/
def Obligations.ClampsFollowTheirRules : Prop :=
  (∀ x lo hi : Word,
    (F32.lt x lo = true → constrain x lo hi = lo) ∧
    (F32.lt x lo = false → F32.lt hi x = true → constrain x lo hi = hi) ∧
    (F32.lt x lo = false → F32.lt hi x = false → constrain x lo hi = x)) ∧
  (∀ x : Word,
    (F32.lt x 0x358637BD#32 = true → clampF x false = 0x358637BD#32) ∧
    (F32.lt x 0xBE800000#32 = true → clampF x true = 0xBE800000#32) ∧
    (F32.lt 0x3E800000#32 x = true → clampF x false = 0x3E800000#32 ∧ clampF x true = 0x3E800000#32) ∧
    (F32.lt 0x3E800000#32 x = false →
      (F32.lt x 0x358637BD#32 = false → clampF x false = x) ∧ (F32.lt x 0xBE800000#32 = false → clampF x true = x))) ∧
  (∀ p f : Word,
    let a := F32.mul 0x40000000#32 (F32.abs f)
    let b := F32.sub 0x3F800000#32 a
    let lo := if F32.lt a 0x360637BD#32 then 0x360637BD#32 else a
    let hi := if F32.lt 0x3F7FFFDE#32 b then 0x3F7FFFDE#32 else b
    pwLow f = lo ∧ pwHigh f = hi ∧
    (F32.lt p lo = true → clampPw p f = lo) ∧
    (F32.lt p lo = false → F32.lt hi p = true → clampPw p f = hi) ∧
    (F32.lt p lo = false → F32.lt hi p = false → clampPw p f = p))

/-- What 40_render.md R106 says of its bounds: from K_MIN up the floor does not bind, and CLAMP_PW is the clamp to [2·abs(f),
1 - 2·abs(f)]; and wherever abs(f) <= 0.25, 0.5 lies between the bounds and passes unchanged. -/
def Obligations.PulseWidthFloorBindsOnlyBelowMinimumFrequency : Prop :=
  ∀ p f : Word,
    let a := F32.mul 0x40000000#32 (F32.abs f)
    (F32.le 0x358637BD#32 (F32.abs f) = true →
      pwLow f = a ∧ pwHigh f = F32.sub 0x3F800000#32 a ∧ clampPw p f = constrain p a (F32.sub 0x3F800000#32 a)) ∧
    (F32.le (F32.abs f) 0x3E800000#32 = true →
      F32.le (pwLow f) 0x3F000000#32 = true ∧ F32.le 0x3F000000#32 (pwHigh f) = true ∧
        clampPw 0x3F000000#32 f = 0x3F000000#32)

/-- SAT01 (00_scope.md R11): a NaN and a negative operand give +0.0, one above 1 gives 1.0, and one in [0, 1], -0.0 included, is
returned unchanged. -/
def Obligations.SubSampleFractionIsSaturated : Prop :=
  ∀ x : Word,
    (F32.isNaN x = true ∨ F32.lt x 0#32 = true → sat01 x = 0x00000000#32) ∧
    (F32.lt 0x3F800000#32 x = true → sat01 x = 0x3F800000#32) ∧
    (F32.le 0#32 x = true → F32.le x 0x3F800000#32 = true → sat01 x = x)

/-- The fraction of a discontinuity at f = 0: the quotient is a NaN or an infinity and SAT01 brings it to +0.0 or 1.0
(41_phase_and_corrections.md R136, 00_scope.md R11; the quotients themselves are those of IEEE 754, log entry 22). -/
def Obligations.FractionAtZeroFrequencyIsSaturated : Prop :=
  ∀ x f : Word, F32.isFinite x = true → F32.isFinite f = true → F32.value f = 0 →
    sat01 (F32.div x f) =
      if F32.value x ≠ 0 ∧ F32.sign x = F32.sign f then 0x3F800000#32 else 0x00000000#32

/-- WRAP_SAW (41_phase_and_corrections.md R132), with BLEP written out (R137): forward, reverse only with TZ = 1, or none, and
EDGE_STATE not touched. -/
def Obligations.SawWrapFollowsItsRule : Prop :=
  ∀ (kid : BitVec 8) (tz : Bool) (f : Word) (v : Voice),
    (F32.le 0x3F800000#32 v.phase = true →
      let q := F32.sub v.phase 0x3F800000#32
      let x := sat01 (F32.div q f)
      wrapSaw kid tz f v = { v with
        phase := q
        thisAcc := F32.sub v.thisAcc (kernel kid .bThis x)
        nextAcc := F32.sub v.nextAcc (kernel kid .bNext x) }) ∧
    (F32.le 0x3F800000#32 v.phase = false → tz = true → F32.lt v.phase 0#32 = true →
      let x := sat01 (F32.div v.phase f)
      wrapSaw kid tz f v = { v with
        phase := F32.add v.phase 0x3F800000#32
        thisAcc := F32.add v.thisAcc (kernel kid .bThis x)
        nextAcc := F32.add v.nextAcc (kernel kid .bNext x) }) ∧
    (F32.le 0x3F800000#32 v.phase = false → tz = false ∨ F32.lt v.phase 0#32 = false → wrapSaw kid tz f v = v)

/-- EDGE (41_phase_and_corrections.md R133): it fires exactly when the side of the threshold changes, by IBLEP(-1, m, t) for
the slope family, by BLEP(+1, t) into HIGH and BLEP(-1, t) into LOW for the square family, and sets EDGE_STATE to the side. -/
def Obligations.PulseWidthEdgeFollowsItsRule : Prop :=
  ∀ (kid : BitVec 8) (f pw m : Word) (v : Voice),
    let side : Side := if F32.le pw v.phase then .high else .low
    let x := sat01 (F32.div (F32.sub v.phase pw) f)
    (side = v.edgeState → edge kid .square f pw v = v ∧ edge kid (.slope m) f pw v = v) ∧
    (side ≠ v.edgeState →
      edge kid (.slope m) f pw v = { v with
        thisAcc := F32.sub v.thisAcc (F32.mul m (kernel kid .iThis x))
        nextAcc := F32.sub v.nextAcc (F32.mul m (kernel kid .iNext x))
        edgeState := side }) ∧
    (side ≠ v.edgeState → side = .high →
      edge kid .square f pw v = { v with
        thisAcc := F32.add v.thisAcc (kernel kid .bThis x)
        nextAcc := F32.add v.nextAcc (kernel kid .bNext x)
        edgeState := .high }) ∧
    (side ≠ v.edgeState → side = .low →
      edge kid .square f pw v = { v with
        thisAcc := F32.sub v.thisAcc (kernel kid .bThis x)
        nextAcc := F32.sub v.nextAcc (kernel kid .bNext x)
        edgeState := .low })

/-- The wraps of the pulse-width shapes (41_phase_and_corrections.md R134, R135): a forward wrap first, a reverse wrap only with
TZ = 1 and no forward one. -/
def Obligations.PulseShapeWrapFollowsItsRule : Prop :=
  ∀ (kid : BitVec 8) (tz : Bool) (f m : Word) (v : Voice),
    (F32.le 0x3F800000#32 v.phase = true →
      let q := F32.sub v.phase 0x3F800000#32
      let x := sat01 (F32.div q f)
      wrapPulse kid (.slope m) tz f v = { v with
        phase := q
        thisAcc := F32.add v.thisAcc (F32.mul m (kernel kid .iThis x))
        nextAcc := F32.add v.nextAcc (F32.mul m (kernel kid .iNext x))
        edgeState := .low } ∧
      wrapPulse kid .square tz f v = { v with
        phase := q
        thisAcc := F32.sub v.thisAcc (kernel kid .bThis x)
        nextAcc := F32.sub v.nextAcc (kernel kid .bNext x)
        edgeState := .low }) ∧
    (F32.le 0x3F800000#32 v.phase = false → tz = true → F32.lt v.phase 0#32 = true →
      let x := sat01 (F32.div v.phase f)
      wrapPulse kid (.slope m) tz f v = { v with
        phase := F32.add v.phase 0x3F800000#32
        thisAcc := F32.add v.thisAcc (F32.mul m (kernel kid .iThis x))
        nextAcc := F32.add v.nextAcc (F32.mul m (kernel kid .iNext x))
        edgeState := .high } ∧
      wrapPulse kid .square tz f v = { v with
        phase := F32.add v.phase 0x3F800000#32
        thisAcc := F32.add v.thisAcc (kernel kid .bThis x)
        nextAcc := F32.add v.nextAcc (kernel kid .bNext x)
        edgeState := .high }) ∧
    (F32.le 0x3F800000#32 v.phase = false → tz = false ∨ F32.lt v.phase 0#32 = false →
      wrapPulse kid (.slope m) tz f v = v ∧ wrapPulse kid .square tz f v = v)

/-- STEP[IMPULSE] and STEP[SAW] after the wrap (42_shapes.md R160, R161, R170; ONE_POLE of 00_scope.md R12 with K_IMP = 1). -/
def Obligations.SawFamilyStepsFollowTheirRules : Prop :=
  ∀ (kid : BitVec 8) (tz : Bool) (f pw : Word) (v : Voice),
    let w := wrapSaw kid tz f v
    let y1 := F32.add (F32.sub w.hpState w.thisAcc) f
    let lp := F32.add w.lpState (F32.mul 0x3F800000#32 (F32.sub y1 w.lpState))
    stepShape .impulse kid tz f pw v =
      ({ w with nextAcc := F32.add w.nextAcc w.phase, hpState := w.thisAcc, lpState := lp }, lp) ∧
    stepShape .saw kid tz f pw v =
      ({ w with nextAcc := F32.add w.nextAcc w.phase }, F32.sub (F32.mul 0x40000000#32 w.thisAcc) 0x3F800000#32)

/-- STEP[TRIANGLE] and STEP[SLOPE] (42_shapes.md R162, R163, R168; the rates and m of 41_phase_and_corrections.md R139). -/
def Obligations.SlopeFamilyStepsFollowTheirRules : Prop :=
  ∀ (kid : BitVec 8) (tz : Bool) (f pw : Word) (v : Voice) (shape : Shape), shape = .triangle ∨ shape = .slope →
    let up := F32.div 0x3F800000#32 pw
    let dn := F32.div 0x3F800000#32 (F32.sub 0x3F800000#32 pw)
    let m := F32.mul (F32.add up dn) (F32.abs f)
    let w := wrapPulse kid (.slope m) tz f (edge kid (.slope m) f pw v)
    let x := if w.edgeState = .low then F32.mul w.phase up
      else F32.sub 0x3F800000#32 (F32.mul (F32.sub w.phase pw) dn)
    stepShape shape kid tz f pw v =
      ({ w with nextAcc := F32.add w.nextAcc x }, F32.sub (F32.mul 0x40000000#32 w.thisAcc) 0x3F800000#32)

/-- STEP[SQUARE], STEP[SQUARE_BRIGHT], STEP[SQUARE_DARK] and STEP[SQUARE_TRIANGLE] (42_shapes.md R164 to R167, R169; the gains
and tunings of 00_scope.md R4; ONE_POLE of R12). -/
def Obligations.SquareFamilyStepsFollowTheirRules : Prop :=
  ∀ (kid : BitVec 8) (tz : Bool) (f pw : Word) (v : Voice),
    let w := wrapPulse kid .square tz f (edge kid .square f pw v)
    let n := F32.add w.nextAcc (if w.edgeState = .high then 0x3F800000#32 else 0#32)
    let s := w.thisAcc
    let pole := fun x c => F32.add w.lpState (F32.mul c (F32.sub x w.lpState))
    let c2 := F32.mul 0x40000000#32 (F32.abs f)
    let xb := F32.sub (F32.mul 0x40000000#32 s) 0x3F800000#32
    let dark := pole (F32.mul 0x40800000#32 (F32.sub s 0x3F000000#32)) c2
    let blend := pole (F32.mul 0x43000000#32 (F32.sub s 0x3F000000#32)) (F32.mul (F32.abs f) 0x3D800000#32)
    stepShape .square kid tz f pw v = ({ w with nextAcc := n }, xb) ∧
    stepShape .squareBright kid tz f pw v =
      ({ w with nextAcc := n, lpState := pole xb c2 }, F32.mul 0x3F000000#32 (F32.sub xb (pole xb c2))) ∧
    stepShape .squareDark kid tz f pw v = ({ w with nextAcc := n, lpState := dark }, dark) ∧
    stepShape .squareTriangle kid tz f pw v = ({ w with nextAcc := n, lpState := blend }, blend)

/-- The bounds of CONTROL (40_render.md R105 to R107): from finite interpolator outputs and a finite FM value, f lies in the
range of its mode, pw between the bounds of CLAMP_PW and strictly between 0 and 1; and 0.5 is always within those bounds. -/
def Obligations.ControlValuesAreBounded : Prop :=
  ∀ (shape : Shape) (tz : Bool) (e : Option Word) (fi pwi : Word), F32.isFinite fi = true → F32.isNaN pwi = false →
    (∀ x, e = some x → F32.isFinite x = true) →
    let f := controlF tz e fi
    let pw := controlPw shape f pwi
    (tz = false → F32.le 0x358637BD#32 f = true) ∧ (tz = true → F32.le 0xBE800000#32 f = true) ∧
      F32.le f 0x3E800000#32 = true ∧
    F32.le (pwLow f) pw = true ∧ F32.le pw (pwHigh f) = true ∧ F32.lt 0#32 pw = true ∧ F32.lt pw 0x3F800000#32 = true ∧
    F32.le (pwLow f) 0x3F000000#32 = true ∧ F32.le 0x3F000000#32 (pwHigh f) = true

/-- Every sample of every accepted RENDER has its control values within the bounds of 40_render.md R107: the interpolator of R108 to
R110 stays finite, and CONTROL (R112) brings its outputs into the ranges. The premise PhaseInv is an invariant of every step, with
the bound of log entry 19 on both baselines. -/
def Obligations.EverySampleIsWithinTheControlBounds : Prop :=
  ∀ (shape : Shape) (tz fm : Bool) (size : Nat) (s : State) (rs : Nat → Ramp), PhaseInv s → renderAccepted fm size s →
    rs 0 = { fi := if s.osc.seeded then s.osc.smoothFreq else targetF tz fm s
             pwi := if s.osc.seeded then s.osc.smoothPw else targetP tz fm s } →
    (∀ n, n < size →
      rs (n + 1) = { fi := F32.add (rs n).fi (F32.div (F32.sub (targetF tz fm s) (rs 0).fi) (F32.ofNat size))
                     pwi := F32.add (rs n).pwi (F32.div (F32.sub (targetP tz fm s) (rs 0).pwi) (F32.ofNat size)) }) →
    ∀ n, n < size →
      let f := match fmValue fm n s with
        | none => clampF (rs (n + 1)).fi tz
        | some e => clampF (F32.mul (rs (n + 1)).fi (F32.add 0x3F800000#32 e)) tz
      let pw := clampPw (if shape = .triangle ∨ shape = .squareTriangle then 0x3F000000#32 else (rs (n + 1)).pwi) f
      F32.isFinite (rs (n + 1)).fi = true ∧ F32.isFinite (rs (n + 1)).pwi = true ∧
      (tz = false → F32.le 0x358637BD#32 f = true) ∧ (tz = true → F32.le 0xBE800000#32 f = true) ∧
      F32.le f 0x3E800000#32 = true ∧
      F32.le (pwLow f) pw = true ∧ F32.le pw (pwHigh f) = true ∧ F32.lt 0#32 pw = true ∧ F32.lt pw 0x3F800000#32 = true

/-- After the edge and the wraps of a step, EDGE_STATE is HIGH exactly when PHASE >= pw, the naive square is 1 there and 0
below, and PHASE is back in [0, 1], under the clamps of 40_render.md R107 (42_shapes.md R169, 41_phase_and_corrections.md R146). -/
def Obligations.EdgeStateTracksTheThreshold : Prop :=
  ∀ (kid : BitVec 8) (fam : Family) (tz : Bool) (f pw : Word) (v : Voice), phaseOk v.phase →
    F32.le (if tz then 0xBE800000#32 else 0x358637BD#32) f = true → F32.le f 0x3E800000#32 = true →
    F32.le (pwLow f) pw = true → F32.le pw (pwHigh f) = true →
    let w := wrapPulse kid fam tz f (edge kid fam f pw (advance f v))
    (w.edgeState = .high ↔ F32.le pw w.phase = true) ∧
    squareNaive w = (if F32.le pw w.phase then 0x3F800000#32 else 0#32) ∧ phaseOk w.phase

/-! ## Binary32 arithmetic -/

/-- The value of a finite word, in units of 2^-149, from its sign in bit 31, its biased exponent in bits 30:23 and its fraction in
bits 22:0 (00_scope.md R7). -/
def Obligations.FiniteWordsStandForTheirValues : Prop :=
  ∀ a : Word, F32.isFinite a = true →
    F32.value a = (if a.toNat / 2 ^ 31 = 1 then -1 else 1) *
      (if a.toNat / 2 ^ 23 % 2 ^ 8 = 0 then ((a.toNat % 2 ^ 23 : Nat) : Int)
        else ((2 ^ 23 + a.toNat % 2 ^ 23 : Nat) : Int) * 2 ^ (a.toNat / 2 ^ 23 % 2 ^ 8 - 1))

/-- `+` and `-` of finite operands are the binary32 operations with roundTiesToEven, subnormals kept (00_scope.md R6). -/
def Obligations.SumsAreCorrectlyRounded : Prop :=
  ∀ a b : Word, F32.isFinite a = true → F32.isFinite b = true →
    correctlyRounded (F32.value a + F32.value b) 1 (F32.add a b) ∧
    correctlyRounded (F32.value a - F32.value b) 1 (F32.sub a b)

/-- `*` of finite operands and `/` of finite operands with a divisor that is not zero are the binary32 operations with
roundTiesToEven, subnormals kept (00_scope.md R6). Values are in units of 2^-149. -/
def Obligations.ProductsAndQuotientsAreCorrectlyRounded : Prop :=
  ∀ a b : Word, F32.isFinite a = true → F32.isFinite b = true →
    correctlyRounded (F32.value a * F32.value b) (2 ^ 149) (F32.mul a b) ∧
    (F32.value b ≠ 0 →
      correctlyRounded (F32.value a * 2 ^ 149 * (if F32.sign b then -1 else 1)) (F32.units b) (F32.div a b))

/-- Sums and differences with a NaN or an infinity, and the sign of every finite one: an exact zero is +0.0 unless both addends
are negative zeros (00_scope.md R6; what IEEE 754 gives there is log entry 22, PRESUMED). -/
def Obligations.SumsOfNaNsInfinitiesAndZeros : Prop :=
  ∀ a b : Word,
    (F32.isNaN a = true ∨ F32.isNaN b = true → F32.isNaN (F32.add a b) = true ∧ F32.isNaN (F32.sub a b) = true) ∧
    (F32.isInf a = true → F32.isFinite b = true →
      F32.add a b = a ∧ F32.add b a = a ∧ F32.sub a b = a ∧ F32.sub b a = F32.neg a) ∧
    (F32.isInf a = true → F32.isInf b = true →
      (F32.sign a = F32.sign b → F32.add a b = a ∧ F32.isNaN (F32.sub a b) = true) ∧
      (F32.sign a ≠ F32.sign b → F32.isNaN (F32.add a b) = true ∧ F32.sub a b = a)) ∧
    (F32.isFinite a = true → F32.isFinite b = true →
      (F32.value a + F32.value b = 0 →
        F32.add a b = if F32.sign a = true ∧ F32.sign b = true then 0x80000000#32 else 0x00000000#32) ∧
      (F32.value a - F32.value b = 0 →
        F32.sub a b = if F32.sign a = true ∧ F32.sign b = false then 0x80000000#32 else 0x00000000#32) ∧
      (F32.value a + F32.value b ≠ 0 → (F32.sign (F32.add a b) = true ↔ F32.value a + F32.value b < 0)) ∧
      (F32.value a - F32.value b ≠ 0 → (F32.sign (F32.sub a b) = true ↔ F32.value a < F32.value b)))

/-- Products and quotients with a NaN, an infinity or a zero divisor, and the sign of every finite one, zeros included
(00_scope.md R6; what IEEE 754 gives there is log entry 22, PRESUMED). -/
def Obligations.ProductsAndQuotientsOfNaNsInfinitiesAndZeros : Prop :=
  ∀ a b : Word,
    let opposite := F32.sign a ≠ F32.sign b
    let infinity : Word := if opposite then 0xFF800000#32 else 0x7F800000#32
    let zero : Word := if opposite then 0x80000000#32 else 0x00000000#32
    (F32.isNaN a = true ∨ F32.isNaN b = true → F32.isNaN (F32.mul a b) = true ∧ F32.isNaN (F32.div a b) = true) ∧
    (F32.isFinite a = true → F32.isFinite b = true →
      (F32.sign (F32.mul a b) = true ↔ opposite) ∧
      (F32.value a = 0 ∨ F32.value b = 0 → F32.mul a b = zero) ∧
      (F32.value b ≠ 0 → (F32.sign (F32.div a b) = true ↔ opposite)) ∧
      (F32.value a = 0 → F32.value b ≠ 0 → F32.div a b = zero) ∧
      (F32.value a ≠ 0 → F32.value b = 0 → F32.div a b = infinity) ∧
      (F32.value a = 0 → F32.value b = 0 → F32.isNaN (F32.div a b) = true)) ∧
    (F32.isInf a = true → F32.isFinite b = true →
      F32.div a b = infinity ∧ F32.div b a = zero ∧
      (F32.value b = 0 → F32.isNaN (F32.mul a b) = true ∧ F32.isNaN (F32.mul b a) = true) ∧
      (F32.value b ≠ 0 → F32.mul a b = infinity ∧ F32.mul b a = infinity)) ∧
    (F32.isInf a = true → F32.isInf b = true → F32.mul a b = infinity ∧ F32.isNaN (F32.div a b) = true)

/-- The comparisons are those of IEEE 754: false on a NaN, by value on finite operands with -0.0 equal to +0.0, an infinity beyond
every finite value on its side and equal to itself; isNaN and isFinite by the exponent and fraction fields; negation flips bit 31
and abs clears it (00_scope.md R7, R8). -/
def Obligations.ComparisonsFollowTheValues : Prop :=
  (∀ a b : Word,
    (F32.isNaN a = true ∨ F32.isNaN b = true → F32.lt a b = false ∧ F32.le a b = false) ∧
    (F32.isFinite a = true → F32.isFinite b = true →
      (F32.lt a b = true ↔ F32.value a < F32.value b) ∧ (F32.le a b = true ↔ F32.value a ≤ F32.value b))) ∧
  (∀ a : Word, F32.isFinite a = true →
    (F32.lt a 0x7F800000#32 = true ∧ F32.le a 0x7F800000#32 = true ∧
      F32.lt 0x7F800000#32 a = false ∧ F32.le 0x7F800000#32 a = false) ∧
    (F32.lt 0xFF800000#32 a = true ∧ F32.le 0xFF800000#32 a = true ∧
      F32.lt a 0xFF800000#32 = false ∧ F32.le a 0xFF800000#32 = false)) ∧
  (F32.lt 0x7F800000#32 0x7F800000#32 = false ∧ F32.le 0x7F800000#32 0x7F800000#32 = true ∧
    F32.lt 0xFF800000#32 0xFF800000#32 = false ∧ F32.le 0xFF800000#32 0xFF800000#32 = true ∧
    F32.lt 0xFF800000#32 0x7F800000#32 = true ∧ F32.le 0xFF800000#32 0x7F800000#32 = true ∧
    F32.lt 0x7F800000#32 0xFF800000#32 = false ∧ F32.le 0x7F800000#32 0xFF800000#32 = false) ∧
  (∀ a : Word,
    (F32.isNaN a = true ↔ a.toNat / 2 ^ 23 % 2 ^ 8 = 255 ∧ a.toNat % 2 ^ 23 ≠ 0) ∧
    (F32.isFinite a = true ↔ a.toNat / 2 ^ 23 % 2 ^ 8 ≠ 255) ∧
    (F32.isInf a = true ↔ a = 0x7F800000#32 ∨ a = 0xFF800000#32) ∧
    (F32.sign a = true ↔ a.toNat / 2 ^ 31 = 1) ∧
    (F32.neg a).toNat = (a.toNat + 2 ^ 31) % 2 ^ 32 ∧ (F32.abs a).toNat = a.toNat % 2 ^ 31)
end

