-- ==== Sys2Proof/Laws/Float.lean ====
section
/-! SUPPORT. What the binary32 operations do: the parts of a packed word, the sign operations, that rounding is monotone and
exact on representable values, the order, and what the clamps answer. -/

namespace Sys2Proof.Machine.F32

open Sys2Proof

theorem mag_lt (a : Word) : mag a < 2 ^ 31 := Nat.mod_lt _ (by decide)

@[simp] theorem mag_pack (s : Bool) {m : Nat} (h : m < 2 ^ 31) : mag (pack s m) = m := by
  cases s <;> simp [mag, pack] <;> omega

theorem sign_eq (a : Word) : sign a = decide (2 ^ 31 ≤ a.toNat) := by
  simp only [sign, BitVec.getLsbD, Nat.testBit_eq_decide_div_mod_eq]
  have := a.isLt
  exact decide_eq_decide.2 (by omega)

@[simp] theorem sign_pack (s : Bool) {m : Nat} (h : m < 2 ^ 31) : sign (pack s m) = s := by
  rw [sign_eq]
  cases s <;> simp [pack] <;> omega

/-- A word is its sign and its magnitude (00_scope.md R7). -/
theorem pack_sign_mag (a : Word) : pack (sign a) (mag a) = a := by
  apply BitVec.eq_of_toNat_eq
  have := a.isLt
  rw [sign_eq]
  by_cases h : 2 ^ 31 ≤ a.toNat
  · rw [decide_eq_true h]
    simp only [pack, mag, BitVec.toNat_ofNat, Bool.toNat_true]
    omega
  · rw [decide_eq_false h]
    simp only [pack, mag, BitVec.toNat_ofNat, Bool.toNat_false]
    omega

theorem neg_eq_pack (a : Word) : neg a = pack (!sign a) (mag a) := by
  rw [← pack_sign_mag (neg a)]
  have hs : sign (neg a) = !sign a := by simp [sign, neg]
  have hm : mag (neg a) = mag a := by
    simp only [mag, neg]
    rw [← Nat.and_two_pow_sub_one_eq_mod, ← Nat.and_two_pow_sub_one_eq_mod]
    apply Nat.eq_of_testBit_eq
    intro i
    have h31 : (0x80000000#32).toNat = 2 ^ 31 := rfl
    simp only [BitVec.toNat_xor, h31, Nat.testBit_and, Nat.testBit_xor, Nat.testBit_two_pow_sub_one, Nat.testBit_two_pow]
    by_cases hi : i < 31
    · simp [hi, show ¬ 31 = i by omega]
    · simp [hi]
  rw [hs, hm]

theorem abs_eq_pack (a : Word) : abs a = pack false (mag a) := by
  apply BitVec.eq_of_toNat_eq
  have hm := mag_lt a
  have h31 : (0x7FFFFFFF#32).toNat = 2 ^ 31 - 1 := rfl
  simp only [abs, BitVec.toNat_and, h31, Nat.and_two_pow_sub_one_eq_mod, pack, BitVec.toNat_ofNat]
  simp only [mag] at hm ⊢
  simp
  omega

@[simp] theorem mag_neg (a : Word) : mag (neg a) = mag a := by rw [neg_eq_pack, mag_pack _ (mag_lt a)]
@[simp] theorem sign_neg (a : Word) : sign (neg a) = !sign a := by rw [neg_eq_pack, sign_pack _ (mag_lt a)]
@[simp] theorem mag_abs (a : Word) : mag (abs a) = mag a := by rw [abs_eq_pack, mag_pack _ (mag_lt a)]
@[simp] theorem sign_abs (a : Word) : sign (abs a) = false := by rw [abs_eq_pack, sign_pack _ (mag_lt a)]
@[simp] theorem isNaN_neg (a : Word) : isNaN (neg a) = isNaN a := by simp [isNaN]
@[simp] theorem isNaN_abs (a : Word) : isNaN (abs a) = isNaN a := by simp [isNaN]
@[simp] theorem isFinite_neg (a : Word) : isFinite (neg a) = isFinite a := by simp [isFinite]
@[simp] theorem isFinite_abs (a : Word) : isFinite (abs a) = isFinite a := by simp [isFinite]
@[simp] theorem isInf_neg (a : Word) : isInf (neg a) = isInf a := by simp [isInf]
@[simp] theorem units_neg (a : Word) : units (neg a) = units a := by simp [units]
@[simp] theorem units_abs (a : Word) : units (abs a) = units a := by simp [units]
@[simp] theorem value_neg (a : Word) : value (neg a) = -value a := by
  simp only [value, sign_neg, units_neg]; cases sign a <;> simp
@[simp] theorem value_abs (a : Word) : value (abs a) = |value a| := by
  simp only [value, sign_abs, units_abs]; cases sign a <;> simp
@[simp] theorem key_neg (a : Word) : key (neg a) = -key a := by
  simp only [key, sign_neg, mag_neg]; cases sign a <;> simp

/-- A finite word is no NaN and no infinity (00_scope.md R8). -/
theorem isFinite_iff (a : Word) : isFinite a = true ↔ isNaN a = false ∧ isInf a = false := by
  simp only [isFinite, isNaN, isInf, decide_eq_true_eq, decide_eq_false_iff_not]
  omega

/-- The NaN an invalid operation produces is a NaN, whichever it is (log entry 5). -/
@[simp] theorem isNaN_nanOf (op : ArithOp) (a b : Word) : isNaN (nanOf op a b) = true := by
  unfold nanOf
  split
  · assumption
  · decide

/-! Rounding -/

/-- Round half to even of n/u is monotone in n. -/
theorem halfEven_mono {n n' u : Nat} (h : n ≤ n') :
    (if u < 2 * (n % u) ∨ (2 * (n % u) = u ∧ n / u % 2 = 1) then n / u + 1 else n / u) ≤
      (if u < 2 * (n' % u) ∨ (2 * (n' % u) = u ∧ n' / u % 2 = 1) then n' / u + 1 else n' / u) := by
  have hq : n / u ≤ n' / u := Nat.div_le_div_right h
  rcases Nat.lt_or_ge (n / u) (n' / u) with hlt | hge
  · split <;> split <;> omega
  · have heq : n / u = n' / u := by omega
    have hr : n % u ≤ n' % u := by
      have h1 := Nat.div_add_mod n u
      have h2 := Nat.div_add_mod n' u
      rw [heq] at h1
      omega
    rw [heq]
    split
    · rw [if_pos (by omega)]
    · split <;> omega

theorem log2_quotient {q : Nat} (h : 1 ≤ Nat.log2 q - 23) : 2 ^ (Nat.log2 q - 23 + 23) ≤ q ∧ q < 2 ^ (Nat.log2 q - 23 + 24) := by
  have hq : q ≠ 0 := by rintro rfl; simp at h
  rw [show Nat.log2 q - 23 + 23 = Nat.log2 q by omega, show Nat.log2 q - 23 + 24 = Nat.log2 q + 1 by omega]
  exact ⟨Nat.log2_self_le hq, Nat.lt_log2_self⟩

theorem quotient_lt (q : Nat) : q < 2 ^ (Nat.log2 q - 23 + 24) :=
  lt_of_lt_of_le Nat.lt_log2_self (Nat.pow_le_pow_right (by decide) (by omega))

/-- The rounded count of last places: at most 2^24, and at least 2^23 above the subnormals. -/
theorem places_bounds (n d : Nat) :
    let e := Nat.log2 (n / d) - 23
    n / (d * 2 ^ e) < 2 ^ 24 ∧ (1 ≤ e → 2 ^ 23 ≤ n / (d * 2 ^ e)) := by
  intro e
  rw [← Nat.div_div_eq_div_mul]
  constructor
  · rw [Nat.div_lt_iff_lt_mul (by positivity), ← pow_add, Nat.add_comm]
    exact quotient_lt _
  · intro he
    rw [Nat.le_div_iff_mul_le (by positivity), ← pow_add, Nat.add_comm]
    exact (log2_quotient he).1

theorem roundMag_le_infMag (n d : Nat) : roundMag n d ≤ infMag := Nat.min_le_right _ _

theorem roundMag_lt (n d : Nat) : roundMag n d < 2 ^ 31 := lt_of_le_of_lt (roundMag_le_infMag n d) (by decide)

theorem log2_mono {a b : Nat} (h : a ≤ b) : Nat.log2 a ≤ Nat.log2 b := by
  rw [Nat.log2_eq_log_two, Nat.log2_eq_log_two]
  exact Nat.log_mono_right h

/-- Rounding is monotone: a larger exact magnitude never rounds to a smaller one. -/
theorem roundMag_mono {n n' : Nat} (d : Nat) (h : n ≤ n') : roundMag n d ≤ roundMag n' d := by
  have hq : n / d ≤ n' / d := Nat.div_le_div_right h
  have hl := log2_mono hq
  have hb := places_bounds n d
  have hb' := places_bounds n' d
  simp only [roundMag] at hb hb' ⊢
  refine le_min ?_ (Nat.min_le_right _ _)
  refine le_trans (Nat.min_le_left _ _) ?_
  rcases Nat.eq_or_lt_of_le (show Nat.log2 (n / d) - 23 ≤ Nat.log2 (n' / d) - 23 by omega) with heq | hlt
  · rw [heq] at hb ⊢
    exact Nat.add_le_add_left (halfEven_mono h) _
  · have h1 : 2 ^ 23 ≤ n' / (d * 2 ^ (Nat.log2 (n' / d) - 23)) := hb'.2 (by omega)
    have h2 := hb.1
    have h3 : (Nat.log2 (n / d) - 23 + 1) * 2 ^ 23 ≤ (Nat.log2 (n' / d) - 23) * 2 ^ 23 :=
      Nat.mul_le_mul_right _ hlt
    split <;> split <;> omega

/-- A representable magnitude rounds to itself. -/
theorem roundMag_exact {m d : Nat} (hm : m < infMag) (hd : 0 < d) : roundMag (unitsOf m * d) d = m := by
  have hq : unitsOf m * d / d = unitsOf m := Nat.mul_div_cancel _ hd
  have hm' : m / 2 ^ 23 * 2 ^ 23 + m % 2 ^ 23 = m := Nat.div_add_mod' m _
  have hF : m % 2 ^ 23 < 2 ^ 23 := Nat.mod_lt _ (by decide)
  simp only [roundMag, hq]
  by_cases hE : m / 2 ^ 23 = 0
  · have hu : unitsOf m = m := by unfold unitsOf; rw [if_pos hE]; omega
    have he : Nat.log2 m - 23 = 0 := by
      rcases Nat.eq_zero_or_pos m with rfl | hpos
      · rfl
      · have := (Nat.log2_lt (by omega : m ≠ 0)).2 (show m < 2 ^ 23 by omega)
        omega
    simp only [hu, he, pow_zero, Nat.mul_one, Nat.mul_div_cancel _ hd, Nat.mul_mod_left]
    rw [if_neg (by omega)]
    omega
  · have hu : unitsOf m = (m % 2 ^ 23 + 2 ^ 23) * 2 ^ (m / 2 ^ 23 - 1) := by unfold unitsOf; rw [if_neg hE]
    have he : Nat.log2 (unitsOf m) - 23 = m / 2 ^ 23 - 1 := by
      have : Nat.log2 (unitsOf m) = 23 + (m / 2 ^ 23 - 1) := by
        rw [Nat.log2_eq_iff (by rw [hu]; positivity), hu]
        constructor
        · rw [pow_add]; exact Nat.mul_le_mul_right _ (by omega)
        · rw [show 23 + (m / 2 ^ 23 - 1) + 1 = 24 + (m / 2 ^ 23 - 1) by omega, pow_add]
          exact Nat.mul_lt_mul_of_pos_right (by omega) (by positivity)
      omega
    have hn : unitsOf m * d = (m % 2 ^ 23 + 2 ^ 23) * (d * 2 ^ (m / 2 ^ 23 - 1)) := by rw [hu]; ring
    have hpos : 0 < d * 2 ^ (m / 2 ^ 23 - 1) := by positivity
    have hsum : (m / 2 ^ 23 - 1) * 2 ^ 23 + (m % 2 ^ 23 + 2 ^ 23) = m := by
      have hE' : 1 ≤ m / 2 ^ 23 := Nat.one_le_iff_ne_zero.2 hE
      calc (m / 2 ^ 23 - 1) * 2 ^ 23 + (m % 2 ^ 23 + 2 ^ 23)
          = (m / 2 ^ 23 - 1 + 1) * 2 ^ 23 + m % 2 ^ 23 := by ring
        _ = m := by rw [Nat.sub_add_cancel hE', hm']
    rw [he, hn, Nat.mul_div_cancel _ hpos, Nat.mul_mod_left, if_neg (by omega), hsum]
    exact Nat.min_eq_left hm.le

/-- The magnitude bits keep the order of the values they stand for. -/
theorem unitsOf_mono {a b : Nat} (h : a ≤ b) : unitsOf a ≤ unitsOf b := by
  have hE : a / 2 ^ 23 ≤ b / 2 ^ 23 := Nat.div_le_div_right h
  have ha : a / 2 ^ 23 * 2 ^ 23 + a % 2 ^ 23 = a := Nat.div_add_mod' a _
  have hb : b / 2 ^ 23 * 2 ^ 23 + b % 2 ^ 23 = b := Nat.div_add_mod' b _
  have hF : a % 2 ^ 23 < 2 ^ 23 := Nat.mod_lt _ (by decide)
  unfold unitsOf
  split
  next h0 =>
    split
    · omega
    · have : (b % 2 ^ 23 + 2 ^ 23) * 1 ≤ (b % 2 ^ 23 + 2 ^ 23) * 2 ^ (b / 2 ^ 23 - 1) :=
        Nat.mul_le_mul_left _ Nat.one_le_two_pow
      omega
  next h0 =>
    rw [if_neg (by omega)]
    rcases Nat.eq_or_lt_of_le hE with heq | hlt
    · rw [heq]; exact Nat.mul_le_mul_right _ (by omega)
    · calc (a % 2 ^ 23 + 2 ^ 23) * 2 ^ (a / 2 ^ 23 - 1)
          ≤ 2 ^ 24 * 2 ^ (a / 2 ^ 23 - 1) := Nat.mul_le_mul_right _ (by omega)
        _ = 2 ^ 23 * 2 ^ (a / 2 ^ 23) := by
          rw [show a / 2 ^ 23 = a / 2 ^ 23 - 1 + 1 by omega, pow_succ]; simp only [Nat.add_sub_cancel]; ring
        _ ≤ 2 ^ 23 * 2 ^ (b / 2 ^ 23 - 1) := Nat.mul_le_mul_left _ (Nat.pow_le_pow_right (by decide) (by omega))
        _ ≤ (b % 2 ^ 23 + 2 ^ 23) * 2 ^ (b / 2 ^ 23 - 1) := Nat.mul_le_mul_right _ (by omega)

/-- Distinct finite magnitudes stand for distinct values. -/
theorem unitsOf_injective {a b : Nat} (ha : a < infMag) (hb : b < infMag) (h : unitsOf a = unitsOf b) : a = b := by
  have h1 := roundMag_exact ha (d := 1) (by decide)
  rw [h, roundMag_exact hb (by decide)] at h1
  exact h1.symm

theorem unitsOf_lt {a b : Nat} (hb : b < infMag) (h : a < b) : unitsOf a < unitsOf b :=
  lt_of_le_of_ne (unitsOf_mono h.le) fun he => absurd (unitsOf_injective (h.trans hb) hb he) h.ne

/-! Order -/

theorem lt_iff (a b : Word) : lt a b = true ↔ isNaN a = false ∧ isNaN b = false ∧ key a < key b := by
  simp [lt, and_assoc]

theorem le_iff (a b : Word) : le a b = true ↔ isNaN a = false ∧ isNaN b = false ∧ key a ≤ key b := by
  simp [le, and_assoc]

/-- Away from NaN one of `<` and `>=` holds (00_scope.md R8). -/
theorem le_of_not_lt {a b : Word} (ha : isNaN a = false) (hb : isNaN b = false) (h : lt a b = false) : le b a = true := by
  rw [le_iff]
  refine ⟨hb, ha, ?_⟩
  by_contra hc
  rw [(lt_iff a b).2 ⟨ha, hb, by omega⟩] at h
  exact absurd h (by decide)

theorem le_trans' {a b c : Word} (h : le a b = true) (h' : le b c = true) : le a c = true := by
  rw [le_iff] at *
  exact ⟨h.1, h'.2.1, le_trans h.2.2 h'.2.2⟩

end Sys2Proof.Machine.F32

namespace Sys2Proof.Machine

open Sys2Proof

/-- CONSTRAIN answers the lower bound, the upper bound, or its operand (00_scope.md R10). -/
theorem constrain_cases (x lo hi : Word) :
    (F32.lt x lo = true ∧ constrain x lo hi = lo) ∨
      (F32.lt x lo = false ∧ F32.lt hi x = true ∧ constrain x lo hi = hi) ∨
      (F32.lt x lo = false ∧ F32.lt hi x = false ∧ constrain x lo hi = x) := by
  unfold constrain
  cases h : F32.lt x lo <;> cases h' : F32.lt hi x <;> simp

/-- A non-NaN operand is brought between the bounds (00_scope.md R10). -/
theorem constrain_between {x lo hi : Word} (hx : F32.isNaN x = false) (h : F32.le lo hi = true) :
    F32.le lo (constrain x lo hi) = true ∧ F32.le (constrain x lo hi) hi = true := by
  obtain ⟨hlo, hhi, hk⟩ := (F32.le_iff lo hi).1 h
  have refl : ∀ a, F32.isNaN a = false → F32.le a a = true := fun a ha => (F32.le_iff a a).2 ⟨ha, ha, le_refl _⟩
  rcases constrain_cases x lo hi with ⟨-, he⟩ | ⟨-, -, he⟩ | ⟨h1, h2, he⟩ <;> rw [he]
  · exact ⟨refl lo hlo, h⟩
  · exact ⟨h, refl hi hhi⟩
  · exact ⟨F32.le_of_not_lt hx hlo h1, F32.le_of_not_lt hhi hx h2⟩

/-- CLAMP_F of anything but a NaN lies in the range of its mode (40_render.md R105). -/
theorem clampF_between {x : Word} (tz : Bool) (hx : F32.isNaN x = false) :
    F32.le (if tz then F32.neg kMax else kMin) (clampF x tz) = true ∧ F32.le (clampF x tz) kMax = true := by
  cases tz
  · exact constrain_between hx (by decide)
  · exact constrain_between hx (by decide)

/-- SAT01 answers +0.0, 1.0 or an operand already in [0,1] (00_scope.md R11). -/
theorem sat01_cases (x : Word) :
    (F32.isNaN x = true ∧ sat01 x = F32.zero) ∨ (F32.lt x F32.zero = true ∧ sat01 x = F32.zero) ∨
      (F32.lt F32.one x = true ∧ sat01 x = F32.one) ∨
      (F32.le F32.zero x = true ∧ F32.le x F32.one = true ∧ sat01 x = x) := by
  unfold sat01
  cases hn : F32.isNaN x
  · cases h0 : F32.lt x F32.zero
    · cases h1 : F32.lt F32.one x
      · exact .inr (.inr (.inr ⟨F32.le_of_not_lt hn (by decide) h0, F32.le_of_not_lt (by decide) hn h1, by simp⟩))
      · exact .inr (.inr (.inl ⟨rfl, by simp⟩))
    · exact .inr (.inl ⟨rfl, by simp⟩)
  · exact .inl ⟨rfl, by simp⟩

end Sys2Proof.Machine
end

