-- ==== Sys2Proof/Laws/Arith.lean ====
section
/-! SUPPORT. Sums and differences of finite operands as rounded exact values: they follow the order of the exact results, and
an exact result that is a binary32 value is not rounded (00_scope.md R6). -/

namespace Sys2Proof.Machine.F32

open Sys2Proof

/-! Rounding a signed exact value -/

/-- The key of an exact value rounded to binary32. -/
def roundedKey (v : Int) : Int := if v < 0 then -(roundMag v.natAbs 1 : Int) else (roundMag v.natAbs 1 : Int)

theorem roundMag_zero : roundMag 0 1 = 0 := by decide

theorem roundedKey_mono {v w : Int} (h : v ≤ w) : roundedKey v ≤ roundedKey w := by
  unfold roundedKey
  split
  · split
    · have := roundMag_mono 1 (show w.natAbs ≤ v.natAbs by omega)
      omega
    · omega
  · rw [if_neg (by omega)]
    exact_mod_cast roundMag_mono 1 (show v.natAbs ≤ w.natAbs by omega)

theorem key_pack (s : Bool) {m : Nat} (h : m < 2 ^ 31) : key (pack s m) = if s then -(m : Int) else (m : Int) := by
  rw [key, sign_pack s h, mag_pack s h]

theorem isNaN_pack (s : Bool) {m : Nat} (h : m ≤ infMag) : isNaN (pack s m) = false := by
  have h' : m < 2 ^ 31 := lt_of_le_of_lt h (by decide)
  rw [isNaN, mag_pack s h']
  simpa using h

theorem sum_of_finite (nan : Word) {a b : Word} (ha : isFinite a = true) (hb : isFinite b = true) :
    sum nan a b = if value a + value b = 0 then pack (sign a && sign b) 0
      else pack (decide (value a + value b < 0)) (roundMag (value a + value b).natAbs 1) := by
  obtain ⟨ha1, ha2⟩ := (isFinite_iff a).1 ha
  obtain ⟨hb1, hb2⟩ := (isFinite_iff b).1 hb
  simp [sum, ha1, ha2, hb1, hb2]

/-- A sum of finite operands is no NaN, and its key is that of the rounded exact sum. -/
theorem key_sum (nan : Word) {a b : Word} (ha : isFinite a = true) (hb : isFinite b = true) :
    isNaN (sum nan a b) = false ∧ key (sum nan a b) = roundedKey (value a + value b) := by
  rw [sum_of_finite nan ha hb]
  split
  next h =>
    refine ⟨isNaN_pack _ (by decide), ?_⟩
    rw [h, key_pack _ (by decide)]
    simp [roundedKey, roundMag_zero]
  next h =>
    refine ⟨isNaN_pack _ (roundMag_le_infMag _ _), ?_⟩
    rw [key_pack _ (roundMag_lt _ _)]
    simp [roundedKey]

theorem key_add {a b : Word} (ha : isFinite a = true) (hb : isFinite b = true) :
    isNaN (add a b) = false ∧ key (add a b) = roundedKey (value a + value b) := key_sum _ ha hb

theorem key_sub {a b : Word} (ha : isFinite a = true) (hb : isFinite b = true) :
    isNaN (sub a b) = false ∧ key (sub a b) = roundedKey (value a - value b) := by
  have h := key_sum (nanOf .sub a b) ha (show isFinite (neg b) = true by simpa using hb)
  rwa [value_neg, ← sub_eq_add_neg] at h

/-- The value of a finite word rounds to the word itself. -/
theorem roundedKey_value {a : Word} (ha : isFinite a = true) : roundedKey (value a) = key a := by
  have hm : mag a < infMag := by simpa [isFinite] using ha
  have hr : roundMag (units a) 1 = mag a := by simpa [units] using roundMag_exact hm Nat.one_pos
  unfold roundedKey value key
  cases sign a
  · simp [hr]
  · by_cases h0 : units a = 0
    · have : mag a = 0 := by rw [← hr, h0]; decide
      simp [h0, roundMag_zero, this]
    · simp [hr, h0]

/-- Sums keep the order of the exact sums. -/
theorem add_le_add_of_value_le {a b c d : Word} (ha : isFinite a = true) (hb : isFinite b = true) (hc : isFinite c = true)
    (hd : isFinite d = true) (h : value a + value b ≤ value c + value d) : le (add a b) (add c d) = true := by
  rw [le_iff]
  exact ⟨(key_add ha hb).1, (key_add hc hd).1, by rw [(key_add ha hb).2, (key_add hc hd).2]; exact roundedKey_mono h⟩

/-- A sum is at most a binary32 value that the exact sum is at most. -/
theorem add_le_of_value_le {a b c : Word} (ha : isFinite a = true) (hb : isFinite b = true) (hc : isFinite c = true)
    (h : value a + value b ≤ value c) : le (add a b) c = true := by
  rw [le_iff]
  refine ⟨(key_add ha hb).1, ((isFinite_iff c).1 hc).1, ?_⟩
  rw [(key_add ha hb).2, ← roundedKey_value hc]
  exact roundedKey_mono h

/-- A sum is at least a binary32 value that the exact sum is at least. -/
theorem le_add_of_value_le {a b c : Word} (ha : isFinite a = true) (hb : isFinite b = true) (hc : isFinite c = true)
    (h : value c ≤ value a + value b) : le c (add a b) = true := by
  rw [le_iff]
  refine ⟨((isFinite_iff c).1 hc).1, (key_add ha hb).1, ?_⟩
  rw [(key_add ha hb).2, ← roundedKey_value hc]
  exact roundedKey_mono h

/-! The rounding error -/

/-- m places of 2^e units are encoded as e * 2^23 + m: m is at least 2^23 above the subnormals, and at most 2^24. -/
theorem unitsOf_places {e m : Nat} (hm : m ≤ 2 ^ 24) (he : 1 ≤ e → 2 ^ 23 ≤ m) : unitsOf (e * 2 ^ 23 + m) = m * 2 ^ e := by
  unfold unitsOf
  rcases Nat.lt_or_ge m (2 ^ 23) with h | h
  · obtain rfl : e = 0 := by by_contra h0; exact absurd (he (by omega)) (by omega)
    rw [if_pos (by omega)]
    simp only [Nat.zero_mul, Nat.zero_add, pow_zero, Nat.mul_one]
    omega
  · rw [if_neg (by omega)]
    rcases Nat.lt_or_ge m (2 ^ 24) with h' | h'
    · rw [show (e * 2 ^ 23 + m) % 2 ^ 23 + 2 ^ 23 = m by omega, show (e * 2 ^ 23 + m) / 2 ^ 23 - 1 = e by omega]
    · obtain rfl : m = 2 ^ 24 := by omega
      rw [show (e * 2 ^ 23 + 2 ^ 24) % 2 ^ 23 + 2 ^ 23 = 2 ^ 23 by omega,
        show (e * 2 ^ 23 + 2 ^ 24) / 2 ^ 23 - 1 = e + 1 by omega, pow_succ]
      ring

/-- A result that does not overflow is off by at most half a last place: the last place is 2^e units of d, and where e is not 0
it is at most 2^-23 of the exact magnitude. -/
theorem roundMag_error {n d : Nat} (hd : 0 < d) (h : roundMag n d < infMag) :
    ∃ e, 2 * (unitsOf (roundMag n d) * d) ≤ 2 * n + d * 2 ^ e ∧ 2 * n ≤ 2 * (unitsOf (roundMag n d) * d) + d * 2 ^ e ∧
      (1 ≤ e → 2 ^ 23 * (d * 2 ^ e) ≤ n) := by
  have hb := places_bounds n d
  simp only [roundMag] at hb h ⊢
  generalize he : Nat.log2 (n / d) - 23 = e at hb h ⊢
  have hu : 0 < d * 2 ^ e := by positivity
  generalize hU : d * 2 ^ e = u at hb h hu ⊢
  have hdiv : u * (n / u) + n % u = n := Nat.div_add_mod n u
  have hlt : n % u < u := Nat.mod_lt _ hu
  generalize n / u = q at *
  generalize n % u = r at *
  obtain ⟨m, hm, hlo, hhi⟩ : ∃ m, (if u < 2 * r ∨ (2 * r = u ∧ q % 2 = 1) then q + 1 else q) = m ∧
      2 * (m * u) ≤ 2 * n + u ∧ 2 * n ≤ 2 * (m * u) + u := by
    have h1 : (q + 1) * u = u * q + u := by ring
    have h2 : q * u = u * q := Nat.mul_comm _ _
    refine ⟨_, rfl, ?_, ?_⟩ <;> split <;> simp only [h1, h2] <;> omega
  have hmb : m ≤ 2 ^ 24 ∧ (1 ≤ e → 2 ^ 23 ≤ m) := by
    rw [← hm]
    constructor
    · split <;> omega
    · intro h1
      have := hb.2 h1
      split <;> omega
  rw [hm] at h ⊢
  have hmin : min (e * 2 ^ 23 + m) infMag = e * 2 ^ 23 + m := by
    rcases Nat.le_total (e * 2 ^ 23 + m) infMag with hc | hc
    · exact Nat.min_eq_left hc
    · rw [Nat.min_eq_right hc] at h; exact absurd h (lt_irrefl _)
  rw [hmin, unitsOf_places hmb.1 hmb.2, show m * 2 ^ e * d = m * u by rw [← hU]; ring]
  refine ⟨e, by rwa [hU], by rwa [hU], fun h1 => ?_⟩
  have := hb.2 h1
  rw [hU]
  nlinarith

end Sys2Proof.Machine.F32
end

