-- ==== Sys2Proof/Laws/Decode.lean ====
section
/-! SUPPORT. The decoder and the encoder, constructor by constructor. -/

namespace Sys2Proof

@[simp] theorem wellFormed_renderOf (shape : Shape) (tz fm : Bool) (size : Nat) :
    (renderOf shape tz fm size).wellFormed = sizeFits size := by cases shape <;> rfl

@[simp] theorem encode_renderOf (shape : Shape) (tz fm : Bool) (size : Nat) :
    encode (renderOf shape tz fm size) = renderWord shape tz fm size := by cases shape <;> rfl

/-- Every command is a control command or the RENDER of a shape (30_encoding.md R71). -/
theorem instr_cases (i : Instr) :
    i = .nop ∨ i = .init ∨ i = .keval ∨ ∃ shape tz fm size, i = renderOf shape tz fm size := by
  cases i with
  | nop => exact .inl rfl
  | init => exact .inr (.inl rfl)
  | keval => exact .inr (.inr (.inl rfl))
  | renderImpulse tz fm size => exact .inr (.inr (.inr ⟨.impulse, tz, fm, size, rfl⟩))
  | renderSaw tz fm size => exact .inr (.inr (.inr ⟨.saw, tz, fm, size, rfl⟩))
  | renderTriangle tz fm size => exact .inr (.inr (.inr ⟨.triangle, tz, fm, size, rfl⟩))
  | renderSlope tz fm size => exact .inr (.inr (.inr ⟨.slope, tz, fm, size, rfl⟩))
  | renderSquare tz fm size => exact .inr (.inr (.inr ⟨.square, tz, fm, size, rfl⟩))
  | renderSquareBright tz fm size => exact .inr (.inr (.inr ⟨.squareBright, tz, fm, size, rfl⟩))
  | renderSquareDark tz fm size => exact .inr (.inr (.inr ⟨.squareDark, tz, fm, size, rfl⟩))
  | renderSquareTriangle tz fm size => exact .inr (.inr (.inr ⟨.squareTriangle, tz, fm, size, rfl⟩))

/-- A code and its shape determine each other (30_encoding.md R73). -/
theorem shapeOfCode_shapeCode (shape : Shape) : shapeOfCode (BitVec.ofNat 3 (shapeCode shape)) = shape := by
  cases shape <;> decide

theorem shapeCode_shapeOfCode (code : BitVec 3) : shapeCode (shapeOfCode code) = code.toNat := by
  revert code; decide

/-- What the decoder can answer, and when (30_encoding.md R71). -/
theorem decode_cases (w : Word) :
    (w = 0x00000000#32 ∧ decode w = .ok .nop) ∨ (w = 0x00000001#32 ∧ decode w = .ok .init) ∨
      (w = 0x00000003#32 ∧ decode w = .ok .keval) ∨
      (opField w = 0b0010#4 ∧ rsvField w = 0#7 ∧
        decode w = .ok (renderOf (shapeOfCode (shapeField w)) (tzField w) (fmField w) (sizeField w))) ∨
      (w ≠ 0x00000000#32 ∧ w ≠ 0x00000001#32 ∧ w ≠ 0x00000003#32 ∧ ¬ (opField w = 0b0010#4 ∧ rsvField w = 0#7) ∧
        decode w = .error (rejectReason w)) := by
  unfold decode
  by_cases h0 : w = 0x00000000#32
  · exact .inl ⟨h0, if_pos h0⟩
  · by_cases h1 : w = 0x00000001#32
    · exact .inr (.inl ⟨h1, by rw [if_neg h0, if_pos h1]⟩)
    · by_cases h3 : w = 0x00000003#32
      · exact .inr (.inr (.inl ⟨h3, by rw [if_neg h0, if_neg h1, if_pos h3]⟩))
      · by_cases hr : opField w = 0b0010#4 ∧ rsvField w = 0#7
        · exact .inr (.inr (.inr (.inl ⟨hr.1, hr.2, by rw [if_neg h0, if_neg h1, if_neg h3, if_pos hr]⟩)))
        · exact .inr (.inr (.inr (.inr ⟨h0, h1, h3, hr, by rw [if_neg h0, if_neg h1, if_neg h3, if_neg hr]⟩)))

end Sys2Proof
end

