-- ==== Sys2Proof/Laws/Memory.lean ====
section
/-! SUPPORT. What the operations over the buffers do: a read after a write, what a write leaves alone, and that the canonical
form is kept. -/

namespace Sys2Proof.Machine

open Sys2Proof

theorem byteAt_setByte (m : Memory) (a b : Nat) (v : Byte) :
    (m.setByte a v).byteAt b = if b = a then some v else m.byteAt b := by
  induction m with
  | nil => simp [Memory.setByte, Memory.byteAt]
  | cons c m ih =>
    obtain ⟨k, w⟩ := c
    unfold Memory.setByte
    split
    · simp [Memory.byteAt]
    · split
      · simp only [Memory.byteAt]; split <;> simp_all
      · simp only [Memory.byteAt, ih]
        split
        · rw [if_neg (by omega)]
        · rfl

theorem mem_setByte {m : Memory} {a : Nat} {v : Byte} {c : Host.Cell} (h : c ∈ m.setByte a v) : c = (a, v) ∨ c ∈ m := by
  induction m with
  | nil => simpa [Memory.setByte] using h
  | cons d m ih =>
    obtain ⟨k, w⟩ := d
    unfold Memory.setByte at h
    split at h
    · simpa using h
    · split at h
      · simp only [List.mem_cons] at h ⊢; tauto
      · simp only [List.mem_cons] at h ⊢
        rcases h with h | h
        · exact .inr (.inl h)
        · rcases ih h with h | h <;> tauto

theorem setByte_wf {m : Memory} (h : m.wf) (a : Nat) (v : Byte) : (m.setByte a v).wf := by
  induction m with
  | nil => simp [Memory.setByte]
  | cons c m ih =>
    obtain ⟨k, w⟩ := c
    obtain ⟨hk, hm⟩ := List.pairwise_cons.1 h
    unfold Memory.setByte
    split
    next hlt =>
      refine List.pairwise_cons.2 ⟨fun d hd => ?_, h⟩
      rcases List.mem_cons.1 hd with rfl | hd
      · exact hlt
      · exact lt_trans hlt (hk d hd)
    next hge =>
      split
      next heq => subst heq; exact List.pairwise_cons.2 ⟨hk, hm⟩
      next hne =>
        refine List.pairwise_cons.2 ⟨fun d hd => ?_, ih hm⟩
        rcases mem_setByte hd with rfl | hd
        · show k < a
          omega
        · exact hk d hd

/-- In the canonical form a byte is listed exactly when it is read (10_state.md R49). -/
theorem byteAt_eq_some_iff {m : Memory} (h : m.wf) (a : Nat) (v : Byte) : m.byteAt a = some v ↔ (a, v) ∈ m := by
  induction m with
  | nil => simp [Memory.byteAt]
  | cons c m ih =>
    obtain ⟨k, w⟩ := c
    obtain ⟨hk, hm⟩ := List.pairwise_cons.1 h
    simp only [Memory.byteAt, List.mem_cons, Prod.mk.injEq]
    split
    next heq =>
      subst heq
      constructor
      · rintro hv; injection hv with hv; exact .inl ⟨rfl, hv.symm⟩
      · rintro (⟨-, rfl⟩ | hmem)
        · rfl
        · exact absurd (hk _ hmem) (lt_irrefl a)
    next hne => rw [ih hm]; constructor <;> [exact .inr; (rintro (⟨rfl, -⟩ | h') <;> [exact absurd rfl hne; exact h'])]

theorem byteAt_writeWord (m : Memory) (off a : Nat) (w : Word) :
    (m.writeWord off w).byteAt a =
      if a = off + 3 then some (byteLane w 3) else if a = off + 2 then some (byteLane w 2)
      else if a = off + 1 then some (byteLane w 1) else if a = off then some (byteLane w 0) else m.byteAt a := by
  simp only [Memory.writeWord, byteAt_setByte]

/-- A byte outside the four of the word keeps its value. -/
theorem byteAt_writeWord_of_outside (m : Memory) {off a : Nat} (w : Word) (h : a < off ∨ off + 4 ≤ a) :
    (m.writeWord off w).byteAt a = m.byteAt a := by
  rw [byteAt_writeWord]
  rw [if_neg (by omega), if_neg (by omega), if_neg (by omega), if_neg (by omega)]

theorem wordOfLanes_byteLane (w : Word) :
    wordOfLanes (byteLane w 0) (byteLane w 1) (byteLane w 2) (byteLane w 3) = w := by
  refine BitVec.eq_of_getLsbD_eq fun i hi => ?_
  simp only [wordOfLanes, byteLane, BitVec.getLsbD_append, BitVec.getLsbD_extractLsb']
  split
  next h => simp [h]
  next h =>
    split
    next h2 => simp [h2, show 8 + (i - 8) = i by omega]
    next h2 =>
      split
      next h3 => simp [h3, show 16 + (i - 8 - 8) = i by omega]
      next h3 => simp [show i - 8 - 8 - 8 < 8 by omega, show 24 + (i - 8 - 8 - 8) = i by omega]

/-- A word read where it was just written is the word written (20_memory.md R54, R58). -/
@[simp] theorem readWord_writeWord (m : Memory) (off : Nat) (w : Word) : (m.writeWord off w).readWord off = some w := by
  simp only [Memory.readWord, byteAt_writeWord]
  simp [wordOfLanes_byteLane]

/-- Words that do not overlap do not disturb one another. -/
theorem readWord_writeWord_of_disjoint (m : Memory) {off off' : Nat} (w : Word) (h : off' + 4 ≤ off ∨ off + 4 ≤ off') :
    (m.writeWord off w).readWord off' = m.readWord off' := by
  simp only [Memory.readWord]
  rw [byteAt_writeWord_of_outside m w (by omega), byteAt_writeWord_of_outside m w (by omega),
    byteAt_writeWord_of_outside m w (by omega), byteAt_writeWord_of_outside m w (by omega)]

theorem writeWord_wf {m : Memory} (h : m.wf) (off : Nat) (w : Word) : (m.writeWord off w).wf :=
  setByte_wf (setByte_wf (setByte_wf (setByte_wf h _ _) _ _) _ _) _ _

theorem writeOut_wf {m : Memory} (h : m.wf) (n : Nat) (ys : List Word) : (m.writeOut n ys).wf := by
  induction ys generalizing m n with
  | nil => exact h
  | cons y ys ih => exact ih (writeWord_wf h _ _) _

/-- Samples stored from OUT_BUF[n] touch only their own words (20_memory.md R56). -/
theorem byteAt_writeOut_of_outside (m : Memory) {n a : Nat} (ys : List Word)
    (h : a < outOffset n ∨ outOffset (n + ys.length) ≤ a) : (m.writeOut n ys).byteAt a = m.byteAt a := by
  induction ys generalizing m n with
  | nil => rfl
  | cons y ys ih =>
    simp only [outOffset, List.length_cons] at h
    simp only [Memory.writeOut]
    rw [ih _ (by simp only [outOffset]; omega), byteAt_writeWord_of_outside _ _ (by simp only [outOffset]; omega)]

theorem readWord_writeOut_of_outside (m : Memory) {n off : Nat} (ys : List Word)
    (h : off + 4 ≤ outOffset n ∨ outOffset (n + ys.length) ≤ off) : (m.writeOut n ys).readWord off = m.readWord off := by
  simp only [Memory.readWord]
  rw [byteAt_writeOut_of_outside m ys (by omega), byteAt_writeOut_of_outside m ys (by omega),
    byteAt_writeOut_of_outside m ys (by omega), byteAt_writeOut_of_outside m ys (by omega)]

/-- Each stored sample is read back at its own index (42_shapes.md R171). -/
theorem readWord_writeOut (m : Memory) (n : Nat) (ys : List Word) {k : Nat} (h : k < ys.length) :
    (m.writeOut n ys).readWord (outOffset (n + k)) = some ys[k] := by
  induction ys generalizing m n k with
  | nil => simp at h
  | cons y ys ih =>
    cases k with
    | zero =>
      simp only [Memory.writeOut]
      rw [readWord_writeOut_of_outside _ _ (by simp only [outOffset]; omega)]
      simp
    | succ k =>
      have hk : k < ys.length := by simpa using h
      simp only [Memory.writeOut, show n + (k + 1) = n + 1 + k by omega, List.getElem_cons_succ]
      exact ih _ _ hk

/-- A store to OUT_BUF leaves every FM_BUF word below it alone (43_control.md R194). -/
theorem readWord_fm_writeOut (m : Memory) (n k : Nat) (ys : List Word) (h : fmOffset k + 4 ≤ 0x2000) :
    (m.writeOut n ys).readWord (fmOffset k) = m.readWord (fmOffset k) :=
  readWord_writeOut_of_outside m ys (by simp only [outOffset]; omega)

/-- The memory after reset lists nothing, and so is in canonical form (70_reset_and_hazards.md R230). -/
theorem reset_mem_wf (p : Params) : (State.resetWith p).mem.wf := List.Pairwise.nil

end Sys2Proof.Machine
end

