-- ==== Sys2Proof/Laws/PerInstr.lean ====
section
/-! SUPPORT. The family RowMatch of LAWS.json: the word of every command is in its own row of spec/opcode_table.json, whatever
its fields hold. -/

namespace Sys2Proof.Laws.RowMatch

open Sys2Proof

/-- The match and the mask of a command's row in spec/opcode_table.json. -/
def row : Instr → Word × Word
  | .nop => (0x00000000#32, 0xFFFFFFFF#32)
  | .init => (0x00000001#32, 0xFFFFFFFF#32)
  | .keval => (0x00000003#32, 0xFFFFFFFF#32)
  | .renderImpulse _ _ _ => (0x00000002#32, 0x0000FE7F#32)
  | .renderSaw _ _ _ => (0x00000012#32, 0x0000FE7F#32)
  | .renderTriangle _ _ _ => (0x00000022#32, 0x0000FE7F#32)
  | .renderSlope _ _ _ => (0x00000032#32, 0x0000FE7F#32)
  | .renderSquare _ _ _ => (0x00000042#32, 0x0000FE7F#32)
  | .renderSquareBright _ _ _ => (0x00000052#32, 0x0000FE7F#32)
  | .renderSquareDark _ _ _ => (0x00000062#32, 0x0000FE7F#32)
  | .renderSquareTriangle _ _ _ => (0x00000072#32, 0x0000FE7F#32)

/-- The encoded word, masked by the row's mask, is the row's match. -/
def Statement (i : Instr) : Prop := encode i &&& (row i).2 = (row i).1

theorem size_masked (size : Nat) : BitVec.ofNat 32 size <<< 16 &&& 0x0000FE7F#32 = 0#32 := by
  refine BitVec.eq_of_getLsbD_eq fun k hk => ?_
  simp only [BitVec.getLsbD_and, BitVec.getLsbD_shiftLeft, BitVec.getLsbD_zero, hk, decide_true, Bool.true_and]
  by_cases h : k < 16
  · simp [h]
  · have hz : (0x0000FE7F#32).getLsbD k = false := by
      simp only [BitVec.getLsbD, BitVec.toNat_ofNat]
      exact Nat.testBit_lt_two_pow (lt_of_lt_of_le (by decide) (Nat.pow_le_pow_right (by decide) (Nat.not_lt.1 h)))
    rw [hz, Bool.and_false]

theorem renderWord_masked (shape : Shape) (tz fm : Bool) (size : Nat) :
    renderWord shape tz fm size &&& 0x0000FE7F#32 = (BitVec.ofNat 32 (shapeCode shape) <<< 4) ||| 0x2#32 := by
  simp only [renderWord, BitVec.and_or_distrib_right, size_masked]
  cases tz <;> cases fm <;> cases shape <;> decide

theorem nop : Statement .nop := rfl
theorem init : Statement .init := rfl
theorem keval : Statement .keval := rfl
theorem renderImpulse (tz fm : Bool) (size : Nat) : Statement (.renderImpulse tz fm size) :=
  renderWord_masked .impulse tz fm size
theorem renderSaw (tz fm : Bool) (size : Nat) : Statement (.renderSaw tz fm size) :=
  renderWord_masked .saw tz fm size
theorem renderTriangle (tz fm : Bool) (size : Nat) : Statement (.renderTriangle tz fm size) :=
  renderWord_masked .triangle tz fm size
theorem renderSlope (tz fm : Bool) (size : Nat) : Statement (.renderSlope tz fm size) :=
  renderWord_masked .slope tz fm size
theorem renderSquare (tz fm : Bool) (size : Nat) : Statement (.renderSquare tz fm size) :=
  renderWord_masked .square tz fm size
theorem renderSquareBright (tz fm : Bool) (size : Nat) : Statement (.renderSquareBright tz fm size) :=
  renderWord_masked .squareBright tz fm size
theorem renderSquareDark (tz fm : Bool) (size : Nat) : Statement (.renderSquareDark tz fm size) :=
  renderWord_masked .squareDark tz fm size
theorem renderSquareTriangle (tz fm : Bool) (size : Nat) : Statement (.renderSquareTriangle tz fm size) :=
  renderWord_masked .squareTriangle tz fm size

end Sys2Proof.Laws.RowMatch
end

