-- ==== Sys2Proof/Laws/State.lean ====
section
/-! SUPPORT. The record updates of the model, field by field, so that no later proof unfolds one. -/

namespace Sys2Proof.Machine

open Sys2Proof

variable (c : RejectCode) (r : BusResponse) (s : State) (o : Osc) (v : Voice) (f p t m x : Word) (h : Turn) (kid : BitVec 8)

@[simp] theorem reject_params : (reject c s).params = s.params := rfl
@[simp] theorem reject_osc : (reject c s).osc = s.osc := rfl
@[simp] theorem reject_err : (reject c s).err = true := rfl
@[simp] theorem reject_errCode : (reject c s).errCode = errCodeOf c := rfl
@[simp] theorem reject_targetFreq : (reject c s).targetFreq = s.targetFreq := rfl
@[simp] theorem reject_targetPw : (reject c s).targetPw = s.targetPw := rfl
@[simp] theorem reject_kernelT : (reject c s).kernelT = s.kernelT := rfl
@[simp] theorem reject_kernelBThis : (reject c s).kernelBThis = s.kernelBThis := rfl
@[simp] theorem reject_kernelBNext : (reject c s).kernelBNext = s.kernelBNext := rfl
@[simp] theorem reject_kernelIThis : (reject c s).kernelIThis = s.kernelIThis := rfl
@[simp] theorem reject_kernelINext : (reject c s).kernelINext = s.kernelINext := rfl
@[simp] theorem reject_mem : (reject c s).mem = s.mem := rfl
@[simp] theorem reject_host : (reject c s).host = s.host := rfl
@[simp] theorem reject_response : (reject c s).response = s.response := rfl

@[simp] theorem respond_params : (respond r s).params = s.params := rfl
@[simp] theorem respond_osc : (respond r s).osc = s.osc := rfl
@[simp] theorem respond_err : (respond r s).err = s.err := rfl
@[simp] theorem respond_errCode : (respond r s).errCode = s.errCode := rfl
@[simp] theorem respond_targetFreq : (respond r s).targetFreq = s.targetFreq := rfl
@[simp] theorem respond_targetPw : (respond r s).targetPw = s.targetPw := rfl
@[simp] theorem respond_kernelT : (respond r s).kernelT = s.kernelT := rfl
@[simp] theorem respond_kernelBThis : (respond r s).kernelBThis = s.kernelBThis := rfl
@[simp] theorem respond_kernelBNext : (respond r s).kernelBNext = s.kernelBNext := rfl
@[simp] theorem respond_kernelIThis : (respond r s).kernelIThis = s.kernelIThis := rfl
@[simp] theorem respond_kernelINext : (respond r s).kernelINext = s.kernelINext := rfl
@[simp] theorem respond_mem : (respond r s).mem = s.mem := rfl
@[simp] theorem respond_host : (respond r s).host = s.host := rfl
@[simp] theorem respond_response : (respond r s).response = some r := rfl

@[simp] theorem writeStatus_params : (writeStatus x s).params = s.params := by unfold writeStatus; split <;> rfl
@[simp] theorem writeStatus_osc : (writeStatus x s).osc = s.osc := by unfold writeStatus; split <;> rfl
@[simp] theorem writeStatus_err : (writeStatus x s).err = (!x.getLsbD 0 && s.err) := by
  unfold writeStatus; split <;> simp_all
@[simp] theorem writeStatus_errCode : (writeStatus x s).errCode = if x.getLsbD 0 then 0#4 else s.errCode := by
  unfold writeStatus; split <;> rfl
@[simp] theorem writeStatus_targetFreq : (writeStatus x s).targetFreq = s.targetFreq := by unfold writeStatus; split <;> rfl
@[simp] theorem writeStatus_targetPw : (writeStatus x s).targetPw = s.targetPw := by unfold writeStatus; split <;> rfl
@[simp] theorem writeStatus_kernelT : (writeStatus x s).kernelT = s.kernelT := by unfold writeStatus; split <;> rfl
@[simp] theorem writeStatus_kernelBThis : (writeStatus x s).kernelBThis = s.kernelBThis := by
  unfold writeStatus; split <;> rfl
@[simp] theorem writeStatus_kernelBNext : (writeStatus x s).kernelBNext = s.kernelBNext := by
  unfold writeStatus; split <;> rfl
@[simp] theorem writeStatus_kernelIThis : (writeStatus x s).kernelIThis = s.kernelIThis := by
  unfold writeStatus; split <;> rfl
@[simp] theorem writeStatus_kernelINext : (writeStatus x s).kernelINext = s.kernelINext := by
  unfold writeStatus; split <;> rfl
@[simp] theorem writeStatus_mem : (writeStatus x s).mem = s.mem := by unfold writeStatus; split <;> rfl
@[simp] theorem writeStatus_host : (writeStatus x s).host = s.host := by unfold writeStatus; split <;> rfl
@[simp] theorem writeStatus_response : (writeStatus x s).response = s.response := by unfold writeStatus; split <;> rfl

@[simp] theorem applyReset_params : (applyReset s).params = s.params := rfl
@[simp] theorem applyReset_host : (applyReset s).host = s.host := rfl
@[simp] theorem applyReset_osc : (applyReset s).osc = State.reset.osc := rfl
@[simp] theorem applyReset_err : (applyReset s).err = false := rfl
@[simp] theorem applyReset_errCode : (applyReset s).errCode = 0#4 := rfl
@[simp] theorem applyReset_mem : (applyReset s).mem = [] := rfl
@[simp] theorem applyReset_response : (applyReset s).response = none := rfl

variable (shape : Shape) (tz : Bool) (es : List (Option Word))

@[simp] theorem renderBlock_params : (renderBlock shape tz f p es s).params = s.params := rfl
@[simp] theorem renderBlock_err : (renderBlock shape tz f p es s).err = s.err := rfl
@[simp] theorem renderBlock_errCode : (renderBlock shape tz f p es s).errCode = s.errCode := rfl
@[simp] theorem renderBlock_targetFreq : (renderBlock shape tz f p es s).targetFreq = s.targetFreq := rfl
@[simp] theorem renderBlock_targetPw : (renderBlock shape tz f p es s).targetPw = s.targetPw := rfl
@[simp] theorem renderBlock_kernelT : (renderBlock shape tz f p es s).kernelT = s.kernelT := rfl
@[simp] theorem renderBlock_kernelBThis : (renderBlock shape tz f p es s).kernelBThis = s.kernelBThis := rfl
@[simp] theorem renderBlock_kernelBNext : (renderBlock shape tz f p es s).kernelBNext = s.kernelBNext := rfl
@[simp] theorem renderBlock_kernelIThis : (renderBlock shape tz f p es s).kernelIThis = s.kernelIThis := rfl
@[simp] theorem renderBlock_kernelINext : (renderBlock shape tz f p es s).kernelINext = s.kernelINext := rfl
@[simp] theorem renderBlock_host : (renderBlock shape tz f p es s).host = s.host := rfl
@[simp] theorem renderBlock_response : (renderBlock shape tz f p es s).response = s.response := rfl
theorem renderBlock_osc : (renderBlock shape tz f p es s).osc =
    persist (blockSamples shape s.params.kernelId tz f p es (seed f p s.osc)) (seed f p s.osc) := rfl
theorem renderBlock_mem : (renderBlock shape tz f p es s).mem =
    s.mem.writeOut 0 (blockSamples shape s.params.kernelId tz f p es (seed f p s.osc)).samples := rfl

@[simp] theorem seed_phase : (seed f p o).phase = o.phase := by unfold seed; split <;> rfl
@[simp] theorem seed_pending : (seed f p o).pending = o.pending := by unfold seed; split <;> rfl
@[simp] theorem seed_lpState : (seed f p o).lpState = o.lpState := by unfold seed; split <;> rfl
@[simp] theorem seed_hpState : (seed f p o).hpState = o.hpState := by unfold seed; split <;> rfl
@[simp] theorem seed_edgeState : (seed f p o).edgeState = o.edgeState := by unfold seed; split <;> rfl
@[simp] theorem seed_seeded : (seed f p o).seeded = true := by unfold seed; split <;> simp_all
@[simp] theorem seed_smoothFreq : (seed f p o).smoothFreq = if o.seeded then o.smoothFreq else f := by
  unfold seed; split <;> rfl
@[simp] theorem seed_smoothPw : (seed f p o).smoothPw = if o.seeded then o.smoothPw else p := by
  unfold seed; split <;> rfl

variable (d : Rendered)

@[simp] theorem persist_phase : (persist d o).phase = d.voice.phase := rfl
@[simp] theorem persist_pending : (persist d o).pending = d.voice.nextAcc := rfl
@[simp] theorem persist_lpState : (persist d o).lpState = d.voice.lpState := rfl
@[simp] theorem persist_hpState : (persist d o).hpState = d.voice.hpState := rfl
@[simp] theorem persist_edgeState : (persist d o).edgeState = d.voice.edgeState := rfl
@[simp] theorem persist_smoothFreq : (persist d o).smoothFreq = d.ramp.fi := rfl
@[simp] theorem persist_smoothPw : (persist d o).smoothPw = d.ramp.pwi := rfl
@[simp] theorem persist_seeded : (persist d o).seeded = o.seeded := rfl

@[simp] theorem startVoice_phase : (startVoice o).phase = o.phase := rfl
@[simp] theorem startVoice_edgeState : (startVoice o).edgeState = o.edgeState := rfl
@[simp] theorem startVoice_lpState : (startVoice o).lpState = o.lpState := rfl
@[simp] theorem startVoice_hpState : (startVoice o).hpState = o.hpState := rfl
@[simp] theorem startVoice_thisAcc : (startVoice o).thisAcc = F32.zero := rfl
@[simp] theorem startVoice_nextAcc : (startVoice o).nextAcc = o.pending := rfl

@[simp] theorem takePending_phase : (takePending v).phase = v.phase := rfl
@[simp] theorem takePending_edgeState : (takePending v).edgeState = v.edgeState := rfl
@[simp] theorem takePending_lpState : (takePending v).lpState = v.lpState := rfl
@[simp] theorem takePending_hpState : (takePending v).hpState = v.hpState := rfl
@[simp] theorem takePending_thisAcc : (takePending v).thisAcc = v.nextAcc := rfl
@[simp] theorem takePending_nextAcc : (takePending v).nextAcc = F32.zero := rfl

@[simp] theorem advance_phase : (advance f v).phase = F32.add v.phase f := rfl
@[simp] theorem advance_edgeState : (advance f v).edgeState = v.edgeState := rfl
@[simp] theorem advance_lpState : (advance f v).lpState = v.lpState := rfl
@[simp] theorem advance_hpState : (advance f v).hpState = v.hpState := rfl
@[simp] theorem advance_thisAcc : (advance f v).thisAcc = v.thisAcc := rfl
@[simp] theorem advance_nextAcc : (advance f v).nextAcc = v.nextAcc := rfl

@[simp] theorem addNaive_phase : (addNaive x v).phase = v.phase := rfl
@[simp] theorem addNaive_edgeState : (addNaive x v).edgeState = v.edgeState := rfl
@[simp] theorem addNaive_lpState : (addNaive x v).lpState = v.lpState := rfl
@[simp] theorem addNaive_hpState : (addNaive x v).hpState = v.hpState := rfl
@[simp] theorem addNaive_thisAcc : (addNaive x v).thisAcc = v.thisAcc := rfl
@[simp] theorem addNaive_nextAcc : (addNaive x v).nextAcc = F32.add v.nextAcc x := rfl

@[simp] theorem blep_phase : (blep kid h t v).phase = v.phase := rfl
@[simp] theorem blep_edgeState : (blep kid h t v).edgeState = v.edgeState := rfl
@[simp] theorem blep_lpState : (blep kid h t v).lpState = v.lpState := rfl
@[simp] theorem blep_hpState : (blep kid h t v).hpState = v.hpState := rfl
@[simp] theorem blep_thisAcc : (blep kid h t v).thisAcc = applyTurn h v.thisAcc (kernel kid .bThis t) := rfl
@[simp] theorem blep_nextAcc : (blep kid h t v).nextAcc = applyTurn h v.nextAcc (kernel kid .bNext t) := rfl

@[simp] theorem iblep_phase : (iblep kid h m t v).phase = v.phase := rfl
@[simp] theorem iblep_edgeState : (iblep kid h m t v).edgeState = v.edgeState := rfl
@[simp] theorem iblep_lpState : (iblep kid h m t v).lpState = v.lpState := rfl
@[simp] theorem iblep_hpState : (iblep kid h m t v).hpState = v.hpState := rfl
@[simp] theorem iblep_thisAcc :
    (iblep kid h m t v).thisAcc = applyTurn h v.thisAcc (F32.mul m (kernel kid .iThis t)) := rfl
@[simp] theorem iblep_nextAcc :
    (iblep kid h m t v).nextAcc = applyTurn h v.nextAcc (F32.mul m (kernel kid .iNext t)) := rfl

variable (fam : Family) (side : Side)

@[simp] theorem correctEdge_phase : (correctEdge kid fam side t v).phase = v.phase := by cases fam <;> cases side <;> rfl
@[simp] theorem correctEdge_edgeState : (correctEdge kid fam side t v).edgeState = v.edgeState := by
  cases fam <;> cases side <;> rfl
@[simp] theorem correctEdge_lpState : (correctEdge kid fam side t v).lpState = v.lpState := by
  cases fam <;> cases side <;> rfl
@[simp] theorem correctEdge_hpState : (correctEdge kid fam side t v).hpState = v.hpState := by
  cases fam <;> cases side <;> rfl
@[simp] theorem correctWrap_phase : (correctWrap kid fam h t v).phase = v.phase := by cases fam <;> rfl
@[simp] theorem correctWrap_edgeState : (correctWrap kid fam h t v).edgeState = v.edgeState := by cases fam <;> rfl
@[simp] theorem correctWrap_lpState : (correctWrap kid fam h t v).lpState = v.lpState := by cases fam <;> rfl
@[simp] theorem correctWrap_hpState : (correctWrap kid fam h t v).hpState = v.hpState := by cases fam <;> rfl

variable (pw : Word)

@[simp] theorem wrapSaw_edgeState : (wrapSaw kid tz f v).edgeState = v.edgeState := by
  unfold wrapSaw; split <;> [rfl; (split <;> rfl)]
@[simp] theorem wrapSaw_lpState : (wrapSaw kid tz f v).lpState = v.lpState := by
  unfold wrapSaw; split <;> [rfl; (split <;> rfl)]
@[simp] theorem wrapSaw_hpState : (wrapSaw kid tz f v).hpState = v.hpState := by
  unfold wrapSaw; split <;> [rfl; (split <;> rfl)]
@[simp] theorem edge_phase : (edge kid fam f pw v).phase = v.phase := by unfold edge; simp only []; split <;> simp
@[simp] theorem edge_edgeState : (edge kid fam f pw v).edgeState = sideOf v.phase pw := by
  unfold edge; simp only []; split <;> simp_all
@[simp] theorem edge_lpState : (edge kid fam f pw v).lpState = v.lpState := by unfold edge; simp only []; split <;> simp
@[simp] theorem edge_hpState : (edge kid fam f pw v).hpState = v.hpState := by unfold edge; simp only []; split <;> simp
@[simp] theorem wrapPulse_lpState : (wrapPulse kid fam tz f v).lpState = v.lpState := by
  unfold wrapPulse; split <;> [simp; (split <;> simp)]
@[simp] theorem wrapPulse_hpState : (wrapPulse kid fam tz f v).hpState = v.hpState := by
  unfold wrapPulse; split <;> [simp; (split <;> simp)]

/-- The phase after a wrap is the same for every shape (R132, R134, R135). -/
theorem wrapSaw_phase : (wrapSaw kid tz f v).phase =
    if wrapsForward v then F32.sub v.phase F32.one
    else if wrapsBackward tz v then F32.add v.phase F32.one else v.phase := by
  unfold wrapSaw; split <;> [rfl; (split <;> rfl)]

theorem wrapPulse_phase : (wrapPulse kid fam tz f v).phase =
    if wrapsForward v then F32.sub v.phase F32.one
    else if wrapsBackward tz v then F32.add v.phase F32.one else v.phase := by
  unfold wrapPulse; split <;> [simp; (split <;> simp)]

theorem wrapPulse_edgeState : (wrapPulse kid fam tz f v).edgeState =
    if wrapsForward v then .low else if wrapsBackward tz v then .high else v.edgeState := by
  unfold wrapPulse; split <;> [simp; (split <;> simp)]

end Sys2Proof.Machine
end

