-- ==== Sys2Proof/Laws/Render.lean ====
section
/-! SUPPORT. RENDER said once: how the FM scan ends, how the checks end, what the sample loop keeps, and what RENDER answers. -/

namespace Sys2Proof.Machine

open Sys2Proof

/-- Every RENDER arm of exec is RENDER of its shape (40_render.md R100). -/
@[simp] theorem exec_renderOf (shape : Shape) (tz fm : Bool) (size : Nat) (s : State) :
    exec (renderOf shape tz fm size) s = render shape tz fm size s := by cases shape <;> rfl

/-- An FM_BUF word the scan accepts (40_render.md R103). -/
def fmWordFinite (m : Memory) (k : Nat) : Prop := ∃ e, m.readWord (fmOffset k) = some e ∧ F32.isFinite e = true

/-- The scan accepts exactly the words it is given, when all are written and finite. -/
theorem scanFm_finite {m : Memory} {k count : Nat} {es : List Word} (h : scanFm m k count = .finite es) :
    es.length = count ∧
      ∀ j (hj : j < es.length), m.readWord (fmOffset (k + j)) = some es[j] ∧ F32.isFinite es[j] = true := by
  induction count generalizing k es with
  | zero => simp only [scanFm, FmScan.finite.injEq] at h; subst h; simp
  | succ count ih =>
    unfold scanFm at h
    split at h
    · simp at h
    next e he =>
      split at h
      next hfin =>
        split at h
        next es' hes =>
          simp only [FmScan.finite.injEq] at h
          subst h
          obtain ⟨hl, hall⟩ := ih hes
          refine ⟨by simp [hl], fun j hj => ?_⟩
          cases j with
          | zero => exact ⟨he, hfin⟩
          | succ j => simpa [Nat.add_assoc, Nat.add_comm 1 j] using hall j (by simpa using hj)
        · simp at h
        · simp at h
      · simp at h

theorem scanFm_of_all_finite {m : Memory} {k count : Nat} (h : ∀ j, j < count → fmWordFinite m (k + j)) :
    ∃ es, scanFm m k count = .finite es := by
  induction count generalizing k with
  | zero => exact ⟨[], rfl⟩
  | succ count ih =>
    obtain ⟨e, he, hfin⟩ := h 0 (Nat.succ_pos _)
    obtain ⟨es, hes⟩ := ih (k := k + 1) fun j hj => by
      have := h (j + 1) (by omega)
      rwa [show k + 1 + j = k + (j + 1) by omega]
    refine ⟨e :: es, ?_⟩
    unfold scanFm
    rw [Nat.add_zero] at he
    simp only [he, hfin, if_true, hes]

/-- A non-finite word ends the scan at the first word that is not accepted (60_exceptions.md R217). -/
theorem scanFm_nonFinite {m : Memory} {k count : Nat} (h : scanFm m k count = .nonFinite) :
    ∃ j, j < count ∧ (∀ i, i < j → fmWordFinite m (k + i)) ∧
      ∃ e, m.readWord (fmOffset (k + j)) = some e ∧ F32.isFinite e = false := by
  induction count generalizing k with
  | zero => simp [scanFm] at h
  | succ count ih =>
    unfold scanFm at h
    split at h
    · simp at h
    next e he =>
      split at h
      next hfin =>
        split at h
        · simp at h
        next hrest =>
          obtain ⟨j, hj, hbefore, hat⟩ := ih hrest
          refine ⟨j + 1, by omega, fun i hi => ?_, by rwa [show k + (j + 1) = k + 1 + j by omega]⟩
          cases i with
          | zero => exact ⟨e, he, hfin⟩
          | succ i => have := hbefore i (by omega); rwa [show k + (i + 1) = k + 1 + i by omega]
        · simp at h
      next hfin => exact ⟨0, by omega, fun i hi => absurd hi (Nat.not_lt_zero i), e, he, by simpa using hfin⟩

/-- An unwritten word ends the scan at the first word that is not accepted (60_exceptions.md R216, R217). -/
theorem scanFm_unwritten {m : Memory} {k count off : Nat} (h : scanFm m k count = .unwritten off) :
    ∃ j, j < count ∧ off = fmOffset (k + j) ∧ (∀ i, i < j → fmWordFinite m (k + i)) ∧
      m.readWord (fmOffset (k + j)) = none := by
  induction count generalizing k with
  | zero => simp [scanFm] at h
  | succ count ih =>
    unfold scanFm at h
    split at h
    next he =>
      simp only [FmScan.unwritten.injEq] at h
      exact ⟨0, by omega, h.symm, fun i hi => absurd hi (Nat.not_lt_zero i), he⟩
    next e he =>
      split at h
      next hfin =>
        split at h
        · simp at h
        · simp at h
        next off' hrest =>
          simp only [FmScan.unwritten.injEq] at h
          subst h
          obtain ⟨j, hj, hoff, hbefore, hat⟩ := ih hrest
          refine ⟨j + 1, by omega, by rw [hoff]; congr 1; omega, fun i hi => ?_,
            by rwa [show k + (j + 1) = k + 1 + j by omega]⟩
          cases i with
          | zero => exact ⟨e, he, hfin⟩
          | succ i => have := hbefore i (by omega); rwa [show k + (i + 1) = k + 1 + i by omega]
      · simp at h

/-- How the checks of RENDER can end (40_render.md R100 to R104, 60_exceptions.md R217). -/
theorem checkRender_cases (tz fm : Bool) (size : Nat) (s : State) :
    (s.params.maxBlockSize < size ∧ checkRender tz fm size s = .rejected .size) ∨
      (size ≤ s.params.maxBlockSize ∧
        ((size = 0 ∧ checkRender tz fm size s = .nothing) ∨
          (0 < size ∧
            ((targetIsNaN s = true ∧ checkRender tz fm size s = .rejected .nonFinite) ∨
              (targetIsNaN s = false ∧
                ((fm = false ∧ checkRender tz fm size s =
                    .accepted (clampF s.targetFreq tz) (clampPw s.targetPw (clampF s.targetFreq tz))
                      (List.replicate size none)) ∨
                  (fm = true ∧
                    ((targetsInRange s = false ∧ checkRender tz fm size s = .rejected .range) ∨
                      (targetsInRange s = true ∧
                        ((∃ es, scanFm s.mem 0 size = .finite es ∧
                            checkRender tz fm size s = .accepted s.targetFreq s.targetPw (es.map some)) ∨
                          (scanFm s.mem 0 size = .nonFinite ∧ checkRender tz fm size s = .rejected .nonFinite) ∨
                          ∃ off, scanFm s.mem 0 size = .unwritten off ∧
                            checkRender tz fm size s = .unwritten off)))))))))) := by
  unfold checkRender
  by_cases h1 : s.params.maxBlockSize < size
  · exact .inl ⟨h1, by simp [h1]⟩
  refine .inr ⟨by omega, ?_⟩
  rcases Nat.eq_zero_or_pos size with h2 | h2
  · exact .inl ⟨h2, by simp [h2]⟩
  refine .inr ⟨h2, ?_⟩
  have h2' : size ≠ 0 := by omega
  cases h3 : targetIsNaN s
  · refine .inr ⟨rfl, ?_⟩
    cases fm
    · exact .inl ⟨rfl, by simp [h1, h2']⟩
    refine .inr ⟨rfl, ?_⟩
    cases h4 : targetsInRange s
    · exact .inl ⟨rfl, by simp [h1, h2']⟩
    refine .inr ⟨rfl, ?_⟩
    cases h5 : scanFm s.mem 0 size with
    | finite es => exact .inl ⟨es, rfl, by simp [h1, h2']⟩
    | nonFinite => exact .inr (.inl ⟨rfl, by simp [h1, h2']⟩)
    | unwritten off => exact .inr (.inr ⟨off, rfl, by simp [h1, h2']⟩)
  · exact .inl ⟨rfl, by simp [h1, h2']⟩

/-- An accepted RENDER has one entry of the FM list for each of its samples, and at least one. -/
theorem checkRender_accepted_length {tz fm : Bool} {size : Nat} {s : State} {f p : Word} {es : List (Option Word)}
    (h : checkRender tz fm size s = .accepted f p es) :
    es.length = size ∧ 0 < size ∧ size ≤ s.params.maxBlockSize := by
  rcases checkRender_cases tz fm size s with ⟨-, h1⟩ | ⟨hle, ⟨-, h1⟩ | ⟨hpos, ⟨-, h1⟩ | ⟨-, ⟨-, h1⟩ | ⟨-, ⟨-, h1⟩ | ⟨-, h1⟩⟩⟩⟩⟩
  · simp [h1] at h
  · simp [h1] at h
  · simp [h1] at h
  · rw [h1] at h; simp only [Verdict.accepted.injEq] at h; exact ⟨by simp [← h.2.2], hpos, hle⟩
  · simp [h1] at h
  · rcases h1 with ⟨es', hs, h1⟩ | ⟨-, h1⟩ | ⟨off, -, h1⟩
    · rw [h1] at h
      simp only [Verdict.accepted.injEq] at h
      exact ⟨by rw [← h.2.2, List.length_map, (scanFm_finite hs).1], hpos, hle⟩
    · simp [h1] at h
    · simp [h1] at h

/-- Everything RENDER can answer with a next state: nothing, a reject, or the rendered block (40_render.md R100). -/
theorem render_next {shape : Shape} {tz fm : Bool} {size : Nat} {s t : State} (h : render shape tz fm size s = .next t) :
    t = s ∨ (∃ c, t = reject c s) ∨
      ∃ f p es, checkRender tz fm size s = .accepted f p es ∧ t = renderBlock shape tz f p es s := by
  unfold render at h
  split at h
  · simp only [Host.Outcome.next.injEq] at h; exact .inl h.symm
  · simp only [Host.Outcome.next.injEq] at h; exact .inr (.inl ⟨_, h.symm⟩)
  · simp at h
  next hc => simp only [Host.Outcome.next.injEq] at h; exact .inr (.inr ⟨_, _, _, hc, h.symm⟩)

/-- RENDER faults only at an unwritten FM_BUF word of its block (60_exceptions.md R216). -/
theorem render_fault {shape : Shape} {tz fm : Bool} {size : Nat} {s : State} {x : Fault}
    (h : render shape tz fm size s = .fault x) :
    ∃ j, j < size ∧ size ≤ s.params.maxBlockSize ∧ x = .readUnwritten (fmOffset j) ∧ s.mem.readWord (fmOffset j) = none := by
  unfold render at h
  rcases checkRender_cases tz fm size s with ⟨-, h1⟩ | ⟨hle, ⟨-, h1⟩ | ⟨hpos, ⟨-, h1⟩ | ⟨-, ⟨-, h1⟩ | ⟨-, ⟨-, h1⟩ | ⟨-, h1⟩⟩⟩⟩⟩
  · simp [h1] at h
  · simp [h1] at h
  · simp [h1] at h
  · simp [h1] at h
  · simp [h1] at h
  · rcases h1 with ⟨es', hs, h1⟩ | ⟨-, h1⟩ | ⟨off, hs, h1⟩
    · simp [h1] at h
    · simp [h1] at h
    · simp only [h1, Host.Outcome.fault.injEq] at h
      obtain ⟨j, hj, hoff, -, hnone⟩ := scanFm_unwritten hs
      rw [Nat.zero_add] at hoff hnone
      exact ⟨j, hj, hle, by rw [← h, hoff], hnone⟩

/-- No RENDER is refused. -/
theorem render_ne_refused (shape : Shape) (tz fm : Bool) (size : Nat) (s : State) (r : Refusal) :
    render shape tz fm size s ≠ .refused r := by
  unfold render
  split <;> simp

/-! The sample loop -/

@[simp] theorem renderLoop_samples_length (shape : Shape) (kid : BitVec 8) (tz : Bool) (incF incPw : Word)
    (es : List (Option Word)) (r : Ramp) (v : Voice) :
    (renderLoop shape kid tz incF incPw es r v).samples.length = es.length := by
  induction es generalizing r v with
  | nil => rfl
  | cons e es ih => simp [renderLoop, ih]

@[simp] theorem blockSamples_length (shape : Shape) (kid : BitVec 8) (tz : Bool) (f p : Word) (es : List (Option Word))
    (o : Osc) : (blockSamples shape kid tz f p es o).samples.length = es.length := by simp [blockSamples]

/-- The interpolator's outputs after a loop depend on its length only (40_render.md R110). -/
theorem renderLoop_ramp (shape : Shape) (kid : BitVec 8) (tz : Bool) (incF incPw : Word) (es : List (Option Word)) (r : Ramp)
    (v : Voice) : (renderLoop shape kid tz incF incPw es r v).ramp = (rampStep incF incPw)^[es.length] r := by
  induction es generalizing r v with
  | nil => rfl
  | cons e es ih => simp [renderLoop, ih]

/-- What every sample step keeps, the loop keeps. -/
theorem renderLoop_invariant {shape : Shape} {kid : BitVec 8} {tz : Bool} {incF incPw : Word} (P : Voice → Prop)
    (hstep : ∀ e r v, P v → P (sample shape kid tz e r v).1) (es : List (Option Word)) (r : Ramp) (v : Voice) (hv : P v) :
    P (renderLoop shape kid tz incF incPw es r v).voice := by
  induction es generalizing r v with
  | nil => exact hv
  | cons e es ih => exact ih _ _ (hstep _ _ _ hv)

end Sys2Proof.Machine
end

