-- ==== Sys2Proof/Laws/Step.lean ====
section
/-! SUPPORT. What one step can do, said once for each kind of request. -/

namespace Sys2Proof.Machine

open Sys2Proof

/-- A read answers and changes nothing else, or it is the model fault of an unwritten buffer word (20_memory.md R54). -/
theorem busRead_cases (off width : Nat) (s : State) :
    (∃ r, busRead off width s = .next (respond r s)) ∨
      (busRead off width s = .fault (.readUnwritten off) ∧ s.mem.readWord off = none ∧
        ∃ n, locate s.params off = some (.fmBuf n) ∨ locate s.params off = some (.outBuf n)) := by
  unfold busRead
  split
  · exact .inl ⟨_, rfl⟩
  · split
    · exact .inl ⟨_, rfl⟩
    · exact .inl ⟨_, rfl⟩
    next n hn =>
      unfold readBuffer
      split
      · exact .inl ⟨_, rfl⟩
      next h => exact .inr ⟨rfl, h, n, .inl hn⟩
    next n hn =>
      unfold readBuffer
      split
      · exact .inl ⟨_, rfl⟩
      next h => exact .inr ⟨rfl, h, n, .inr hn⟩

/-- A write is refused by the bus, executes a command, changes one of STATUS and the three RW registers, or stores a word of
FM_BUF (20_memory.md R54). -/
theorem busWrite_cases (off width : Nat) (w : Word) (s : State) :
    busWrite off width w s = .next (respond .writeError s) ∨
      busWrite off width w s = command w (respond .writeDone s) ∨
      busWrite off width w s = .next (writeStatus w (respond .writeDone s)) ∨
      busWrite off width w s = .next { respond .writeDone s with targetFreq := w } ∨
      busWrite off width w s = .next { respond .writeDone s with targetPw := w } ∨
      busWrite off width w s = .next { respond .writeDone s with kernelT := w } ∨
      ∃ n, locate s.params off = some (.fmBuf n) ∧
        busWrite off width w s = .next { respond .writeDone s with mem := s.mem.writeWord off w } := by
  unfold busWrite
  split
  · exact .inl rfl
  · split
    · exact .inl rfl
    next r _ => cases r <;> simp [writeReg, refuseWrite]
    next n hn => exact .inr (.inr (.inr (.inr (.inr (.inr ⟨n, hn, rfl⟩)))))
    · exact .inl rfl

/-- A command word runs its command or is rejected with code 1 (30_encoding.md R71, 43_control.md R193). -/
theorem command_cases (w : Word) (s : State) :
    (∃ i, decode w = .ok i ∧ command w s = exec i s) ∨
      (∃ x, decode w = .error x ∧ command w s = .next (reject .illegalCmd s)) := by
  unfold command
  split
  next i hi => exact .inl ⟨i, hi, rfl⟩
  next x hx => exact .inr ⟨x, hx, rfl⟩

/-- With no request the block waits (70_reset_and_hazards.md R232). -/
theorem step_idle {s : State} (h : s.host = []) : step s = .next s := by simp [step, h]

/-- With a request the oldest one is served. -/
theorem step_serve {s : State} {q : BusRequest} {rest : List BusRequest} (h : s.host = q :: rest) :
    step s = serve q { s with host := rest } := by simp [step, h]

@[simp] theorem windowOffset_base_add (p : Params) {off : Nat} (h : off < 0x4000) :
    windowOffset p (p.base + off) = some off := by
  unfold windowOffset
  rw [if_pos (by omega), Nat.add_sub_cancel_left]

/-- The write to CMD executes its word (10_state.md R42). -/
theorem serve_commandWrite (w : Word) (s : State) :
    serve (commandWrite s.params w) s = command w (respond .writeDone s) := by
  have h : locate s.params 0x008 = some (.reg .cmd) := rfl
  simp only [serve, commandWrite, windowOffset_base_add _ (show 0x008 < 0x4000 by decide), busWrite, h, writeReg]
  simp

end Sys2Proof.Machine
end

