-- ==== Sys2Proof/Tests/Slice0.lean ====
section
/-! SUPPORT. The model's own tests: ill-formed terms, the words of the spec's encodings, one step of each command against the
vectors of 95_test_vectors.md, and a witness for the hypotheses of every statement. -/

namespace Sys2Proof.Tests

open Sys2Proof Sys2Proof.Machine Sys2Proof.Safety

/-! ## Helpers -/

/-- The next state, if there is one. -/
def nextOf (o : Host.Outcome State Fault Refusal) : Option State :=
  match o with
  | .next t => some t
  | .fault _ => none
  | .refused _ => none

/-- The fault, if there is one. -/
def faultOf (o : Host.Outcome State Fault Refusal) : Option Fault :=
  match o with
  | .next _ => none
  | .fault x => some x
  | .refused _ => none

/-- The first four words of OUT_BUF after a step. -/
def out4 (o : Host.Outcome State Fault Refusal) : Option (List (Option Word)) :=
  (nextOf o).map fun t => [0x2000, 0x2004, 0x2008, 0x200C].map t.mem.readWord

/-- The oscillator's eight registers after a step. -/
def oscOf (o : Host.Outcome State Fault Refusal) : Option Osc := (nextOf o).map (·.osc)

/-- STATUS after a step. -/
def statusOf (o : Host.Outcome State Fault Refusal) : Option Word := (nextOf o).map fun t => statusWord t.err t.errCode

/-- The answer on the bus after a step. -/
def answerOf (o : Host.Outcome State Fault Refusal) : Option BusResponse := (nextOf o).bind (·.response)

/-- The block after reset with TARGET_FREQ and TARGET_PW written. -/
def tuned (tf tp : Word) : State := { State.reset with targetFreq := tf, targetPw := tp }

/-- The block after reset with KERNEL_T written. -/
def withT (x : Word) : State := { State.reset with kernelT := x }

/-- The words of FM_BUF from FM_BUF[0]. -/
def fmFilled : Nat → List Word → Memory → Memory
  | _, [], m => m
  | n, e :: es, m => fmFilled (n + 1) es (m.writeWord (0x1000 + 4 * n) e)

/-- The tuned block with FM_BUF[0], FM_BUF[1], … written. -/
def modulated (tf tp : Word) (es : List Word) : State := { tuned tf tp with mem := fmFilled 0 es [] }

/-- The block after reset with requests queued. -/
def asked (qs : List BusRequest) : State := { State.reset with host := qs }

/-- A voice at a phase with EDGE_STATE. -/
def voiceAt (phase : Word) (side : Side) : Voice :=
  { phase := phase, edgeState := side, lpState := 0#32, hpState := 0#32, thisAcc := 0#32, nextAcc := 0#32 }

/-! ## Well-formedness: an ill-formed term for each check -/

theorem test_size_over_16_bits_is_ill_formed :
    (Instr.renderImpulse false false 65536).wellFormed = false ∧ (Instr.renderSaw true false 65536).wellFormed = false ∧
      (Instr.renderTriangle false true 65536).wellFormed = false ∧ (Instr.renderSlope true true 70000).wellFormed = false ∧
      (Instr.renderSquare false false 65536).wellFormed = false ∧
      (Instr.renderSquareBright false false 65536).wellFormed = false ∧
      (Instr.renderSquareDark false false 65536).wellFormed = false ∧
      (Instr.renderSquareTriangle false false 65536).wellFormed = false := by decide

theorem test_base_off_the_window_grid_is_ill_formed : { Params.default with base := 0x2000 }.wellFormed = false := by decide
theorem test_no_block_is_ill_formed : { Params.default with maxBlockSize := 0 }.wellFormed = false := by decide
theorem test_block_over_1024_is_ill_formed : { Params.default with maxBlockSize := 1025 }.wellFormed = false := by decide

/-! ## Decoding: words written out from 30_encoding.md R70, R73, R76 -/

theorem test_decode_nop : decodeTableWord 32 0x00000000 = some .nop := by decide
theorem test_decode_init : decodeTableWord 32 0x00000001 = some .init := by decide
theorem test_decode_keval : decodeTableWord 32 0x00000003 = some .keval := by decide
/-- SIZE 0x0004, RSV 0000000, FM 0, TZ 0, SHAPE 000, OP 0010. -/
theorem test_decode_impulse :
    decode 0b00000000000001000000000000000010#32 = .ok (.renderImpulse false false 4) := by decide
/-- SIZE 0x0004, RSV 0000000, FM 1, TZ 1, SHAPE 001, OP 0010 (30_encoding.md R79: 0x00040192). -/
theorem test_decode_saw : decode 0b00000000000001000000000110010010#32 = .ok (.renderSaw true true 4) := by decide
/-- SIZE 0x8000, FM 0, TZ 1, SHAPE 010. -/
theorem test_decode_triangle :
    decode 0b10000000000000000000000010100010#32 = .ok (.renderTriangle true false 32768) := by decide
/-- SIZE 1, FM 1, TZ 0, SHAPE 011. -/
theorem test_decode_slope : decode 0b00000000000000010000000100110010#32 = .ok (.renderSlope false true 1) := by decide
/-- SIZE 100, FM 0, TZ 0, SHAPE 100 (30_encoding.md R79: 0x00640042). -/
theorem test_decode_square : decode 0b00000000011001000000000001000010#32 = .ok (.renderSquare false false 100) := by decide
/-- SIZE 4, FM 0, TZ 0, SHAPE 101. -/
theorem test_decode_square_bright :
    decode 0b00000000000001000000000001010010#32 = .ok (.renderSquareBright false false 4) := by decide
/-- SIZE 4, FM 0, TZ 0, SHAPE 110. -/
theorem test_decode_square_dark :
    decode 0b00000000000001000000000001100010#32 = .ok (.renderSquareDark false false 4) := by decide
/-- V-E8: SIZE 65535, FM 1, TZ 1, SHAPE 111. -/
theorem test_decode_square_triangle :
    decode 0b11111111111111110000000111110010#32 = .ok (.renderSquareTriangle true true 65535) := by decide
/-- V-E9 to V-E15. -/
theorem test_decode_illegal :
    decode 0x00000202#32 = .error .reservedBits ∧ decode 0x00000302#32 = .error .reservedBits ∧
      decode 0x00000101#32 = .error .controlWordBits ∧ decode 0x80000003#32 = .error .controlWordBits ∧
      decode 0x00000004#32 = .error .unassignedOp ∧ decode 0x0000000F#32 = .error .unassignedOp ∧
      decode 0x00000010#32 = .error .controlWordBits := by decide
/-- 30_encoding.md R79. -/
theorem test_encode_square : encode (.renderSquare false false 100) = 0x00640042#32 := by decide
theorem test_encode_saw : encode (.renderSaw true true 4) = 0x00040192#32 := by decide

/-! ## Commands against the vectors of 95_test_vectors.md -/

/-- V-C1's NOP: only the answer is new. -/
theorem test_nop : nextOf (step ((tuned 0x3E800000#32 0x3F000000#32).withFetchWord 32 0)) =
    some { tuned 0x3E800000#32 0x3F000000#32 with response := some .writeDone } := by decide

/-- V-C2 and V-C3: INIT resets the oscillator and keeps STATUS and the targets. -/
theorem test_init :
    let s :=
      { tuned 0x3C23D70A#32 0x3F000000#32 with
        err := true
        errCode := 1#4
        osc := { State.reset.osc with phase := 0x3EFFFFEA#32, seeded := true, edgeState := .low } }
    nextOf (step (s.withFetchWord 32 1)) = some { s with osc := State.reset.osc, response := some .writeDone } := by decide

/-- V-K2: KERNEL_T = 0.25. -/
theorem test_keval : (nextOf (exec .keval (withT 0x3E800000#32))).map (fun t =>
    [t.kernelBThis, t.kernelBNext, t.kernelIThis, t.kernelINext]) =
      some [0x3D000000#32, 0xBE900000#32, 0x3B2AAAAB#32, 0x3D900000#32] := by decide

/-- V-K9: KERNEL_T = -0.0 keeps its sign. -/
theorem test_keval_minus_zero : (nextOf (exec .keval (withT 0x80000000#32))).map (fun t =>
    [t.kernelBThis, t.kernelBNext, t.kernelIThis, t.kernelINext]) =
      some [0x00000000#32, 0xBF000000#32, 0x80000000#32, 0x3E2AAAAB#32] := by decide

/-- V-S1, IMPULSE. -/
theorem test_impulse : out4 (step ((tuned 0x3E800000#32 0x3F000000#32).withFetchWord 32 0x00040002)) =
    some [some 0x3E800000#32, some 0xBF000000#32, some 0x3F000000#32, some 0x3F000000#32] := by decide +kernel

/-- V-S1, IMPULSE: HP_STATE 0.25, LP_STATE 0.5, EDGE_STATE untouched. -/
theorem test_impulse_state : oscOf (step ((tuned 0x3E800000#32 0x3F000000#32).withFetchWord 32 0x00040002)) =
    some
      { State.reset.osc with
        phase := 0x3F000000#32
        pending := 0x3F000000#32
        lpState := 0x3F000000#32
        hpState := 0x3E800000#32
        smoothFreq := 0x3E800000#32
        seeded := true } := by decide +kernel

/-- V-R1 and V-S1, SAW. -/
theorem test_saw : out4 (step ((tuned 0x3E800000#32 0x3F000000#32).withFetchWord 32 0x00040012)) =
    some [some 0xBF800000#32, some 0x3F000000#32, some 0x00000000#32, some 0xBF000000#32] := by decide +kernel

/-- V-F1: SAW with external FM. -/
theorem test_saw_fm :
    out4 (step ((modulated 0x3E000000#32 0x3F000000#32
      [0x3F800000#32, 0x00000000#32, 0xBF000000#32, 0x40400000#32]).withFetchWord 32 0x00040112)) =
    some [some 0xBF800000#32, some 0x3F000000#32, some 0x3F400000#32, some 0x3EA00000#32] := by decide +kernel

/-- V-S1, TRIANGLE. -/
theorem test_triangle : out4 (step ((tuned 0x3E800000#32 0x3F000000#32).withFetchWord 32 0x00040022)) =
    some [some 0xBF800000#32, some 0x00000000#32, some 0xBF2AAAAA#32, some 0x00000000#32] := by decide +kernel

/-- V-S1, TRIANGLE: PENDING and EDGE_STATE. -/
theorem test_triangle_state : oscOf (step ((tuned 0x3E800000#32 0x3F000000#32).withFetchWord 32 0x00040022)) =
    some { State.reset.osc with pending := 0x3F555555#32, smoothFreq := 0x3E800000#32, seeded := true } := by decide +kernel

/-- P2's second block: SLOPE ramping frequency and pulse width, with a wrap. -/
theorem test_slope_ramp :
    let s :=
      { tuned 0x3E400000#32 0x3EC00000#32 with
        osc :=
          { State.reset.osc with
            phase := 0x3F400000#32
            pending := 0x3F000000#32
            smoothFreq := 0x3D800000#32
            seeded := true } }
    out4 (step (s.withFetchWord 32 0x00040032)) =
      some [some 0x00000000#32, some 0xBED2D2D4#32, some 0xBF474101#32, some 0xBEC409E4#32] := by decide +kernel

/-- V-T3: SLOPE in reverse. -/
theorem test_slope_reverse : out4 (step ((tuned 0xBE800000#32 0x3F000000#32).withFetchWord 32 0x000400B2)) =
    some [some 0xBFAAAAAB#32, some 0x00000000#32, some 0xBF2AAAAA#32, some 0x00000000#32] := by decide +kernel

/-- V-S1, SQUARE. -/
theorem test_square : out4 (step ((tuned 0x3E800000#32 0x3F000000#32).withFetchWord 32 0x00040042)) =
    some [some 0xBF800000#32, some 0x3F800000#32, some 0x00000000#32, some 0xBF800000#32] := by decide +kernel

/-- V-T2: SQUARE in reverse, with the startup edge. -/
theorem test_square_reverse : out4 (step ((tuned 0xBE800000#32 0x3F000000#32).withFetchWord 32 0x000400C2)) =
    some [some 0xC0000000#32, some 0xBF800000#32, some 0x00000000#32, some 0x3F800000#32] := by decide +kernel

/-- V-S1, SQUARE_BRIGHT. -/
theorem test_square_bright : out4 (step ((tuned 0x3E800000#32 0x3F000000#32).withFetchWord 32 0x00040052)) =
    some [some 0xBE800000#32, some 0x3EC00000#32, some 0xBD800000#32, some 0xBE900000#32] := by decide +kernel

/-- V-S1, SQUARE_BRIGHT: LP_STATE is -0.4375. -/
theorem test_square_bright_state : oscOf (step ((tuned 0x3E800000#32 0x3F000000#32).withFetchWord 32 0x00040052)) =
    some
      { State.reset.osc with
        pending := 0x3F000000#32
        lpState := 0xBEE00000#32
        smoothFreq := 0x3E800000#32
        seeded := true } := by decide +kernel

/-- V-S1, SQUARE_DARK. -/
theorem test_square_dark : out4 (step ((tuned 0x3E800000#32 0x3F000000#32).withFetchWord 32 0x00040062)) =
    some [some 0xBF800000#32, some 0x3F000000#32, some 0x3E800000#32, some 0xBF600000#32] := by decide +kernel

/-- V-S1, SQUARE_TRIANGLE. -/
theorem test_square_triangle : out4 (step ((tuned 0x3E800000#32 0x3F000000#32).withFetchWord 32 0x00040072)) =
    some [some 0xBF800000#32, some 0x3C800000#32, some 0x3C7C0000#32, some 0xBF7C1FC0#32] := by decide +kernel

/-! ## Rejects, faults and the bus (V-X, V-B, V-E) -/

/-- V-X1, V-X2, V-X5, V-X7 and V-X12: STATUS after the command. -/
theorem test_rejects :
    statusOf (step ((tuned 0x3E800000#32 0x3F000000#32).withFetchWord 32 0x00810012)) = some 0x00000021#32 ∧
      statusOf (step ((tuned 0x7FC00000#32 0#32).withFetchWord 32 0x00040012)) = some 0x00000031#32 ∧
      statusOf (step ((tuned 0x5F800001#32 0x3F000000#32).withFetchWord 32 0x00040112)) = some 0x00000041#32 ∧
      statusOf (step ((modulated 0x3E800000#32 0x3F000000#32 [0#32, 0x7F800000#32]).withFetchWord 32 0x00040112)) =
        some 0x00000031#32 ∧
      statusOf (step ((tuned 0x7FC00000#32 0#32).withFetchWord 32 0x00000012)) = some 0x00000000#32 := by decide +kernel

/-- V-X8 and V-E6. -/
theorem test_unwritten_fm_faults :
    faultOf (step ((modulated 0x3E800000#32 0x3F000000#32 [0#32]).withFetchWord 32 0x00040112)) = some (.readUnwritten 0x1004) ∧
      faultOf (step (State.reset.withFetchWord 32 0x00040192)) = some (.readUnwritten 0x1000) := by decide +kernel

/-- V-E9 and V-E14: ILLEGAL words. -/
theorem test_illegal_words :
    statusOf (step (State.reset.withFetchWord 32 0x00000202)) = some 0x00000011#32 ∧
      statusOf (step (State.reset.withFetchWord 32 0x0000000F)) = some 0x00000011#32 := by decide

/-- V-B1, V-B2, V-B5, V-B11, V-B12 and V-B14. -/
theorem test_bus_reads :
    answerOf (step (asked [.read 0x000 32])) = some (.readData 0x4F534301#32) ∧
      answerOf (step (asked [.read 0x004 32])) = some (.readData 0x00000080#32) ∧
      answerOf (step (asked [.read 0x050 32])) = some (.readData 0x00000001#32) ∧
      answerOf (step (asked [.read 0x016 32])) = some (.readError 0#32) ∧
      answerOf (step (asked [.read 0x02C 32])) = some (.readError 0#32) ∧
      answerOf (step (asked [.read 0x1200 32])) = some (.readError 0#32) := by decide

/-- V-B7, V-B8, V-B9 and V-B10. -/
theorem test_bus_writes :
    answerOf (step (asked [.write 0x040 32 0#32])) = some .writeError ∧
      answerOf (step (asked [.write 0x2000 32 0#32])) = some .writeError ∧
      answerOf (step (asked [.write 0x011 32 0#32])) = some .writeError ∧
      answerOf (step (asked [.write 0x014 16 0#32])) = some .writeError := by decide

/-- V-B15. -/
theorem test_bus_unwritten : faultOf (step (asked [.read 0x11FC 32])) = some (.readUnwritten 0x11FC) := by decide

/-- The block waits after reset (70_reset_and_hazards.md R232). -/
theorem test_reset_waits : nextOf (Sys2Proof.core.step Sys2Proof.core.reset) = some State.reset := by decide

/-- V-N1 c, g, h and V-N2 c, h, j: the clamps. -/
theorem test_clamps :
    clampF 0xBE99999A#32 false = 0x358637BD#32 ∧ clampF 0x80000000#32 true = 0x80000000#32 ∧
      clampF 0x33D6BF95#32 false = 0x358637BD#32 ∧ clampPw 0x3F666666#32 0x3DCCCCCD#32 = 0x3F4CCCCD#32 ∧
      clampPw 0x3F800000#32 0x358637BD#32 = 0x3F7FFFDE#32 ∧ clampPw 0x3F333333#32 0xBE4CCCCD#32 = 0x3F19999A#32 := by
  decide +kernel

/-! ## Witnesses: states and operands that meet the hypotheses of each statement, clause by clause at its boundaries -/

theorem next_of_isSome {o : Host.Outcome State Fault Refusal} (h : (nextOf o).isSome = true) : ∃ t, o = .next t := by
  cases o with
  | next t => exact ⟨t, rfl⟩
  | fault x => simp [nextOf] at h
  | refused r => simp [nextOf] at h

/-- The block after INIT or reset with legal targets and FM_BUF[0] = -1.0. -/
def ready : State := modulated 0x3E800000#32 0x3F000000#32 [0xBF800000#32]

/-- The block fitted with another kernel and placed at 0x4000. -/
def otherKernel : State := State.resetWith { base := 0x4000, maxBlockSize := 1, kernelId := 255 }

theorem accepted_full : renderAccepted false 128 ready :=
  ⟨by decide, by decide, by decide, by decide, fun h => by simp at h⟩

theorem accepted_fm : renderAccepted true 1 ready :=
  ⟨by decide, by decide, by decide, by decide, fun _ => ⟨by decide, by decide, fun k hk =>
    ⟨0xBF800000#32, by obtain rfl : k = 0 := by omega
                       decide, by decide⟩⟩⟩

/-- A target at FM_TARGET_LIMIT is accepted with FM = 1, and an infinite one with FM = 0. -/
theorem accepted_limits :
    renderAccepted true 1 { ready with targetFreq := 0xDF800000#32, targetPw := 0x5F800000#32 } ∧
      renderAccepted false 1 { ready with targetFreq := 0xFF800000#32, targetPw := 0x7F800000#32 } :=
  ⟨⟨by decide, by decide, by decide, by decide, fun _ => ⟨by decide, by decide, fun k hk =>
      ⟨0xBF800000#32, by obtain rfl : k = 0 := by omega
                         decide, by decide⟩⟩⟩,
    ⟨by decide, by decide, by decide, by decide, fun h => by simp at h⟩⟩

theorem witness_DecodeOfEncodeIsTheCommand : (Instr.renderSaw true true 65535).wellFormed = true := by decide

theorem witness_EncodeOfDecodeIsTheWord : decode 0xFFFF01F2#32 = .ok (.renderSquareTriangle true true 65535) := by decide

theorem witness_DecodeFollowsTheRowsInOrder :
    (0#32).toNat = 0 ∧ (1#32).toNat = 1 ∧ (3#32).toNat = 3 ∧
      ((0xFFFF01F2#32).toNat % 16 = 2 ∧ (0xFFFF01F2#32).toNat / 2 ^ 9 % 2 ^ 7 = 0 ∧
        shapeCode .squareTriangle = (0xFFFF01F2#32).toNat / 2 ^ 4 % 2 ^ 3) ∧
      ((2#32).toNat % 16 = 2 ∧ (2#32).toNat / 2 ^ 9 % 2 ^ 7 = 0 ∧ shapeCode .impulse = (2#32).toNat / 2 ^ 4 % 2 ^ 3) ∧
      ¬ ((4#32).toNat % 16 = 2 ∧ (4#32).toNat / 2 ^ 9 % 2 ^ 7 = 0) ∧
      ¬ ((0xFE02#32).toNat % 16 = 2 ∧ (0xFE02#32).toNat / 2 ^ 9 % 2 ^ 7 = 0) := by decide

theorem witness_IllegalWordsAreRejectedWithCodeOne :
    (∃ x, decode 0x00000004#32 = .error x) ∧ (∃ x, decode 0xFFFFFFFF#32 = .error x) ∧
      (∃ x, decode 0x00000010#32 = .error x) ∧ ∃ x, decode 0x00000202#32 = .error x :=
  ⟨⟨_, rfl⟩, ⟨_, rfl⟩, ⟨_, rfl⟩, ⟨_, rfl⟩⟩

theorem witness_StepRunsTheDecodedCommand :
    decode 0x00800172#32 = .ok (.renderSquareTriangle false true 128) ∧
      (asked [.write 0x008 32 0x00800172#32]).host =
        .write ((asked [.write 0x008 32 0x00800172#32]).params.base + 0x008) 32 0x00800172#32 :: [] ∧
      decode 0xFFFFFFFF#32 = .error .unassignedOp ∧
      (asked [.write 0x008 32 0xFFFFFFFF#32]).host =
        .write ((asked [.write 0x008 32 0xFFFFFFFF#32]).params.base + 0x008) 32 0xFFFFFFFF#32 :: [] := by decide

theorem witness_WaitingAndForeignAccessesChangeNothing :
    otherKernel.host = [] ∧ (0x3FFF < otherKernel.params.base) ∧ (otherKernel.params.base + 0x4000 ≤ 0x8000) ∧
      { otherKernel with host := [.read 0x3FFF 32] }.host = .read 0x3FFF 32 :: [] ∧
      { otherKernel with host := [.write 0x8000 8 0#32] }.host = .write 0x8000 8 0#32 :: [] := by decide

/-- The last words of both buffers, unwritten. -/
theorem witness_TheOnlyFaultIsReadUnwritten :
    faultOf (step (asked [.read 0x11FC 32])) = some (.readUnwritten 0x11FC) ∧
      faultOf (step (asked [.read 0x21FC 32])) = some (.readUnwritten 0x21FC) ∧
      State.reset.params.wellFormed = true ∧ 127 < State.reset.params.maxBlockSize ∧
      (asked [.read (0 + (0x1000 + 4 * 127)) 32]).host = .read (State.reset.params.base + (0x1000 + 4 * 127)) 32 :: [] ∧
      State.reset.mem.readWord (0x1000 + 4 * 127) = none ∧ State.reset.mem.readWord (0x2000 + 4 * 127) = none := by decide

theorem witness_ResetPutsEveryRegisterAtItsValue : (asked [.reset, .read 0 32]).host = .reset :: [.read 0 32] := rfl

theorem witness_EveryStepKeepsTheMachineWellFormed :
    Inv State.reset ∧ ∃ t, step (State.reset.withFetchWord 32 0x00810012) = .next t :=
  ⟨⟨by decide, by decide, by decide⟩, next_of_isSome (by decide)⟩

/-- A block whose phase, after a reverse wrap, is exactly 1.0. -/
theorem witness_EveryStepKeepsPhaseInTheUnitInterval :
    PhaseInv
        { ready with
          osc :=
            { ready.osc with
              phase := 0x3F800000#32
              smoothFreq := 0xF1800000#32
              smoothPw := 0x71800000#32
              seeded := true } } ∧
      PhaseInv { ready with osc := { ready.osc with phase := 0x80000000#32 } } ∧
      ∃ t, step (ready.withFetchWord 32 0x000101F2) = .next t :=
  ⟨by decide, by decide, next_of_isSome (by decide +kernel)⟩

theorem witness_ResetKeepsParametersAndQueue : { otherKernel with host := [.reset] }.host = .reset :: [] := rfl

theorem witness_KevalWritesTheFourKernelValues : State.reset.params.kernelId = 0#8 := by decide

theorem witness_KevalUsesTheFittedKernel : otherKernel.params.kernelId ≠ 0#8 := by decide

/-- The NaN, the negative value nearest to 0, the value just above 1, -0.0 and 1. -/
theorem witness_KevalSaturatesItsOperand :
    (withT 0x7F800001#32).params.kernelId = 0#8 ∧ F32.isNaN (withT 0x7F800001#32).kernelT = true ∧
      F32.lt (withT 0x80000001#32).kernelT 0#32 = true ∧ F32.lt 0x3F800000#32 (withT 0x3F800001#32).kernelT = true ∧
      (F32.le 0#32 (withT 0x80000000#32).kernelT = true ∧ F32.le (withT 0x80000000#32).kernelT 0x3F800000#32 = true) ∧
      (F32.le 0#32 (withT 0x3F800000#32).kernelT = true ∧ F32.le (withT 0x3F800000#32).kernelT 0x3F800000#32 = true) := by
  decide

theorem witness_KevalResultsAreBounded :
    (withT 0x7F800000#32).params.kernelId = 0#8 ∧ ∃ t, exec .keval (withT 0x7F800000#32) = .next t := ⟨by decide, _, rfl⟩

theorem witness_RenderChecksSizeFirst : ready.params.maxBlockSize < 129 ∧ 0 ≤ ready.params.maxBlockSize := by decide

theorem witness_RenderRejectsNaNTargets :
    0 < 128 ∧ 128 ≤ ready.params.maxBlockSize ∧ F32.isNaN (tuned 0x7F800001#32 0#32).targetFreq = true ∧
      F32.isNaN (tuned 0#32 0xFFFFFFFF#32).targetPw = true := by decide

/-- Each target above the limit by one place or infinite, every other premise met. -/
theorem witness_RenderChecksExternalFmInOrder_range :
    let s := tuned 0xDF800001#32 0#32
    let s' := tuned 0#32 0x7F800000#32
    (0 < 1 ∧ 1 ≤ s.params.maxBlockSize ∧ F32.isNaN s.targetFreq = false ∧ F32.isNaN s.targetPw = false ∧
        F32.lt 0x5F800000#32 (F32.abs s.targetFreq) = true) ∧
      (128 ≤ s'.params.maxBlockSize ∧ F32.isNaN s'.targetFreq = false ∧ F32.isNaN s'.targetPw = false ∧
        F32.lt 0x5F800000#32 (F32.abs s'.targetPw) = true) := by decide

/-- Targets at the limit, word 0 unwritten. -/
theorem witness_RenderChecksExternalFmInOrder_unwritten :
    let s := tuned 0xDF800000#32 0x5F800000#32
    0 < 1 ∧ 1 ≤ s.params.maxBlockSize ∧ F32.isNaN s.targetFreq = false ∧ F32.isNaN s.targetPw = false ∧
      F32.lt 0x5F800000#32 (F32.abs s.targetFreq) = false ∧ F32.lt 0x5F800000#32 (F32.abs s.targetPw) = false ∧
      s.mem.readWord (0x1000 + 4 * 0) = none := by decide

/-- Word 0 the largest finite value, word 1 infinite. -/
theorem witness_RenderChecksExternalFmInOrder_nonFinite :
    let s := modulated 0x5F800000#32 0#32 [0x7F7FFFFF#32, 0xFF800000#32]
    (2 ≤ s.params.maxBlockSize ∧ F32.isNaN s.targetFreq = false ∧ F32.isNaN s.targetPw = false ∧
      F32.lt 0x5F800000#32 (F32.abs s.targetFreq) = false ∧ F32.lt 0x5F800000#32 (F32.abs s.targetPw) = false) ∧
      (∀ j, j < 1 → ∃ e, s.mem.readWord (0x1000 + 4 * j) = some e ∧ F32.isFinite e = true) ∧
      s.mem.readWord (0x1000 + 4 * 1) = some 0xFF800000#32 ∧ F32.isFinite 0xFF800000#32 = false := by
  refine ⟨by decide, fun j hj => ⟨0x7F7FFFFF#32, ?_, by decide⟩, by decide, by decide⟩
  obtain rfl : j = 0 := by omega
  decide

theorem witness_RenderImpulseAndSawComplete : renderAccepted false 128 ready ∧ renderAccepted true 1 ready :=
  ⟨accepted_full, accepted_fm⟩

theorem witness_RenderUnfilteredPulseShapesComplete : renderAccepted false 128 ready ∧ renderAccepted true 1 ready :=
  ⟨accepted_full, accepted_fm⟩

theorem witness_RenderFilteredSquaresComplete : renderAccepted false 128 ready ∧ renderAccepted true 1 ready :=
  ⟨accepted_full, accepted_fm⟩

theorem witness_RenderRunsOneStepForEachSample : renderAccepted false 128 ready ∧ renderAccepted true 1 ready :=
  ⟨accepted_full, accepted_fm⟩

/-- A second memory with the same FM_BUF[0] and other words beside it. -/
theorem witness_RenderTouchesOnlyItsOwnBufferWords :
    (∃ t, exec (renderOf .slope true true 1) ready = .next t) ∧ renderAccepted true 1 ready ∧
      ∀ k, k < 1 → (fmFilled 0 [0xBF800000#32, 0x7F800000#32] []).readWord (0x1000 + 4 * k) =
        ready.mem.readWord (0x1000 + 4 * k) := by
  refine ⟨next_of_isSome (by decide +kernel), accepted_fm, fun k hk => ?_⟩
  obtain rfl : k = 0 := by omega
  decide

theorem witness_FirstBlockDoesNotRamp :
    renderAccepted false 128 ready ∧ renderAccepted true 1 ready ∧ ready.osc.seeded = false :=
  ⟨accepted_full, accepted_fm, by decide⟩

/-- INIT leaves this block as it is: both branches of the premise hold of it. -/
theorem witness_FirstSampleAfterInitIsMinusOne :
    renderAccepted false 128 ready ∧ renderAccepted true 1 ready ∧ exec .init ready = .next ready ∧
      ready.osc = State.reset.osc ∧ ready.params.kernelId = 0#8 :=
  ⟨accepted_full, accepted_fm, rfl, rfl, by decide⟩

theorem witness_BlocksWithoutThroughZeroEndBelowOne :
    PhaseInv ready ∧ renderAccepted false 128 ready ∧ renderAccepted true 1 ready :=
  ⟨by decide, accepted_full, accepted_fm⟩

/-- Another pulse width: an infinity with FM = 0, FM_TARGET_LIMIT with FM = 1. -/
theorem witness_FourShapesIgnoreThePulseWidth :
    renderAccepted false 128 ready ∧ renderAccepted false 128 { ready with targetPw := 0xFF800000#32 } ∧
      renderAccepted true 1 ready ∧ renderAccepted true 1 { ready with targetPw := 0xDF800000#32 } :=
  ⟨accepted_full, ⟨by decide, by decide, by decide, by decide, fun h => by simp at h⟩, accepted_fm,
    ⟨by decide, by decide, by decide, by decide, fun _ => ⟨by decide, by decide, fun k hk =>
      ⟨0xBF800000#32, by obtain rfl : k = 0 := by omega
                         decide, by decide⟩⟩⟩⟩

theorem witness_SawFamilyNeitherReadsNorWritesEdgeState :
    (∃ t, exec (renderOf .impulse true false 1) ready = .next t) ∧ ∃ t, exec (renderOf .saw true true 1) ready = .next t :=
  ⟨next_of_isSome (by decide +kernel), next_of_isSome (by decide +kernel)⟩

/-- Two machines that agree on what INIT keeps and differ in the oscillator, STATUS and OUT_BUF. -/
theorem witness_InitThenRenderForgetsThePast :
    let s' := { ready with err := true, errCode := 4#4, osc := otherKernel.osc, mem := ready.mem.writeOut 0 [0#32] }
    s'.params = ready.params ∧ s'.targetFreq = ready.targetFreq ∧ s'.targetPw = ready.targetPw ∧
      (∀ k, k < 1 → s'.mem.readWord (0x1000 + 4 * k) = ready.mem.readWord (0x1000 + 4 * k)) ∧
      (∃ a, exec .init ready = .next a ∧ ∃ t, exec (renderOf .saw false true 1) a = .next t) ∧
      ∃ a', exec .init s' = .next a' := by
  refine ⟨rfl, rfl, rfl, fun k hk => ?_, ⟨_, rfl, next_of_isSome (by decide +kernel)⟩, _, rfl⟩
  obtain rfl : k = 0 := by omega
  decide

/-- One next state for each kind of command, and one for each kind of write of the last clauses. -/
theorem witness_EachCommandWritesOnlyItsOwnState :
    (∃ t, exec .nop ready = .next t) ∧ (∃ t, exec .init ready = .next t) ∧ (∃ t, exec .keval ready = .next t) ∧
      (∃ t, exec (.renderSquare false false 129) ready = .next t) ∧
      (∃ t, exec (.renderSquare false true 1) ready = .next t) ∧
      (∃ t, step (asked [.write 0x010 32 1#32]) = .next t) ∧ (∃ t, step (asked [.write 0x014 32 1#32]) = .next t) ∧
      (∃ t, step (asked [.write 0x018 32 1#32]) = .next t) ∧ (∃ t, step (asked [.write 0x11FC 32 1#32]) = .next t) ∧
      ∃ t, step (asked [.reset]) = .next t :=
  ⟨⟨_, rfl⟩, ⟨_, rfl⟩, ⟨_, rfl⟩, next_of_isSome (by decide), next_of_isSome (by decide +kernel), next_of_isSome (by decide),
    next_of_isSome (by decide), next_of_isSome (by decide), next_of_isSome (by decide), next_of_isSome (by decide)⟩

theorem witness_NoCommandReadsTheErrorFlag :
    (∃ t, exec .init ready = .next t) ∧
      faultOf (exec (.renderSaw false true 2) ready) = some (.readUnwritten 0x1004) := ⟨⟨_, rfl⟩, by decide⟩

theorem witness_RegisterReadsFollowTheMap :
    { otherKernel with host := [.read 0x405C 32] }.host = .read (otherKernel.params.base + 0x05C) 32 :: [] ∧
      { otherKernel with host := [.read 0x4000 32] }.host = .read (otherKernel.params.base + 0x000) 32 :: [] := by decide

/-- The last words of both buffers, written. -/
theorem witness_RegisterReadsFollowTheMap_buffers :
    let s := { State.reset with mem := fmFilled 127 [0x7F800001#32] (fmFilled (0x400 + 127) [0x00000001#32] []) }
    s.params.wellFormed = true ∧ 127 < s.params.maxBlockSize ∧
      s.mem.readWord (0x1000 + 4 * 127) = some 0x7F800001#32 ∧ s.mem.readWord (0x2000 + 4 * 127) = some 0x00000001#32 ∧
      { s with host := [.read 0x11FC 32] }.host = .read (s.params.base + (0x1000 + 4 * 127)) 32 :: [] ∧
      { s with host := [.read 0x21FC 32] }.host = .read (s.params.base + (0x2000 + 4 * 127)) 32 :: [] := by decide

theorem witness_ReadsHaveNoSideEffect :
    (∃ t, step (asked [.read 0x3FFF 64]) = .next t) ∧ ∃ t, step (asked [.read 0x008 32]) = .next t :=
  ⟨next_of_isSome (by decide), next_of_isSome (by decide)⟩

/-- The last byte of the window, the first hole, the first word past FM_BUF, the other widths; and accesses beside them that
are served. -/
theorem witness_BusErrorsAreExactlyTheFourCauses :
    badAccess Params.default 0x3FFF 32 ∧ badAccess Params.default 0x02C 32 ∧ badAccess Params.default 0x1200 32 ∧
      badAccess Params.default 0x010 8 ∧ badAccess Params.default 0x010 64 ∧
      ¬ badAccess Params.default 0x028 32 ∧ ¬ badAccess Params.default 0x11FC 32 ∧ ¬ badAccess Params.default 0x2000 32 ∧
      badWrite Params.default 0x000 32 ∧ badWrite Params.default 0x2000 32 ∧ badWrite Params.default 0x21FC 32 ∧
      ¬ badWrite Params.default 0x018 32 ∧ ¬ badWrite Params.default 0x1000 32 ∧ Params.default.wellFormed = true := by
  unfold badWrite badAccess mapped
  refine ⟨?_, ?_, ?_, ?_, ?_, ?_, ?_, ?_, ?_, ?_, ?_, ?_, ?_, ?_⟩ <;> decide

theorem witness_StatusChangesByRejectWriteAndResetOnly :
    let s := { ready with err := true, errCode := 2#4 }
    ((0x00000001#32).toNat % 2 = 1 ∧ (0xFFFFFFFE#32).toNat % 2 = 0) ∧
      statusOf (step { s with host := [.write 0x00C 32 0x00000001#32] }) = some 0x00000000#32 ∧
      statusOf (step { s with host := [.write 0x00C 32 0xFFFFFFFE#32] }) = some 0x00000021#32 ∧
      statusOf (step { s with host := [.reset] }) = some 0x00000000#32 ∧
      statusOf (step { s with host := [.write 0x008 32 0x00000004#32] }) = some 0x00000011#32 := by decide

theorem witness_WrittenWordsAreReadBackUnchanged :
    Params.default.wellFormed = true ∧ 127 < Params.default.maxBlockSize ∧ 0x11FC = 0x1000 + 4 * 127 ∧
      ([0x010, 0x014, 0x018, 0x1000, 0x11FC].map fun off =>
        (nextOf (step (asked [.write off 32 0x7F800001#32, .read off 32]))).map fun t => answerOf (step t)) =
        List.replicate 5 (some (some (.readData 0x7F800001#32))) := by decide

/-- Below, at and above each bound, and a NaN. -/
theorem witness_ClampsFollowTheirRules :
    (F32.lt 0x358637BC#32 0x358637BD#32 = true ∧ F32.lt 0x358637BD#32 0x358637BD#32 = false ∧
        F32.lt 0xBE800001#32 0xBE800000#32 = true ∧ F32.lt 0xBE800000#32 0xBE800000#32 = false ∧
        F32.lt 0x3E800000#32 0x3E800001#32 = true ∧ F32.lt 0x3E800000#32 0x3E800000#32 = false ∧
        F32.lt 0x3E800000#32 0x7FC00000#32 = false) ∧
      (F32.lt 0x3EFFFFFF#32 (pwLow 0x3E800000#32) = true ∧ F32.lt (pwHigh 0x3E800000#32) 0x3F000001#32 = true ∧
        F32.lt 0x3F000000#32 (pwLow 0x3E800000#32) = false ∧ F32.lt (pwHigh 0x3E800000#32) 0x3F000000#32 = false) ∧
      (F32.lt 0x360637BC#32 (pwLow 0x80000000#32) = true ∧ F32.lt (pwHigh 0x80000000#32) 0x3F7FFFDF#32 = true) := by decide +kernel

theorem witness_PulseWidthFloorBindsOnlyBelowMinimumFrequency :
    F32.le 0x358637BD#32 (F32.abs 0xB58637BD#32) = true ∧ F32.le (F32.abs 0xBE800000#32) 0x3E800000#32 = true := by decide

theorem witness_SubSampleFractionIsSaturated :
    F32.isNaN 0xFFC00000#32 = true ∧ F32.lt 0xFF800000#32 0#32 = true ∧ F32.lt 0x3F800000#32 0x7F800000#32 = true ∧
      (F32.le 0#32 0x80000000#32 = true ∧ F32.le 0x80000000#32 0x3F800000#32 = true) ∧
      F32.le 0#32 0x3F800000#32 = true ∧ F32.le 0x3F800000#32 0x3F800000#32 = true := by decide

/-- 0/0, and quotients by -0.0 of both signs. -/
theorem witness_FractionAtZeroFrequencyIsSaturated :
    (F32.isFinite 0x00000000#32 = true ∧ F32.value 0x00000000#32 = 0) ∧
      (F32.isFinite 0x80000000#32 = true ∧ F32.value 0x80000000#32 = 0) ∧
      (F32.isFinite 0x80000001#32 = true ∧ F32.value 0x80000001#32 ≠ 0 ∧ F32.sign 0x80000001#32 = F32.sign 0x80000000#32) ∧
      (F32.isFinite 0x7F7FFFFF#32 = true ∧ F32.sign 0x7F7FFFFF#32 ≠ F32.sign 0x80000000#32) := by decide

/-- A phase of exactly 1.0, the negative phase nearest to 0, and -0.0, which does not wrap. -/
theorem witness_SawWrapFollowsItsRule :
    F32.le 0x3F800000#32 (voiceAt 0x3F800000#32 .low).phase = true ∧
      (F32.le 0x3F800000#32 (voiceAt 0x80000001#32 .low).phase = false ∧
        F32.lt (voiceAt 0x80000001#32 .low).phase 0#32 = true) ∧
      (F32.le 0x3F800000#32 (voiceAt 0x80000000#32 .low).phase = false ∧
        F32.lt (voiceAt 0x80000000#32 .low).phase 0#32 = false) := by decide

theorem witness_PulseShapeWrapFollowsItsRule :
    F32.le 0x3F800000#32 (voiceAt 0x3FA00000#32 .high).phase = true ∧
      (F32.le 0x3F800000#32 (voiceAt 0xBE800000#32 .low).phase = false ∧
        F32.lt (voiceAt 0xBE800000#32 .low).phase 0#32 = true) ∧
      (F32.le 0x3F800000#32 (voiceAt 0x3F7FFFFF#32 .high).phase = false ∧
        F32.lt (voiceAt 0x3F7FFFFF#32 .high).phase 0#32 = false) := by decide

/-- At PHASE = pw the side is HIGH and one place below it is LOW: no edge, a rise and a fall. -/
theorem witness_PulseWidthEdgeFollowsItsRule :
    let side := fun phase : Word => (if F32.le 0x3F000000#32 phase then Side.high else Side.low)
    side 0x3F000000#32 = (voiceAt 0x3F000000#32 .high).edgeState ∧
      (side 0x3F000000#32 ≠ (voiceAt 0x3F000000#32 .low).edgeState ∧ side 0x3F000000#32 = .high) ∧
      (side 0x3EFFFFFF#32 ≠ (voiceAt 0x3EFFFFFF#32 .high).edgeState ∧ side 0x3EFFFFFF#32 = .low) := by decide

theorem witness_SlopeFamilyStepsFollowTheirRules :
    (Shape.triangle = .triangle ∨ Shape.triangle = .slope) ∧ (Shape.slope = .triangle ∨ Shape.slope = .slope) := by decide

/-- No FM value, and the largest finite one with the largest finite interpolator output. -/
theorem witness_ControlValuesAreBounded :
    F32.isFinite 0x7F7FFFFF#32 = true ∧ F32.isNaN 0x7F800000#32 = false ∧
      (∀ x, (none : Option Word) = some x → F32.isFinite x = true) ∧
      ∀ x, some 0xFF7FFFFF#32 = some x → F32.isFinite x = true := by
  refine ⟨by decide, by decide, fun x h => by simp at h, fun x h => ?_⟩
  simp only [Option.some.injEq] at h
  subst h
  decide

/-- The interpolator of a seeded block whose baselines are at the invariant's bound, against a target of FM_TARGET_LIMIT. -/
theorem witness_EverySampleIsWithinTheControlBounds :
    let s :=
      { ready with
        targetFreq := 0xDF800000#32
        osc := { ready.osc with smoothFreq := 0x71800000#32, smoothPw := 0xF1800000#32, seeded := true } }
    let first : Ramp :=
      { fi := if s.osc.seeded then s.osc.smoothFreq else targetF true true s
        pwi := if s.osc.seeded then s.osc.smoothPw else targetP true true s }
    let rs : Nat → Ramp := fun n => Nat.rec first (fun _ r =>
      { fi := F32.add r.fi (F32.div (F32.sub (targetF true true s) first.fi) (F32.ofNat 1))
        pwi := F32.add r.pwi (F32.div (F32.sub (targetP true true s) first.pwi) (F32.ofNat 1)) }) n
    PhaseInv s ∧ renderAccepted true 1 s ∧ rs 0 = first ∧
      ∀ n, n < 1 → rs (n + 1) =
        { fi := F32.add (rs n).fi (F32.div (F32.sub (targetF true true s) (rs 0).fi) (F32.ofNat 1))
          pwi := F32.add (rs n).pwi (F32.div (F32.sub (targetP true true s) (rs 0).pwi) (F32.ofNat 1)) } :=
  ⟨by decide, ⟨by decide, by decide, by decide, by decide, fun _ => ⟨by decide, by decide, fun k hk =>
      ⟨0xBF800000#32, by obtain rfl : k = 0 := by omega
                         decide, by decide⟩⟩⟩, rfl, fun _ _ => rfl⟩

/-- Both ends of the frequency range with the one pulse width they leave, and a tiny reverse frequency at PHASE = 1.0. -/
theorem witness_EdgeStateTracksTheThreshold :
    (phaseOk (voiceAt 0x3F800000#32 .high).phase ∧ F32.le 0x358637BD#32 0x3E800000#32 = true ∧
        F32.le (pwLow 0x3E800000#32) 0x3F000000#32 = true ∧ F32.le 0x3F000000#32 (pwHigh 0x3E800000#32) = true) ∧
      (phaseOk (voiceAt 0x80000000#32 .high).phase ∧ F32.le 0xBE800000#32 0xBE800000#32 = true ∧
        F32.le (pwLow 0xBE800000#32) 0x3F000000#32 = true ∧ F32.le 0x3F000000#32 (pwHigh 0xBE800000#32) = true) ∧
      (F32.le 0xBE800000#32 0xB2800000#32 = true ∧ F32.le 0xB2800000#32 0x3E800000#32 = true ∧
        F32.le (pwLow 0xB2800000#32) 0x3F7FFFDE#32 = true ∧ F32.le 0x3F7FFFDE#32 (pwHigh 0xB2800000#32) = true) := by
  decide +kernel

/-- A tie that rounds to even, a sum that overflows, an exact zero. -/
theorem witness_SumsAreCorrectlyRounded :
    F32.isFinite 0x3F800000#32 = true ∧ F32.isFinite 0x33800000#32 = true ∧
      F32.add 0x3F800000#32 0x33800000#32 = 0x3F800000#32 ∧ F32.isFinite 0x7F7FFFFF#32 = true ∧
      F32.add 0x7F7FFFFF#32 0x7F7FFFFF#32 = 0x7F800000#32 ∧ F32.sub 0x80000000#32 0x80000000#32 = 0x00000000#32 := by decide

/-- A product that underflows to the smallest subnormal, one that overflows, and a divisor that is not zero. -/
theorem witness_ProductsAndQuotientsAreCorrectlyRounded :
    F32.isFinite 0x00000001#32 = true ∧ F32.mul 0x00000001#32 0x3F800000#32 = 0x00000001#32 ∧
      F32.mul 0x7F7FFFFF#32 0xC0000000#32 = 0xFF800000#32 ∧ F32.value 0x00000001#32 ≠ 0 ∧
      F32.div 0x3F800000#32 0x40400000#32 = 0x3EAAAAAB#32 := by decide

theorem witness_FiniteWordsStandForTheirValues :
    F32.isFinite 0x807FFFFF#32 = true ∧ F32.isFinite 0x00800000#32 = true ∧ F32.isFinite 0xFF7FFFFF#32 = true := by decide

/-- A NaN, infinities of both signs, sums that are exactly zero with and without two negative zeros, and one that is not. -/
theorem witness_SumsOfNaNsInfinitiesAndZeros :
    F32.isNaN 0x7F800001#32 = true ∧ F32.isInf 0x7F800000#32 = true ∧ F32.isInf 0xFF800000#32 = true ∧
      F32.sign 0x7F800000#32 ≠ F32.sign 0xFF800000#32 ∧ F32.isFinite 0x80000000#32 = true ∧
      F32.value 0x80000000#32 + F32.value 0x80000000#32 = 0 ∧ F32.value 0x3F800000#32 + F32.value 0xBF800000#32 = 0 ∧
      F32.value 0x00000001#32 - F32.value 0x00000002#32 ≠ 0 := by decide

/-- The same for products and quotients: a zero and a divisor that is not zero, of both signs. -/
theorem witness_ProductsAndQuotientsOfNaNsInfinitiesAndZeros :
    F32.isNaN 0xFFFFFFFF#32 = true ∧ F32.isInf 0xFF800000#32 = true ∧ F32.isFinite 0x80000000#32 = true ∧
      F32.value 0x80000000#32 = 0 ∧ F32.isFinite 0x80000001#32 = true ∧ F32.value 0x80000001#32 ≠ 0 ∧
      F32.sign 0xFF800000#32 ≠ F32.sign 0x7F800000#32 := by decide

theorem witness_ComparisonsFollowTheValues :
    F32.isNaN 0x7F800001#32 = true ∧ F32.isFinite 0xFF7FFFFF#32 = true ∧ F32.le 0x80000000#32 0x00000000#32 = true ∧
      F32.lt 0x80000000#32 0x00000000#32 = false := by decide

end Sys2Proof.Tests
end

section
/-! PROOF. Correct rounding (00_scope.md R6): `roundMag` answers the nearer of the two neighbouring magnitudes, and the four
operators on finite operands are correctly rounded. -/

namespace Sys2Proof.Machine.F32

open Sys2Proof Sys2Proof.Safety

/-! The two neighbours of an exact magnitude -/

/-- An exact magnitude lies between two neighbouring binary32 magnitudes, and rounding answers the nearer one, the even one
halfway between them, cut off at the infinity (00_scope.md R6). -/
theorem roundMag_between_neighbours (n : Nat) {d : Nat} (hd : 0 < d) :
    ∃ lo, unitsOf lo * d ≤ n ∧ n < unitsOf (lo + 1) * d ∧
      roundMag n d = min (if unitsOf lo * d + unitsOf (lo + 1) * d < 2 * n ∨
        (unitsOf lo * d + unitsOf (lo + 1) * d = 2 * n ∧ lo % 2 = 1) then lo + 1 else lo) infMag := by
  have hb := places_bounds n d
  simp only [roundMag] at hb ⊢
  generalize Nat.log2 (n / d) - 23 = e at hb ⊢
  have hdiv := Nat.div_add_mod n (d * 2 ^ e)
  have hlt : n % (d * 2 ^ e) < d * 2 ^ e := Nat.mod_lt _ (by positivity)
  have hlo : unitsOf (e * 2 ^ 23 + n / (d * 2 ^ e)) * d = d * 2 ^ e * (n / (d * 2 ^ e)) := by
    rw [unitsOf_places hb.1.le hb.2]; ring
  have hhi : unitsOf (e * 2 ^ 23 + n / (d * 2 ^ e) + 1) * d = d * 2 ^ e * (n / (d * 2 ^ e)) + d * 2 ^ e := by
    rw [Nat.add_assoc, unitsOf_places (by omega) (fun h => by have := hb.2 h; omega)]; ring
  refine ⟨e * 2 ^ 23 + n / (d * 2 ^ e), by omega, by omega, ?_⟩
  rw [hlo, hhi]
  congr 1
  split <;> split <;> omega

@[simp] theorem unitsOf_zero : unitsOf 0 = 0 := by decide

@[simp] theorem unitsOf_eq_zero {m : Nat} : unitsOf m = 0 ↔ m = 0 := by
  refine ⟨fun h => ?_, fun h => by simp [h]⟩
  by_contra hm
  have h1 := unitsOf_mono (show 1 ≤ m by omega)
  rw [h, show unitsOf 1 = 1 by decide] at h1
  omega

/-- The overflow threshold is halfway between the largest finite magnitude and the first one beyond it (00_scope.md R6). -/
theorem two_mul_threshold : 2 * ((2 ^ 25 - 1) * 2 ^ 252) = unitsOf (infMag - 1) + unitsOf infMag := by
  norm_num [unitsOf, infMag]

theorem roundMag_lt_infMag {n d : Nat} (hd : 0 < d) (h : n < (2 ^ 25 - 1) * 2 ^ 252 * d) : roundMag n d < infMag := by
  obtain ⟨lo, hlo, -, hr⟩ := roundMag_between_neighbours n hd
  have ht := congrArg (· * d) two_mul_threshold
  simp only [Nat.add_mul, Nat.mul_assoc] at ht h
  have hmono := Nat.mul_le_mul_right d (unitsOf_mono (show infMag - 1 ≤ infMag by decide))
  have hle : lo < infMag := by
    by_contra hc
    have := Nat.mul_le_mul_right d (unitsOf_mono (Nat.le_of_not_lt hc))
    omega
  rw [hr]
  rcases Nat.lt_or_ge (lo + 1) infMag with hlt | hge
  · split <;> omega
  · obtain rfl : lo = infMag - 1 := by omega
    rw [show infMag - 1 + 1 = infMag by decide, if_neg (by omega)]
    decide

theorem roundMag_eq_infMag {n d : Nat} (hd : 0 < d) (h : (2 ^ 25 - 1) * 2 ^ 252 * d ≤ n) : roundMag n d = infMag := by
  obtain ⟨lo, -, hhi, hr⟩ := roundMag_between_neighbours n hd
  have ht := congrArg (· * d) two_mul_threshold
  simp only [Nat.add_mul, Nat.mul_assoc] at ht h
  have hmono := Nat.mul_le_mul_right d (unitsOf_mono (show infMag - 1 ≤ infMag by decide))
  have hge : infMag - 1 ≤ lo := by
    by_contra hc
    have := Nat.mul_le_mul_right d (unitsOf_mono (show lo + 1 ≤ infMag - 1 by omega))
    omega
  rw [hr]
  rcases Nat.lt_or_ge lo infMag with hlt | hge'
  · obtain rfl : lo = infMag - 1 := by omega
    rw [show infMag - 1 + 1 = infMag by decide, if_pos, Nat.min_self]
    rcases Nat.eq_or_lt_of_le h with h' | h'
    · exact .inr ⟨by omega, by decide⟩
    · exact .inl (by omega)
  · exact Nat.min_eq_right (by split <;> omega)

/-- No finite magnitude is nearer than the rounded one, and one as near makes the rounded one even (00_scope.md R6). -/
theorem roundMag_nearest {n d c : Nat} (hd : 0 < d) (h : roundMag n d < infMag) (hc : c < infMag) :
    |(unitsOf (roundMag n d) * d : Int) - n| ≤ |(unitsOf c * d : Int) - n| ∧
      (|(unitsOf (roundMag n d) * d : Int) - n| = |(unitsOf c * d : Int) - n| → c ≠ roundMag n d →
        roundMag n d % 2 = 0) := by
  obtain ⟨lo, hlo, hhi, hr⟩ := roundMag_between_neighbours n hd
  rw [hr] at h
  have hmin : ∀ m, min m infMag < infMag → m < infMag := by intro m; omega
  rw [hr, Nat.min_eq_left (hmin _ h).le]
  replace h := hmin _ h
  have hbelow : c ≤ lo → unitsOf c * d ≤ unitsOf lo * d := fun h => Nat.mul_le_mul_right d (unitsOf_mono h)
  have habove : lo + 1 ≤ c → unitsOf (lo + 1) * d ≤ unitsOf c * d := fun h => Nat.mul_le_mul_right d (unitsOf_mono h)
  have hbelow' : c < lo → unitsOf c * d < unitsOf lo * d := fun hl =>
    Nat.mul_lt_mul_of_pos_right (unitsOf_lt (by split at h <;> omega) hl) hd
  have habove' : lo + 1 < c → unitsOf (lo + 1) * d < unitsOf c * d := fun hl =>
    Nat.mul_lt_mul_of_pos_right (unitsOf_lt hc hl) hd
  simp only [Int.abs_eq_natAbs, ← Int.natCast_mul]
  split
  · omega
  · omega

theorem mag_lt_infMag {a : Word} (ha : isFinite a = true) : mag a < infMag := by simpa [isFinite] using ha

theorem value_eq_zero_iff {a : Word} : value a = 0 ↔ mag a = 0 := by
  unfold value units
  cases sign a <;> simp

theorem units_pos {a : Word} (h : value a ≠ 0) : 0 < units a :=
  Nat.pos_of_ne_zero fun h0 => h (by simp [value, h0])

theorem value_pack (s : Bool) {m : Nat} (h : m < 2 ^ 31) :
    value (pack s m) = if s then -(unitsOf m : Int) else (unitsOf m : Int) := by
  rw [value, units, sign_pack s h, mag_pack s h]

theorem getLsbD_zero_pack (s : Bool) (m : Nat) : (pack s m).getLsbD 0 = decide (m % 2 = 1) := by
  simp only [pack, BitVec.getLsbD_ofNat, Nat.testBit_zero]
  cases s <;> simp
  omega

theorem roundMag_zero_left {d : Nat} (hd : 0 < d) : roundMag 0 d = 0 := by
  simpa using roundMag_exact (show 0 < infMag by decide) hd

/-- A rounded magnitude below the infinity, given the sign of the exact value, is the nearest word to that value: a word of the
other sign is never nearer, and as near only to an exact zero. -/
theorem nearestEven_pack (s : Bool) {n d : Nat} (hd : 0 < d) (h : roundMag n d < infMag) :
    nearestEven (if s then -(n : Int) else (n : Int)) d (pack s (roundMag n d)) := by
  have hzero : n = 0 → roundMag n d = 0 := by rintro rfl; exact roundMag_zero_left hd
  have hnear := fun c => roundMag_nearest (c := c) hd h
  generalize roundMag n d = m at h hzero hnear ⊢
  have hm : m < 2 ^ 31 := h.trans (by decide)
  refine ⟨by simpa [isFinite, mag_pack s hm] using h, fun c hc => ?_⟩
  obtain ⟨hle, heven⟩ := hnear (mag c) (mag_lt_infMag hc)
  have hpos : m ≠ 0 → 0 < unitsOf m * d := fun h0 => Nat.mul_pos (Nat.pos_of_ne_zero (mt unitsOf_eq_zero.1 h0)) hd
  rw [value_pack s hm, getLsbD_zero_pack, decide_eq_false_iff_not, value, units]
  generalize mag c = k at hle heven ⊢
  simp only [Int.abs_eq_natAbs, ← Int.natCast_mul, ite_mul, neg_mul] at hle heven ⊢
  by_cases hk : k = m
  · subst hk
    cases s <;> cases sign c <;> simp only [if_true, if_false, Bool.false_eq_true] <;> omega
  · cases s <;> cases sign c <;> simp only [if_true, if_false, Bool.false_eq_true] <;> omega

/-- The packed rounding of a signed exact value is that value correctly rounded (00_scope.md R6). -/
theorem correctlyRounded_pack (s : Bool) (n : Nat) {d : Nat} (hd : 0 < d) :
    correctlyRounded (if s then -(n : Int) else (n : Int)) d (pack s (roundMag n d)) := by
  have habs : |if s then -(n : Int) else (n : Int)| = n := by cases s <;> simp
  have hcast : ((2 ^ 25 - 1) * 2 ^ 252 * d : Int) = ((2 ^ 25 - 1) * 2 ^ 252 * d : Nat) := by norm_num
  unfold correctlyRounded
  rw [habs, hcast]
  refine ⟨fun h => nearestEven_pack s hd (roundMag_lt_infMag hd (Int.ofNat_lt.1 h)), fun h => ?_⟩
  have hn : (2 ^ 25 - 1) * 2 ^ 252 * d ≤ n := Int.ofNat_le.1 h
  have hpos : 0 < n := lt_of_lt_of_le (by positivity) hn
  rw [roundMag_eq_infMag hd hn, isInf, mag_pack s (by decide), sign_pack s (by decide)]
  refine ⟨by decide, ?_⟩
  cases s <;> simp [hpos]

theorem correctlyRounded_sum (nan : Word) {a b : Word} (ha : isFinite a = true) (hb : isFinite b = true) :
    correctlyRounded (value a + value b) 1 (sum nan a b) := by
  rw [sum_of_finite nan ha hb]
  split
  next h =>
    rw [h, ← roundMag_zero]
    simpa using correctlyRounded_pack (sign a && sign b) 0 Nat.one_pos
  next h =>
    have hr := correctlyRounded_pack (decide (value a + value b < 0)) (value a + value b).natAbs Nat.one_pos
    rwa [show (if decide (value a + value b < 0) = true then -((value a + value b).natAbs : Int)
      else ((value a + value b).natAbs : Int)) = value a + value b by simp only [decide_eq_true_eq]; omega] at hr

theorem mul_of_finite {a b : Word} (ha : isFinite a = true) (hb : isFinite b = true) :
    mul a b = pack (sign a != sign b) (roundMag (units a * units b) (2 ^ 149)) := by
  obtain ⟨ha1, ha2⟩ := (isFinite_iff a).1 ha
  obtain ⟨hb1, hb2⟩ := (isFinite_iff b).1 hb
  simp [mul, ha1, ha2, hb1, hb2]

theorem div_of_finite {a b : Word} (ha : isFinite a = true) (hb : isFinite b = true) (h : value b ≠ 0) :
    div a b = pack (sign a != sign b) (roundMag (units a * 2 ^ 149) (units b)) := by
  obtain ⟨ha1, ha2⟩ := (isFinite_iff a).1 ha
  obtain ⟨hb1, hb2⟩ := (isFinite_iff b).1 hb
  simp [div, ha1, ha2, hb1, hb2, mt value_eq_zero_iff.2 h]

theorem correctlyRounded_mul {a b : Word} (ha : isFinite a = true) (hb : isFinite b = true) :
    correctlyRounded (value a * value b) (2 ^ 149) (mul a b) := by
  have hr := correctlyRounded_pack (sign a != sign b) (units a * units b) (show 0 < 2 ^ 149 by decide)
  rw [mul_of_finite ha hb]
  convert hr using 1
  simp only [value]
  cases sign a <;> cases sign b <;> simp

theorem correctlyRounded_div {a b : Word} (ha : isFinite a = true) (hb : isFinite b = true) (h : value b ≠ 0) :
    correctlyRounded (value a * 2 ^ 149 * (if sign b then -1 else 1)) (units b) (div a b) := by
  have hr := correctlyRounded_pack (sign a != sign b) (units a * 2 ^ 149) (units_pos h)
  rw [div_of_finite ha hb h]
  convert hr using 1
  simp only [value]
  cases sign a <;> cases sign b <;> simp

end Sys2Proof.Machine.F32
end

section
namespace Sys2Proof.Proofs

open Sys2Proof Sys2Proof.Machine Sys2Proof.Safety

/-- Settles O49: addition rounds the sum of the values, and subtraction is addition of the negated operand. -/
theorem sumsAreCorrectlyRounded : Obligations.SumsAreCorrectlyRounded := by
  unfold Obligations.SumsAreCorrectlyRounded
  intro a b ha hb
  refine ⟨F32.correctlyRounded_sum _ ha hb, ?_⟩
  rw [sub_eq_add_neg, ← F32.value_neg]
  exact F32.correctlyRounded_sum _ ha (by simpa using hb)

/-- Settles O50: the rounded magnitude under the exclusive or of the signs. -/
theorem productsAndQuotientsAreCorrectlyRounded : Obligations.ProductsAndQuotientsAreCorrectlyRounded := by
  unfold Obligations.ProductsAndQuotientsAreCorrectlyRounded
  intro a b ha hb
  exact ⟨F32.correctlyRounded_mul ha hb, F32.correctlyRounded_div ha hb⟩

end Sys2Proof.Proofs
end

section
/-! PROOF. The operators on NaNs, infinities and zeros, and the signs of their results (00_scope.md R6; log entry 22). -/

namespace Sys2Proof.Machine.F32

open Sys2Proof

/-- An infinity is no NaN, is not finite and is not zero. -/
theorem isInf_parts {a : Word} (h : isInf a = true) : isNaN a = false ∧ isFinite a = false ∧ value a ≠ 0 := by
  have hm : mag a = infMag := by simpa [isInf] using h
  simp [isNaN, isFinite, value_eq_zero_iff, hm, infMag]

/-! Sums -/

theorem sum_of_isNaN (nan : Word) {a b : Word} (h : isNaN a = true ∨ isNaN b = true) : sum nan a b = nan := by
  simp [sum, h]

theorem sum_inf_finite (nan : Word) {a b : Word} (ha : isInf a = true) (hb : isFinite b = true) : sum nan a b = a := by
  obtain ⟨hna, -, -⟩ := isInf_parts ha
  obtain ⟨hnb, hib⟩ := (isFinite_iff b).1 hb
  simp [sum, ha, hna, hnb, hib]

theorem sum_finite_inf (nan : Word) {a b : Word} (ha : isFinite a = true) (hb : isInf b = true) : sum nan a b = b := by
  obtain ⟨hnb, -, -⟩ := isInf_parts hb
  obtain ⟨hna, hia⟩ := (isFinite_iff a).1 ha
  simp [sum, hb, hna, hnb, hia]

theorem sum_inf_inf (nan : Word) {a b : Word} (ha : isInf a = true) (hb : isInf b = true) :
    sum nan a b = if sign a = sign b then a else nan := by
  obtain ⟨hna, -, -⟩ := isInf_parts ha
  obtain ⟨hnb, -, -⟩ := isInf_parts hb
  simp [sum, ha, hb, hna, hnb]

/-- An exact zero sum is +0.0 unless both operands are -0.0. -/
theorem sum_of_value_zero (nan : Word) {a b : Word} (ha : isFinite a = true) (hb : isFinite b = true)
    (h : value a + value b = 0) :
    sum nan a b = if sign a = true ∧ sign b = true then 0x80000000#32 else 0x00000000#32 := by
  rw [sum_of_finite nan ha hb, if_pos h]
  cases sign a <;> cases sign b <;> decide

theorem sign_sum_iff (nan : Word) {a b : Word} (ha : isFinite a = true) (hb : isFinite b = true)
    (h : value a + value b ≠ 0) :
    sign (sum nan a b) = true ↔ value a + value b < 0 := by
  rw [sum_of_finite nan ha hb, if_neg h, sign_pack _ (roundMag_lt _ _), decide_eq_true_eq]

/-! Products and quotients -/

/-- The infinity of the sign of a product or quotient. -/
theorem pack_infMag (s t : Bool) : pack (s != t) infMag = if s ≠ t then 0xFF800000#32 else 0x7F800000#32 := by
  cases s <;> cases t <;> decide

/-- The zero of the sign of a product or quotient. -/
theorem pack_zero (s t : Bool) : pack (s != t) 0 = if s ≠ t then 0x80000000#32 else 0x00000000#32 := by
  cases s <;> cases t <;> decide

theorem mul_of_isNaN {a b : Word} (h : isNaN a = true ∨ isNaN b = true) : mul a b = nanOf .mul a b := by
  simp [mul, h]

theorem div_of_isNaN {a b : Word} (h : isNaN a = true ∨ isNaN b = true) : div a b = nanOf .div a b := by
  simp [div, h]

/-- Zero times infinity is invalid. -/
theorem mul_of_isInf_of_zero {a b : Word} (h : isInf a = true ∧ value b = 0 ∨ isInf b = true ∧ value a = 0) :
    mul a b = nanOf .mul a b := by
  simp [mul, ← value_eq_zero_iff, h]

theorem mul_of_isInf {a b : Word} (ha : isNaN a = false) (hb : isNaN b = false) (ha0 : value a ≠ 0) (hb0 : value b ≠ 0)
    (h : isInf a = true ∨ isInf b = true) : mul a b = pack (sign a != sign b) infMag := by
  simp [mul, ← value_eq_zero_iff, ha, hb, ha0, hb0, h]

/-- Infinity over infinity and zero over zero are invalid. -/
theorem div_invalid {a b : Word} (h : isInf a = true ∧ isInf b = true ∨ value a = 0 ∧ value b = 0) :
    div a b = nanOf .div a b := by
  simp [div, ← value_eq_zero_iff, h]

theorem div_inf_finite {a b : Word} (ha : isInf a = true) (hb : isFinite b = true) :
    div a b = pack (sign a != sign b) infMag := by
  obtain ⟨hna, -, ha0⟩ := isInf_parts ha
  obtain ⟨hnb, hib⟩ := (isFinite_iff b).1 hb
  simp [div, ← value_eq_zero_iff, ha, hna, ha0, hnb, hib]

theorem div_finite_inf {a b : Word} (ha : isFinite a = true) (hb : isInf b = true) :
    div a b = pack (sign a != sign b) 0 := by
  obtain ⟨hnb, -, hb0⟩ := isInf_parts hb
  obtain ⟨hna, hia⟩ := (isFinite_iff a).1 ha
  simp [div, ← value_eq_zero_iff, hb, hnb, hb0, hna, hia]

theorem div_of_zero_divisor {a b : Word} (ha : isFinite a = true) (ha0 : value a ≠ 0) (hb0 : value b = 0) :
    div a b = pack (sign a != sign b) infMag := by
  obtain ⟨hna, hia⟩ := (isFinite_iff a).1 ha
  have hnb : isNaN b = false := by simp [isNaN, value_eq_zero_iff.1 hb0]
  simp [div, ← value_eq_zero_iff, hna, hnb, hia, ha0, hb0]

theorem mul_of_value_zero {a b : Word} (ha : isFinite a = true) (hb : isFinite b = true) (h : value a = 0 ∨ value b = 0) :
    mul a b = pack (sign a != sign b) 0 := by
  have h0 : units a * units b = 0 := by simpa [units, value_eq_zero_iff] using h
  rw [mul_of_finite ha hb, h0, roundMag_zero_left (by decide)]

theorem div_of_value_zero {a b : Word} (ha : isFinite a = true) (hb : isFinite b = true) (ha0 : value a = 0)
    (hb0 : value b ≠ 0) :
    div a b = pack (sign a != sign b) 0 := by
  have h0 : units a = 0 := by simpa [units, value_eq_zero_iff] using ha0
  rw [div_of_finite ha hb hb0, h0, Nat.zero_mul, roundMag_zero_left (units_pos hb0)]

theorem sign_mul_iff {a b : Word} (ha : isFinite a = true) (hb : isFinite b = true) :
    sign (mul a b) = true ↔ sign a ≠ sign b := by
  rw [mul_of_finite ha hb, sign_pack _ (roundMag_lt _ _), bne_iff_ne]

theorem sign_div_iff {a b : Word} (ha : isFinite a = true) (hb : isFinite b = true) (h : value b ≠ 0) :
    sign (div a b) = true ↔ sign a ≠ sign b := by
  rw [div_of_finite ha hb h, sign_pack _ (roundMag_lt _ _), bne_iff_ne]

end Sys2Proof.Machine.F32

namespace Sys2Proof.Proofs

open Sys2Proof Sys2Proof.Machine Sys2Proof.Safety

/-- Settles O57: each case of a sum, and a difference as the sum with the negated operand. -/
theorem sumsOfNaNsInfinitiesAndZeros : Obligations.SumsOfNaNsInfinitiesAndZeros := by
  unfold Obligations.SumsOfNaNsInfinitiesAndZeros
  intro a b
  refine ⟨fun h => ?_, fun ha hb => ?_, fun ha hb => ?_, fun ha hb => ?_⟩
  · simp [F32.add, F32.sub, F32.sum_of_isNaN, h]
  · exact ⟨F32.sum_inf_finite _ ha hb, F32.sum_finite_inf _ hb ha, F32.sum_inf_finite _ ha (by simpa using hb),
      F32.sum_finite_inf _ hb (by simpa using ha)⟩
  · have hb' : F32.isInf (F32.neg b) = true := by simpa using hb
    simp only [F32.add, F32.sub, F32.sum_inf_inf _ ha hb, F32.sum_inf_inf _ ha hb', F32.sign_neg]
    cases F32.sign a <;> cases F32.sign b <;> simp
  · have hb' : F32.isFinite (F32.neg b) = true := by simpa using hb
    have hv : F32.value a - F32.value b = F32.value a + F32.value (F32.neg b) := by rw [F32.value_neg, sub_eq_add_neg]
    refine ⟨F32.sum_of_value_zero _ ha hb, fun h => ?_, F32.sign_sum_iff _ ha hb, fun h => ?_⟩
    · simpa [F32.sub] using F32.sum_of_value_zero (F32.nanOf .sub a b) ha hb' (hv ▸ h)
    · rw [← sub_neg, hv]
      exact F32.sign_sum_iff _ ha hb' (hv ▸ h)

/-- Settles O58: each case of a product and of a quotient, an infinity or a zero in either place. -/
theorem productsAndQuotientsOfNaNsInfinitiesAndZeros : Obligations.ProductsAndQuotientsOfNaNsInfinitiesAndZeros := by
  unfold Obligations.ProductsAndQuotientsOfNaNsInfinitiesAndZeros
  intro a b
  simp only [← F32.pack_infMag, ← F32.pack_zero]
  refine ⟨fun h => ?_, fun ha hb => ?_, fun ha hb => ?_, fun ha hb => ?_⟩
  · simp [F32.mul_of_isNaN h, F32.div_of_isNaN h]
  · exact ⟨F32.sign_mul_iff ha hb, F32.mul_of_value_zero ha hb, F32.sign_div_iff ha hb,
      F32.div_of_value_zero ha hb, F32.div_of_zero_divisor ha,
      fun h h' => by rw [F32.div_invalid (.inr ⟨h, h'⟩), F32.isNaN_nanOf]⟩
  · obtain ⟨hna, -, ha0⟩ := F32.isInf_parts ha
    obtain ⟨hnb, -⟩ := (F32.isFinite_iff b).1 hb
    have hcomm : (F32.sign a != F32.sign b) = (F32.sign b != F32.sign a) := bne_comm
    refine ⟨F32.div_inf_finite ha hb, hcomm ▸ F32.div_finite_inf hb ha, fun h => ?_, fun h => ?_⟩
    · rw [F32.mul_of_isInf_of_zero (.inl ⟨ha, h⟩), F32.mul_of_isInf_of_zero (.inr ⟨ha, h⟩)]
      simp
    · exact ⟨F32.mul_of_isInf hna hnb ha0 h (.inl ha), hcomm ▸ F32.mul_of_isInf hnb hna h ha0 (.inr ha)⟩
  · obtain ⟨hna, -, ha0⟩ := F32.isInf_parts ha
    obtain ⟨hnb, -, hb0⟩ := F32.isInf_parts hb
    exact ⟨F32.mul_of_isInf hna hnb ha0 hb0 (.inl ha), by rw [F32.div_invalid (.inl ⟨ha, hb⟩), F32.isNaN_nanOf]⟩

end Sys2Proof.Proofs
end

section
/-! PROOF. The fields of a word, its value and the order of the comparisons (00_scope.md R7, R8), and the
clamps they decide (R10, R11; 40_render.md R105, R106). -/

namespace Sys2Proof.Machine.F32

open Sys2Proof

/-! Fields -/

theorem sign_iff_toNat (a : Word) : sign a = true ↔ a.toNat / 2 ^ 31 = 1 := by
  have := a.isLt
  rw [sign_eq, decide_eq_true_eq]
  omega

/-- The magnitude holds the exponent field above the fraction field (00_scope.md R7). -/
theorem mag_eq_fields (a : Word) : mag a = a.toNat / 2 ^ 23 % 2 ^ 8 * 2 ^ 23 + a.toNat % 2 ^ 23 := by
  unfold mag
  omega

theorem isNaN_iff_fields (a : Word) :
    isNaN a = true ↔ a.toNat / 2 ^ 23 % 2 ^ 8 = 255 ∧ a.toNat % 2 ^ 23 ≠ 0 := by
  rw [isNaN, decide_eq_true_eq, mag_eq_fields, infMag]
  omega

theorem isFinite_iff_fields (a : Word) : isFinite a = true ↔ a.toNat / 2 ^ 23 % 2 ^ 8 ≠ 255 := by
  rw [isFinite, decide_eq_true_eq, mag_eq_fields, infMag]
  omega

theorem isInf_iff_eq (a : Word) : isInf a = true ↔ a = 0x7F800000#32 ∨ a = 0xFF800000#32 := by
  constructor
  · intro h
    rw [← pack_sign_mag a, show mag a = infMag by simpa [isInf] using h]
    cases sign a <;> decide
  · rintro (rfl | rfl) <;> decide

theorem toNat_neg (a : Word) : (neg a).toNat = (a.toNat + 2 ^ 31) % 2 ^ 32 := by
  have := a.isLt
  rw [neg_eq_pack, sign_eq, pack, mag, BitVec.toNat_ofNat]
  by_cases h : 2 ^ 31 ≤ a.toNat
  · simp only [h, decide_true, Bool.not_true, Bool.toNat_false]
    omega
  · simp only [h, decide_false, Bool.not_false, Bool.toNat_true]
    omega

theorem toNat_abs (a : Word) : (abs a).toNat = a.toNat % 2 ^ 31 := by
  rw [abs_eq_pack, pack, mag, BitVec.toNat_ofNat, Bool.toNat_false]
  omega

theorem units_eq_fields (a : Word) :
    units a = if a.toNat / 2 ^ 23 % 2 ^ 8 = 0 then a.toNat % 2 ^ 23
      else (2 ^ 23 + a.toNat % 2 ^ 23) * 2 ^ (a.toNat / 2 ^ 23 % 2 ^ 8 - 1) := by
  have hE : mag a / 2 ^ 23 = a.toNat / 2 ^ 23 % 2 ^ 8 := by rw [mag_eq_fields]; omega
  have hF : mag a % 2 ^ 23 = a.toNat % 2 ^ 23 := by rw [mag_eq_fields]; omega
  rw [units, unitsOf, hE, hF, Nat.add_comm (2 ^ 23)]

/-! Order -/

theorem value_le_of_key_le {a b : Word} : key a ≤ key b → value a ≤ value b := by
  have hab := unitsOf_mono (a := mag a) (b := mag b)
  have hba := unitsOf_mono (a := mag b) (b := mag a)
  have h0 := unitsOf_eq_zero (m := mag a)
  unfold key value units
  cases sign a <;> cases sign b <;> simp only [if_true, if_false, Bool.false_eq_true] <;> omega

/-- On finite words the order of the keys is the order of the values. -/
theorem key_le_iff {a b : Word} (ha : isFinite a = true) (hb : isFinite b = true) : key a ≤ key b ↔ value a ≤ value b := by
  refine ⟨value_le_of_key_le, fun h => ?_⟩
  rw [← roundedKey_value ha, ← roundedKey_value hb]
  exact roundedKey_mono h

theorem le_eq_decide_key {a b : Word} (ha : isNaN a = false) (hb : isNaN b = false) : le a b = decide (key a ≤ key b) := by
  simp [le, ha, hb]

theorem lt_eq_decide_key {a b : Word} (ha : isNaN a = false) (hb : isNaN b = false) : lt a b = decide (key a < key b) := by
  simp [lt, ha, hb]

theorem le_of_isNaN {a b : Word} (h : isNaN a = true ∨ isNaN b = true) : le a b = false := by
  rcases h with h | h <;> simp [le, h]

theorem lt_of_isNaN {a b : Word} (h : isNaN a = true ∨ isNaN b = true) : lt a b = false := by
  rcases h with h | h <;> simp [lt, h]

theorem le_iff_value_le {a b : Word} (ha : isFinite a = true) (hb : isFinite b = true) :
    le a b = true ↔ value a ≤ value b := by
  rw [le_eq_decide_key ((isFinite_iff a).1 ha).1 ((isFinite_iff b).1 hb).1, decide_eq_true_eq, key_le_iff ha hb]

theorem lt_iff_value_lt {a b : Word} (ha : isFinite a = true) (hb : isFinite b = true) :
    lt a b = true ↔ value a < value b := by
  rw [lt_eq_decide_key ((isFinite_iff a).1 ha).1 ((isFinite_iff b).1 hb).1, decide_eq_true_eq, ← not_le, key_le_iff hb ha,
    not_le]

/-- The keys of the finite words lie strictly between those of the two infinities. -/
theorem key_of_isFinite {a : Word} (ha : isFinite a = true) :
    key 0xFF800000#32 < key a ∧ key a < key 0x7F800000#32 := by
  have hm := mag_lt_infMag ha
  rw [show key 0xFF800000#32 = -(infMag : Int) by decide, show key 0x7F800000#32 = (infMag : Int) by decide]
  unfold key
  split <;> omega

theorem compare_posInf {a : Word} (ha : isFinite a = true) :
    lt a 0x7F800000#32 = true ∧ le a 0x7F800000#32 = true ∧ lt 0x7F800000#32 a = false ∧ le 0x7F800000#32 a = false := by
  obtain ⟨hna, -⟩ := (isFinite_iff a).1 ha
  have hn : isNaN 0x7F800000#32 = false := by decide
  obtain ⟨-, hk⟩ := key_of_isFinite ha
  rw [lt_eq_decide_key hna hn, le_eq_decide_key hna hn, lt_eq_decide_key hn hna, le_eq_decide_key hn hna]
  simp only [decide_eq_true_eq, decide_eq_false_iff_not]
  omega

theorem compare_negInf {a : Word} (ha : isFinite a = true) :
    lt 0xFF800000#32 a = true ∧ le 0xFF800000#32 a = true ∧ lt a 0xFF800000#32 = false ∧ le a 0xFF800000#32 = false := by
  obtain ⟨hna, -⟩ := (isFinite_iff a).1 ha
  have hn : isNaN 0xFF800000#32 = false := by decide
  obtain ⟨hk, -⟩ := key_of_isFinite ha
  rw [lt_eq_decide_key hna hn, le_eq_decide_key hna hn, lt_eq_decide_key hn hna, le_eq_decide_key hn hna]
  simp only [decide_eq_true_eq, decide_eq_false_iff_not]
  omega

theorem lt_eq_false_of_le {a b : Word} (h : le a b = true) : lt b a = false := by
  obtain ⟨-, -, hab⟩ := (le_iff a b).1 h
  rw [Bool.eq_false_iff, Ne, lt_iff]
  rintro ⟨-, -, hba⟩
  omega

theorem lt_eq_false_of_lt_of_le {a b c : Word} (h : lt b c = true) (hab : le a b = true) : lt c a = false := by
  obtain ⟨-, -, hbc⟩ := (lt_iff b c).1 h
  obtain ⟨-, -, hab⟩ := (le_iff a b).1 hab
  rw [Bool.eq_false_iff, Ne, lt_iff]
  rintro ⟨-, -, hca⟩
  omega

end Sys2Proof.Machine.F32

namespace Sys2Proof.Machine

open Sys2Proof

theorem constrain_of_lt {x lo : Word} (hi : Word) (h : F32.lt x lo = true) : constrain x lo hi = lo := by
  simp [constrain, h]

theorem constrain_of_not_lt_of_lt {x lo hi : Word} (h : F32.lt x lo = false) (h' : F32.lt hi x = true) :
    constrain x lo hi = hi := by
  simp [constrain, h, h']

theorem constrain_of_not_lt {x lo hi : Word} (h : F32.lt x lo = false) (h' : F32.lt hi x = false) :
    constrain x lo hi = x := by
  simp [constrain, h, h']

/-- Between ordered bounds the upper one alone decides above it. -/
theorem constrain_of_gt {x lo hi : Word} (hle : F32.le lo hi = true) (h : F32.lt hi x = true) : constrain x lo hi = hi :=
  constrain_of_not_lt_of_lt (F32.lt_eq_false_of_lt_of_le h hle) h

/-- CLAMP_F without through-zero, its bounds as words (40_render.md R105). -/
theorem clampF_false (x : Word) : clampF x false = constrain x 0x358637BD#32 0x3E800000#32 := rfl

/-- CLAMP_F with through-zero, its bounds as words (40_render.md R105). -/
theorem clampF_true (x : Word) : clampF x true = constrain x 0xBE800000#32 0x3E800000#32 := rfl

/-- The upper bound of CLAMP_PW, 1 - PW_FLOOR as a word (40_render.md R106). -/
theorem pwHigh_eq (f : Word) :
    pwHigh f = if F32.lt 0x3F7FFFDE#32 (F32.sub 0x3F800000#32 (F32.mul 0x40000000#32 (F32.abs f))) then 0x3F7FFFDE#32
      else F32.sub 0x3F800000#32 (F32.mul 0x40000000#32 (F32.abs f)) := by
  have hceil : F32.sub F32.one pwFloor = 0x3F7FFFDE#32 := by decide
  simp only [pwHigh, hceil]
  rfl

theorem sat01_of_isNaN {x : Word} (h : F32.isNaN x = true) : sat01 x = F32.zero := by
  simp [sat01, h]

theorem sat01_of_lt_zero {x : Word} (h : F32.lt x F32.zero = true) : sat01 x = F32.zero := by
  simp [sat01, h]

theorem sat01_of_one_lt {x : Word} (h : F32.lt F32.one x = true) : sat01 x = F32.one := by
  obtain ⟨-, hn, -⟩ := (F32.lt_iff _ _).1 h
  simp [sat01, h, hn, F32.lt_eq_false_of_lt_of_le h (show F32.le F32.zero F32.one = true by decide)]

theorem sat01_of_between {x : Word} (h0 : F32.le F32.zero x = true) (h1 : F32.le x F32.one = true) : sat01 x = x := by
  obtain ⟨-, hn, -⟩ := (F32.le_iff _ _).1 h0
  simp [sat01, hn, F32.lt_eq_false_of_le h0, F32.lt_eq_false_of_le h1]

end Sys2Proof.Machine

namespace Sys2Proof.Proofs

open Sys2Proof Sys2Proof.Machine Sys2Proof.Safety

/-- Settles O56: the value is the units of the exponent and fraction fields under the sign bit. -/
theorem finiteWordsStandForTheirValues : Obligations.FiniteWordsStandForTheirValues := by
  unfold Obligations.FiniteWordsStandForTheirValues
  intro a _
  rw [F32.value, F32.units_eq_fields]
  simp only [F32.sign_iff_toNat]
  split <;> split <;> push_cast <;> ring

/-- Settles O51: the comparisons order the keys, which keep the order of the values. -/
theorem comparisonsFollowTheValues : Obligations.ComparisonsFollowTheValues := by
  unfold Obligations.ComparisonsFollowTheValues
  refine ⟨fun a b => ⟨fun h => ⟨F32.lt_of_isNaN h, F32.le_of_isNaN h⟩,
      fun ha hb => ⟨F32.lt_iff_value_lt ha hb, F32.le_iff_value_le ha hb⟩⟩,
    fun a ha => ⟨F32.compare_posInf ha, F32.compare_negInf ha⟩, by decide, fun a => ?_⟩
  exact ⟨F32.isNaN_iff_fields a, F32.isFinite_iff_fields a, F32.isInf_iff_eq a, F32.sign_iff_toNat a, F32.toNat_neg a,
    F32.toNat_abs a⟩

/-- Settles O53: each branch of SAT01, no two of which can be taken for one operand. -/
theorem subSampleFractionIsSaturated : Obligations.SubSampleFractionIsSaturated := by
  unfold Obligations.SubSampleFractionIsSaturated
  exact fun x => ⟨fun h => h.elim sat01_of_isNaN sat01_of_lt_zero, sat01_of_one_lt, sat01_of_between⟩

/-- Settles O52: CLAMP_F and CLAMP_PW are CONSTRAIN between their bounds. -/
theorem clampsFollowTheirRules : Obligations.ClampsFollowTheirRules := by
  unfold Obligations.ClampsFollowTheirRules
  refine ⟨fun x lo hi => ⟨constrain_of_lt hi, constrain_of_not_lt_of_lt, constrain_of_not_lt⟩, fun x => ?_, fun p f => ?_⟩
  · simp only [clampF_false, clampF_true]
    exact ⟨constrain_of_lt _, constrain_of_lt _, fun h => ⟨constrain_of_gt (by decide) h, constrain_of_gt (by decide) h⟩,
      fun h => ⟨fun h' => constrain_of_not_lt h' h, fun h' => constrain_of_not_lt h' h⟩⟩
  · refine ⟨rfl, pwHigh_eq f, ?_⟩
    rw [← pwHigh_eq f]
    exact ⟨constrain_of_lt _, constrain_of_not_lt_of_lt, constrain_of_not_lt⟩

end Sys2Proof.Proofs
end

section
/-! PROOF. A write and the read that follows it (20_memory.md R54, R58). -/

namespace Sys2Proof.Machine

open Sys2Proof

/-- The step that serves a write inside the window (20_memory.md R50). -/
theorem step_write {s : State} {off width : Nat} {w : Word} {rest : List BusRequest}
    (h : s.host = .write (s.params.base + off) width w :: rest) (hoff : off < 0x4000) :
    step s = busWrite off width w { s with host := rest } := by
  simp [step_serve h, serve, hoff]

/-- The step that serves a read inside the window (20_memory.md R50). -/
theorem step_read {s : State} {off width : Nat} {rest : List BusRequest}
    (h : s.host = .read (s.params.base + off) width :: rest) (hoff : off < 0x4000) :
    step s = busRead off width { s with host := rest } := by
  simp [step_serve h, serve, hoff]

theorem busWrite_reg {off : Nat} {r : Reg} {s : State} (h : locate s.params off = some (.reg r)) (w : Word) :
    busWrite off 32 w s = writeReg r w s := by
  simp [busWrite, h]

theorem busWrite_fmBuf {off n : Nat} {s : State} (h : locate s.params off = some (.fmBuf n)) (w : Word) :
    busWrite off 32 w s = .next { respond .writeDone s with mem := s.mem.writeWord off w } := by
  simp [busWrite, h]

theorem busRead_reg {off : Nat} {r : Reg} {s : State} (h : locate s.params off = some (.reg r)) :
    busRead off 32 s = .next (respond (.readData (readReg r s)) s) := by
  simp [busRead, h]

theorem busRead_fmBuf {off n : Nat} {s : State} {w : Word} (h : locate s.params off = some (.fmBuf n))
    (hw : s.mem.readWord off = some w) : busRead off 32 s = .next (respond (.readData w) s) := by
  simp [busRead, readBuffer, h, hw]

/-- Where the three RW registers lie (10_state.md, the table of section 3). -/
theorem locate_rw {off : Nat} (h : off = 0x010 ∨ off = 0x014 ∨ off = 0x018) :
    (off = 0x010 ∧ ∀ p, locate p off = some (.reg .targetFreq)) ∨
      (off = 0x014 ∧ ∀ p, locate p off = some (.reg .targetPw)) ∨
      (off = 0x018 ∧ ∀ p, locate p off = some (.reg .kernelT)) := by
  rcases h with rfl | rfl | rfl
  · exact .inl ⟨rfl, fun _ => rfl⟩
  · exact .inr (.inl ⟨rfl, fun _ => rfl⟩)
  · exact .inr (.inr ⟨rfl, fun _ => rfl⟩)

theorem maxBlockSize_le {p : Params} (h : p.wellFormed = true) : p.maxBlockSize ≤ 1024 := by
  simp only [Params.wellFormed, Bool.and_eq_true, decide_eq_true_eq] at h
  exact h.2

/-- FM_BUF[n] is mapped for every n below MAX_BLOCK_SIZE (20_memory.md R50). -/
theorem locate_fmBuf {p : Params} {n : Nat} (h : n < p.maxBlockSize) : locate p (0x1000 + 4 * n) = some (.fmBuf n) := by
  unfold locate
  rw [if_neg (by omega), if_neg (by omega), if_pos (by omega), show (0x1000 + 4 * n - 0x1000) / 4 = n by omega]

end Sys2Proof.Machine

namespace Sys2Proof.Proofs

open Sys2Proof Sys2Proof.Machine Sys2Proof.Safety

/-- Settles O40: the three registers and FM_BUF[n] in turn, each written state followed by the read that is next in the queue. -/
theorem writtenWordsAreReadBackUnchanged : Obligations.WrittenWordsAreReadBackUnchanged := by
  unfold Obligations.WrittenWordsAreReadBackUnchanged
  intro s off w rest hp hoff hs
  have hmax := maxBlockSize_le hp
  have hwin : off < 0x4000 := by omega
  rw [step_write hs hwin]
  obtain hreg | ⟨n, hn, rfl⟩ : (off = 0x010 ∨ off = 0x014 ∨ off = 0x018) ∨
      ∃ n, n < s.params.maxBlockSize ∧ off = 0x1000 + 4 * n := by tauto
  · rcases locate_rw hreg with ⟨rfl, hloc⟩ | ⟨rfl, hloc⟩ | ⟨rfl, hloc⟩
    all_goals
      exact ⟨_, _, busWrite_reg (hloc _) w, rfl, rfl, rfl, rfl, ⟨rfl, rfl, rfl, rfl⟩, ⟨rfl, rfl⟩, fun _ _ => rfl,
        fun _ => rfl, by simp, by simp, by simp, (step_read rfl hwin).trans (busRead_reg (hloc _)), rfl⟩
  · refine ⟨_, _, busWrite_fmBuf (n := n) ?_ w, rfl, rfl, rfl, rfl, ⟨rfl, rfl, rfl, rfl⟩, ⟨rfl, rfl⟩,
      fun _ h => byteAt_writeWord_of_outside _ w h, fun h => absurd h (by omega), fun _ => rfl, fun _ => rfl, fun _ => rfl,
      (step_read rfl hwin).trans (busRead_fmBuf (n := n) ?_ (readWord_writeWord _ _ w)), rfl⟩
    all_goals exact locate_fmBuf hn

end Sys2Proof.Proofs
end

section
/-! PROOF. The rounding error of sums and quotients as a bound on their values (00_scope.md R6, R9). -/

namespace Sys2Proof.Machine.F32

open Sys2Proof Sys2Proof.Safety

/-- A magnitude that does not overflow is off by at most 2^-24 of the exact one, and by half a unit near zero. -/
theorem roundMag_relative_error {n d : Nat} (hd : 0 < d) (h : roundMag n d < infMag) :
    2 ^ 24 * |(unitsOf (roundMag n d) * d : Int) - n| ≤ n + 2 ^ 23 * d := by
  obtain ⟨e, hlo, hhi, he⟩ := roundMag_error hd h
  have hulp : 2 ^ 23 * (d * 2 ^ e) ≤ n + 2 ^ 23 * d := by
    rcases Nat.eq_zero_or_pos e with rfl | hpos
    · simp
    · exact (he hpos).trans (Nat.le_add_right _ _)
  generalize d * 2 ^ e = u at *
  rw [← Int.natCast_mul, Int.abs_eq_natAbs]
  generalize unitsOf (roundMag n d) * d = m at *
  omega

theorem value_pack_error (s : Bool) {n d : Nat} (hd : 0 < d) (h : roundMag n d < infMag) :
    2 ^ 24 * |value (pack s (roundMag n d)) * d - (if s then -(n : Int) else n)| ≤ n + 2 ^ 23 * d := by
  have herr := roundMag_relative_error hd h
  rw [value_pack s (roundMag_lt n d)]
  cases s
  · simpa using herr
  · rw [← abs_neg] at herr
    simpa [neg_add_eq_sub] using herr

/-- A finite sum below 2^107 is finite and off by at most 2^-24 of the exact sum. -/
theorem value_sum_error (nan : Word) {a b : Word} (ha : isFinite a = true) (hb : isFinite b = true)
    (h : |value a + value b| < 2 ^ 256) :
    isFinite (sum nan a b) = true ∧
      2 ^ 24 * |value (sum nan a b) - (value a + value b)| ≤ |value a + value b| + 2 ^ 23 := by
  refine ⟨((correctlyRounded_sum nan ha hb).1 (by omega)).1, ?_⟩
  rw [sum_of_finite nan ha hb]
  split
  next h0 => simp [h0, value_pack]
  next h0 =>
    have hlt : roundMag (value a + value b).natAbs 1 < infMag :=
      roundMag_lt_infMag Nat.one_pos (by rw [Int.abs_eq_natAbs] at h; omega)
    have herr := value_pack_error (decide (value a + value b < 0)) Nat.one_pos hlt
    simp only [decide_eq_true_eq] at herr
    rw [show (if value a + value b < 0 then -((value a + value b).natAbs : Int) else (value a + value b).natAbs) =
      value a + value b by omega] at herr
    simpa using herr

theorem value_add_error {a b : Word} (ha : isFinite a = true) (hb : isFinite b = true)
    (h : |value a + value b| < 2 ^ 256) :
    isFinite (add a b) = true ∧ 2 ^ 24 * |value (add a b) - (value a + value b)| ≤ |value a + value b| + 2 ^ 23 :=
  value_sum_error _ ha hb h

theorem value_sub_error {a b : Word} (ha : isFinite a = true) (hb : isFinite b = true)
    (h : |value a - value b| < 2 ^ 256) :
    isFinite (sub a b) = true ∧ 2 ^ 24 * |value (sub a b) - (value a - value b)| ≤ |value a - value b| + 2 ^ 23 := by
  have hsum := value_sum_error (nanOf .sub a b) ha (show isFinite (neg b) = true by simpa using hb)
  rw [value_neg, ← sub_eq_add_neg] at hsum
  exact hsum h

/-- `float(n)` is exact below 2^24 (00_scope.md R9). -/
theorem units_ofNat {n : Nat} (h0 : 0 < n) (h : n < 2 ^ 24) :
    isFinite (ofNat n) = true ∧ sign (ofNat n) = false ∧ units (ofNat n) = n * 2 ^ 149 := by
  have hlog : Nat.log2 n ≤ 23 := Nat.lt_succ_iff.1 ((Nat.log2_lt h0.ne').2 h)
  have hlo : 2 ^ 23 ≤ n * 2 ^ (23 - Nat.log2 n) := by
    calc 2 ^ 23 = 2 ^ Nat.log2 n * 2 ^ (23 - Nat.log2 n) := by rw [← pow_add]; congr 1; omega
      _ ≤ n * 2 ^ (23 - Nat.log2 n) := Nat.mul_le_mul_right _ (Nat.log2_self_le h0.ne')
  have hhi : n * 2 ^ (23 - Nat.log2 n) < 2 ^ 24 := by
    calc n * 2 ^ (23 - Nat.log2 n) < 2 ^ (Nat.log2 n + 1) * 2 ^ (23 - Nat.log2 n) :=
          Nat.mul_lt_mul_of_pos_right Nat.lt_log2_self (by positivity)
      _ = 2 ^ 24 := by rw [← pow_add]; congr 1; omega
  have hu := unitsOf_places (e := 126 + Nat.log2 n) hhi.le fun _ => hlo
  rw [Nat.mul_assoc, ← pow_add, show 23 - Nat.log2 n + (126 + Nat.log2 n) = 149 by omega] at hu
  have hm : (126 + Nat.log2 n) * 2 ^ 23 + n * 2 ^ (23 - Nat.log2 n) < infMag := by unfold infMag; omega
  have hr := roundMag_exact hm Nat.one_pos
  rw [hu, Nat.mul_one] at hr
  have hm' := hm.trans (show infMag < 2 ^ 31 by decide)
  unfold ofNat
  rw [hr]
  refine ⟨?_, sign_pack false hm', by rw [units, mag_pack false hm', hu]⟩
  rw [isFinite, mag_pack false hm']
  exact decide_eq_true hm

/-- A quotient by a positive count, below 2^107, is finite and off by at most 2^-24 of the exact quotient. -/
theorem value_div_ofNat_error {a : Word} {n : Nat} (ha : isFinite a = true) (h0 : 0 < n) (hn : n < 2 ^ 24)
    (h : |value a| < 2 ^ 256) :
    isFinite (div a (ofNat n)) = true ∧
      2 ^ 24 * |value (div a (ofNat n)) * n - value a| ≤ |value a| + 2 ^ 23 * n := by
  obtain ⟨hfin, hsign, hunits⟩ := units_ofNat h0 hn
  have hd : 0 < n * 2 ^ 149 := by positivity
  have ha' : |value a| = units a := by unfold value; split <;> simp
  rw [ha'] at h ⊢
  have hlt : roundMag (units a * 2 ^ 149) (n * 2 ^ 149) < infMag := by
    refine roundMag_lt_infMag hd ?_
    have hle : units a < 2 ^ 256 := by exact_mod_cast h
    omega
  have hne : value (ofNat n) ≠ 0 := by simp [value, hsign, hunits, h0.ne']
  rw [div_of_finite ha hfin hne, hsign, hunits, Bool.bne_false]
  refine ⟨by rw [isFinite, mag_pack _ (roundMag_lt _ _)]; exact decide_eq_true hlt, ?_⟩
  have herr := value_pack_error (sign a) hd hlt
  generalize value (pack (sign a) (roundMag (units a * 2 ^ 149) (n * 2 ^ 149))) = q at herr ⊢
  have hdiff : (q * (n * 2 ^ 149 : Nat) - if sign a then -((units a * 2 ^ 149 : Nat) : Int) else (units a * 2 ^ 149 : Nat))
      = (q * n - value a) * 2 ^ 149 := by
    unfold value; split <;> push_cast <;> ring
  rw [hdiff, abs_mul, abs_of_pos (show (0 : Int) < 2 ^ 149 by positivity)] at herr
  refine le_of_mul_le_mul_right (a := (2 ^ 149 : Int)) ?_ (by positivity)
  calc _ = 2 ^ 24 * (|q * n - value a| * 2 ^ 149) := by ring
    _ ≤ _ := herr
    _ = _ := by push_cast; ring

/-! Values between bounds -/

@[simp] theorem value_zero : value zero = 0 := by decide
@[simp] theorem value_half : value half = 2 ^ 148 := by decide
@[simp] theorem value_one : value one = 2 ^ 149 := by decide
@[simp] theorem isFinite_zero : isFinite zero = true := by decide
@[simp] theorem isFinite_half : isFinite half = true := by decide
@[simp] theorem isFinite_one : isFinite one = true := by decide

/-- The words strictly between the two infinities are finite. -/
theorem isFinite_of_key {a : Word} (h0 : key 0xFF800000#32 < key a) (h1 : key a < key 0x7F800000#32) : isFinite a = true := by
  rw [show key 0xFF800000#32 = -(infMag : Int) by decide] at h0
  rw [show key 0x7F800000#32 = (infMag : Int) by decide] at h1
  refine decide_eq_true ?_
  unfold key at h0 h1
  generalize sign a = s at h0 h1
  cases s <;> simp only [if_true, if_false, Bool.false_eq_true] at h0 h1 <;> omega

/-- A word between finite bounds is finite, and its value is between theirs. -/
theorem between_iff {lo hi x : Word} (hlo : isFinite lo = true) (hhi : isFinite hi = true) :
    le lo x = true ∧ le x hi = true ↔ isFinite x = true ∧ value lo ≤ value x ∧ value x ≤ value hi := by
  constructor
  · rintro ⟨h0, h1⟩
    have hx : isFinite x = true :=
      isFinite_of_key (lt_of_lt_of_le (key_of_isFinite hlo).1 ((le_iff _ _).1 h0).2.2)
        (lt_of_le_of_lt ((le_iff _ _).1 h1).2.2 (key_of_isFinite hhi).2)
    exact ⟨hx, (le_iff_value_le hlo hx).1 h0, (le_iff_value_le hx hhi).1 h1⟩
  · rintro ⟨hx, h0, h1⟩
    exact ⟨(le_iff_value_le hlo hx).2 h0, (le_iff_value_le hx hhi).2 h1⟩

theorem value_add_between {a b lo hi : Word} (ha : isFinite a = true) (hb : isFinite b = true) (hlo : isFinite lo = true)
    (hhi : isFinite hi = true) (h0 : value lo ≤ value a + value b) (h1 : value a + value b ≤ value hi) :
    isFinite (add a b) = true ∧ value lo ≤ value (add a b) ∧ value (add a b) ≤ value hi :=
  (between_iff hlo hhi).1 ⟨le_add_of_value_le ha hb hlo h0, add_le_of_value_le ha hb hhi h1⟩

theorem value_sub_between {a b lo hi : Word} (ha : isFinite a = true) (hb : isFinite b = true) (hlo : isFinite lo = true)
    (hhi : isFinite hi = true) (h0 : value lo ≤ value a - value b) (h1 : value a - value b ≤ value hi) :
    isFinite (sub a b) = true ∧ value lo ≤ value (sub a b) ∧ value (sub a b) ≤ value hi := by
  obtain ⟨hnan, hkey⟩ := key_sub ha hb
  refine (between_iff hlo hhi).1 ⟨(le_iff _ _).2 ⟨((isFinite_iff _).1 hlo).1, hnan, ?_⟩,
    (le_iff _ _).2 ⟨hnan, ((isFinite_iff _).1 hhi).1, ?_⟩⟩
  · rw [hkey, ← roundedKey_value hlo]
    exact roundedKey_mono h0
  · rw [hkey, ← roundedKey_value hhi]
    exact roundedKey_mono h1

theorem le_abs_iff {a c : Word} (hc : isFinite c = true) :
    le (abs a) c = true ↔ isFinite a = true ∧ |value a| ≤ value c := by
  constructor
  · intro h
    have hpos : 0 ≤ key (abs a) := by simp [key]
    have hfin : isFinite (abs a) = true :=
      isFinite_of_key (lt_of_lt_of_le (by decide) hpos) (lt_of_le_of_lt ((le_iff _ _).1 h).2.2 (key_of_isFinite hc).2)
    exact ⟨by simpa using hfin, by rwa [le_iff_value_le hfin hc, value_abs] at h⟩
  · rintro ⟨hfin, h⟩
    rwa [le_iff_value_le (by simpa using hfin) hc, value_abs]

end Sys2Proof.Machine.F32
end

section
/-! PROOF. The linear interpolator (40_render.md R109, R110) stays within the bound of log entry 19: no rounding error of its
additions carries a baseline that meets the bound, on its way to a target of at most 2^64, beyond it. -/

namespace Sys2Proof.Machine

open Sys2Proof Sys2Proof.Safety

/-- The bound of log entry 19 on a baseline, as a bound on its value in units of 2^-149. -/
theorem le_rampLimit_iff {a : Word} :
    F32.le (F32.abs a) rampLimit = true ↔ F32.isFinite a = true ∧ |F32.value a| ≤ 2 ^ 249 := by
  rw [F32.le_abs_iff (by decide), show F32.value rampLimit = 2 ^ 249 by decide]

/-- The bound of 40_render.md R103 on a target, as a bound on its value in units of 2^-149. -/
theorem le_fmTargetLimit_iff {a : Word} :
    F32.le (F32.abs a) fmTargetLimit = true ↔ F32.isFinite a = true ∧ |F32.value a| ≤ 2 ^ 213 := by
  rw [F32.le_abs_iff (by decide), show F32.value fmTargetLimit = 2 ^ 213 by decide]

section
variable {target baseline : Word} {n : Nat} (ht : F32.le (F32.abs target) fmTargetLimit = true)
  (hb : F32.le (F32.abs baseline) rampLimit = true) (h0 : 0 < n) (hn : n ≤ 1024)
include ht hb h0 hn

/-- n increments lead from the baseline to the target, but for the two roundings of 40_render.md R109. -/
theorem increment_error : F32.isFinite (increment target baseline n) = true ∧
    |F32.value (increment target baseline n) * n - (F32.value target - F32.value baseline)| ≤ 2 ^ 228 := by
  obtain ⟨htf, htv⟩ := le_fmTargetLimit_iff.1 ht
  obtain ⟨hbf, hbv⟩ := le_rampLimit_iff.1 hb
  rw [Int.abs_eq_natAbs] at htv hbv
  have hdist : |F32.value target - F32.value baseline| ≤ 2 ^ 250 := by rw [Int.abs_eq_natAbs]; omega
  obtain ⟨hdf, hderr⟩ := F32.value_sub_error htf hbf (by omega)
  simp only [Int.abs_eq_natAbs] at hdist hderr
  have hdiff : |F32.value (F32.sub target baseline)| ≤ 2 ^ 251 := by rw [Int.abs_eq_natAbs]; omega
  obtain ⟨hqf, hqerr⟩ := F32.value_div_ofNat_error hdf h0 (by omega) (by omega)
  refine ⟨hqf, ?_⟩
  unfold increment
  generalize F32.value (F32.div _ _) * (n : Int) = q at hqerr ⊢
  simp only [Int.abs_eq_natAbs] at *
  omega

/-- After k of the n interpolator steps the value is off the straight line by at most 2^228 units for each step. -/
theorem ramp_error {k : Nat} (hk : k ≤ n) :
    F32.isFinite ((F32.add · (increment target baseline n))^[k] baseline) = true ∧
      |F32.value ((F32.add · (increment target baseline n))^[k] baseline) -
        (F32.value baseline + k * F32.value (increment target baseline n))| ≤ k * 2 ^ 228 := by
  obtain ⟨hif, hierr⟩ := increment_error ht hb h0 hn
  obtain ⟨-, htv⟩ := le_fmTargetLimit_iff.1 ht
  obtain ⟨hbf, hbv⟩ := le_rampLimit_iff.1 hb
  generalize increment target baseline n = inc at *
  induction k with
  | zero => simpa using hbf
  | succ k ih =>
    obtain ⟨hvf, hverr⟩ := ih (by omega)
    rw [Function.iterate_succ_apply']
    generalize (F32.add · inc)^[k] baseline = v at *
    have hline : |(k + 1 : Int) * F32.value inc| ≤ |F32.value inc * n| := by
      rw [mul_comm (F32.value inc), abs_mul, abs_mul]
      exact mul_le_mul_of_nonneg_right (by rw [abs_of_nonneg (by positivity), Nat.abs_cast]; omega) (abs_nonneg _)
    rw [add_mul, one_mul] at hline
    have hsum : |F32.value v + F32.value inc| ≤ 2 ^ 251 := by
      simp only [Int.abs_eq_natAbs] at *
      omega
    obtain ⟨hf, herr⟩ := F32.value_add_error hvf hif (by omega)
    refine ⟨hf, ?_⟩
    push_cast
    rw [add_mul, one_mul]
    simp only [Int.abs_eq_natAbs] at *
    omega

theorem ramp_isFinite {k : Nat} (hk : k ≤ n) :
    F32.isFinite ((F32.add · (increment target baseline n))^[k] baseline) = true := (ramp_error ht hb h0 hn hk).1

/-- The block leaves a baseline within the bound of log entry 19. -/
theorem ramp_end_le_rampLimit :
    F32.le (F32.abs ((F32.add · (increment target baseline n))^[n] baseline)) rampLimit = true := by
  obtain ⟨hf, herr⟩ := ramp_error ht hb h0 hn (le_refl n)
  obtain ⟨-, hierr⟩ := increment_error ht hb h0 hn
  obtain ⟨-, htv⟩ := le_fmTargetLimit_iff.1 ht
  refine le_rampLimit_iff.2 ⟨hf, ?_⟩
  rw [mul_comm (n : Int)] at herr
  simp only [Int.abs_eq_natAbs] at *
  omega

end

/-- The two parameters are interpolated apart from one another (40_render.md R110). -/
theorem rampStep_iterate (incF incPw : Word) (k : Nat) (r : Ramp) :
    (rampStep incF incPw)^[k] r = { fi := (F32.add · incF)^[k] r.fi, pwi := (F32.add · incPw)^[k] r.pwi } := by
  induction k generalizing r with
  | zero => rfl
  | succ k ih => simp only [Function.iterate_succ_apply, ih, rampStep]

end Sys2Proof.Machine
end

section
/-! PROOF. The phase of one sample (41_phase_and_corrections.md R131, R132, R134, R135): from [0, 1], with a frequency within
CLAMP_F, the advance and its wrap come back to [0, 1], and to [0, 1) without through-zero FM. -/

namespace Sys2Proof.Machine

open Sys2Proof Sys2Proof.Safety

/-- The phase after the wrap of a step, the same for every shape (R132, R134, R135). -/
def wrappedPhase (tz : Bool) (phase : Word) : Word :=
  if F32.le F32.one phase then F32.sub phase F32.one
  else if tz && F32.lt phase F32.zero then F32.add phase F32.one else phase

theorem wrapSaw_phase_eq (kid : BitVec 8) (tz : Bool) (f : Word) (v : Voice) :
    (wrapSaw kid tz f v).phase = wrappedPhase tz v.phase := wrapSaw_phase v f kid tz

theorem wrapPulse_phase_eq (kid : BitVec 8) (fam : Family) (tz : Bool) (f : Word) (v : Voice) :
    (wrapPulse kid fam tz f v).phase = wrappedPhase tz v.phase := wrapPulse_phase v f kid tz fam

theorem sawVoice_phase (kid : BitVec 8) (tz : Bool) (f : Word) (v : Voice) :
    (sawVoice kid tz f v).phase = wrappedPhase tz v.phase := wrapSaw_phase_eq kid tz f v

theorem slopeVoice_phase (kid : BitVec 8) (tz : Bool) (f pw : Word) (v : Voice) :
    (slopeVoice kid tz f pw v).phase = wrappedPhase tz v.phase := by
  simp [slopeVoice, wrapPulse_phase_eq]

theorem squareVoice_phase (kid : BitVec 8) (tz : Bool) (f pw : Word) (v : Voice) :
    (squareVoice kid tz f pw v).phase = wrappedPhase tz v.phase := by
  simp [squareVoice, wrapPulse_phase_eq]

theorem stepShape_phase (shape : Shape) (kid : BitVec 8) (tz : Bool) (f pw : Word) (v : Voice) :
    (stepShape shape kid tz f pw v).1.phase = wrappedPhase tz v.phase := by
  cases shape with
  | impulse => exact sawVoice_phase kid tz f v
  | saw => exact sawVoice_phase kid tz f v
  | triangle => exact slopeVoice_phase kid tz f pw v
  | slope => exact slopeVoice_phase kid tz f pw v
  | square => exact squareVoice_phase kid tz f pw v
  | squareBright => exact squareVoice_phase kid tz f pw v
  | squareDark => exact squareVoice_phase kid tz f pw v
  | squareTriangle => exact squareVoice_phase kid tz f pw v

theorem sample_phase (shape : Shape) (kid : BitVec 8) (tz : Bool) (e : Option Word) (r : Ramp) (v : Voice) :
    (sample shape kid tz e r v).1.phase = wrappedPhase tz (F32.add v.phase (controlF tz e r.fi)) := by
  simp [sample, stepShape_phase]

theorem phaseOk_iff {phase : Word} :
    phaseOk phase ↔ F32.isFinite phase = true ∧ 0 ≤ F32.value phase ∧ F32.value phase ≤ 2 ^ 149 := by
  rw [phaseOk, F32.between_iff F32.isFinite_zero F32.isFinite_one, F32.value_zero, F32.value_one]

/-! The frequency of CONTROL -/

@[simp] theorem value_kMax : F32.value kMax = 2 ^ 147 := by decide
@[simp] theorem isFinite_kMax : F32.isFinite kMax = true := by decide

theorem F32.isNaN_mul_of_finite {a b : Word} (ha : F32.isFinite a = true) (hb : F32.isFinite b = true) :
    F32.isNaN (F32.mul a b) = false := by
  rw [F32.mul_of_finite ha hb]
  exact F32.isNaN_pack _ (F32.roundMag_le_infMag _ _)

/-- 1 + e does not overflow for a finite e: 1 is far below the last place of the largest value. -/
theorem F32.isFinite_one_add {e : Word} (he : F32.isFinite e = true) : F32.isFinite (F32.add F32.one e) = true := by
  have hmag : F32.mag e ≤ F32.infMag - 1 := Nat.le_sub_one_of_lt (F32.mag_lt_infMag he)
  have hunits : F32.units e ≤ (2 ^ 25 - 2) * 2 ^ 252 :=
    (F32.unitsOf_mono hmag).trans (by decide)
  refine ((F32.correctlyRounded_sum _ F32.isFinite_one he).1 ?_).1
  rw [F32.value_one, Int.abs_eq_natAbs, F32.value]
  split <;> omega

/-- A frequency in the range of CLAMP_F for the mode (40_render.md R105). -/
def inClampF (tz : Bool) (f : Word) : Prop :=
  F32.le (if tz then F32.neg kMax else kMin) f = true ∧ F32.le f kMax = true

/-- R107 for the frequency: CONTROL answers a frequency in the range of CLAMP_F, with and without external FM. -/
theorem controlF_inClampF {tz : Bool} {e : Option Word} {fi : Word} (hfi : F32.isFinite fi = true)
    (he : ∀ x ∈ e, F32.isFinite x = true) : inClampF tz (controlF tz e fi) := by
  cases e with
  | none => exact clampF_between tz ((F32.isFinite_iff fi).1 hfi).1
  | some x => exact clampF_between tz (F32.isNaN_mul_of_finite hfi (F32.isFinite_one_add (he x rfl)))

theorem inClampF.value_bounds {tz : Bool} {f : Word} (h : inClampF tz f) :
    F32.isFinite f = true ∧ -2 ^ 147 ≤ F32.value f ∧ F32.value f ≤ 2 ^ 147 ∧ (tz = false → 0 ≤ F32.value f) := by
  cases tz with
  | true =>
    obtain ⟨hf, hlo, hhi⟩ := (F32.between_iff (lo := F32.neg kMax) (by decide) isFinite_kMax).1 h
    rw [F32.value_neg, value_kMax] at hlo
    exact ⟨hf, hlo, value_kMax ▸ hhi, by simp⟩
  | false =>
    obtain ⟨hf, hlo, hhi⟩ := (F32.between_iff (lo := kMin) (by decide) isFinite_kMax).1 h
    have hpos : 0 ≤ F32.value f := le_trans (by decide) hlo
    exact ⟨hf, by omega, value_kMax ▸ hhi, fun _ => hpos⟩

/-! The advance and the wrap -/

/-- The advance from [0, 1] lies in [-0.25, 1.25], and is not negative without through-zero FM (R131). -/
theorem advance_bounds {tz : Bool} {phase f : Word} (hp : phaseOk phase) (hf : inClampF tz f) :
    F32.isFinite (F32.add phase f) = true ∧ -2 ^ 147 ≤ F32.value (F32.add phase f) ∧
      F32.value (F32.add phase f) ≤ 2 ^ 149 + 2 ^ 147 ∧ (tz = false → 0 ≤ F32.value (F32.add phase f)) := by
  obtain ⟨hpf, hp0, hp1⟩ := phaseOk_iff.1 hp
  obtain ⟨hff, hf0, hf1, hpos⟩ := hf.value_bounds
  have hlo : F32.value (F32.neg kMax) = -2 ^ 147 := by simp
  have hhi : F32.value 0x3FA00000#32 = 2 ^ 149 + 2 ^ 147 := by decide
  have hhif : F32.isFinite 0x3FA00000#32 = true := by decide
  obtain ⟨hxf, hx0, hx1⟩ := F32.value_add_between (lo := F32.neg kMax) hpf hff (by decide) hhif (by omega) (by omega)
  refine ⟨hxf, hlo ▸ hx0, hhi ▸ hx1, fun htz => ?_⟩
  have hf0' := hpos htz
  obtain ⟨-, hx0', -⟩ := F32.value_add_between hpf hff F32.isFinite_zero hhif (by rw [F32.value_zero]; omega) (by omega)
  rwa [F32.value_zero] at hx0'

/-- A forward wrap of a phase in [1, 1.25] answers one in [0, 0.25] (R132, R134). -/
theorem forwardWrap_bounds {x : Word} (hx : F32.isFinite x = true) (h0 : 2 ^ 149 ≤ F32.value x)
    (h1 : F32.value x ≤ 2 ^ 149 + 2 ^ 147) :
    F32.isFinite (F32.sub x F32.one) = true ∧ 0 ≤ F32.value (F32.sub x F32.one) ∧
      F32.value (F32.sub x F32.one) ≤ 2 ^ 147 := by
  obtain ⟨hf, hlo, hhi⟩ := F32.value_sub_between hx F32.isFinite_one F32.isFinite_zero isFinite_kMax
    (by rw [F32.value_zero, F32.value_one]; omega) (by rw [F32.value_one, value_kMax]; omega)
  exact ⟨hf, F32.value_zero ▸ hlo, value_kMax ▸ hhi⟩

/-- A reverse wrap of a phase in [-0.25, 0) answers one in [0, 1], the value 1.0 by rounding (R132, R135). -/
theorem reverseWrap_phaseOk {x : Word} (hx : F32.isFinite x = true) (h0 : -2 ^ 147 ≤ F32.value x) (h1 : F32.value x ≤ 0) :
    phaseOk (F32.add x F32.one) :=
  (F32.between_iff F32.isFinite_zero F32.isFinite_one).2
    (F32.value_add_between hx F32.isFinite_one F32.isFinite_zero F32.isFinite_one
      (by rw [F32.value_zero, F32.value_one]; omega) (by rw [F32.value_one]; omega))

theorem lt_one_iff {x : Word} (hx : F32.isFinite x = true) : F32.lt x F32.one = true ↔ F32.value x < 2 ^ 149 := by
  rw [F32.lt_iff_value_lt hx F32.isFinite_one, F32.value_one]

/-- The phase of one sample is back in [0, 1], and below 1 without through-zero FM (10_state.md R23). -/
theorem wrappedPhase_ok {tz : Bool} {phase f : Word} (hp : phaseOk phase) (hf : inClampF tz f) :
    phaseOk (wrappedPhase tz (F32.add phase f)) ∧
      (tz = false → F32.lt (wrappedPhase tz (F32.add phase f)) F32.one = true) := by
  obtain ⟨hxf, hx0, hx1, hpos⟩ := advance_bounds hp hf
  generalize F32.add phase f = x at *
  unfold wrappedPhase
  split
  next hge =>
    rw [F32.le_iff_value_le F32.isFinite_one hxf, F32.value_one] at hge
    obtain ⟨hyf, hy0, hy1⟩ := forwardWrap_bounds hxf hge hx1
    exact ⟨phaseOk_iff.2 ⟨hyf, hy0, by omega⟩, fun _ => (lt_one_iff hyf).2 (by omega)⟩
  next hlt =>
    rw [F32.le_iff_value_le F32.isFinite_one hxf, F32.value_one, not_le] at hlt
    have hneg := F32.lt_iff_value_lt hxf F32.isFinite_zero
    rw [F32.value_zero] at hneg
    cases tz with
    | false =>
      rw [Bool.false_and, if_neg Bool.false_ne_true]
      exact ⟨phaseOk_iff.2 ⟨hxf, hpos rfl, hlt.le⟩, fun _ => (lt_one_iff hxf).2 hlt⟩
    | true =>
      refine ⟨?_, fun htz => Bool.noConfusion htz⟩
      rw [Bool.true_and]
      split
      next h => exact reverseWrap_phaseOk hxf hx0 (hneg.1 h).le
      next h => exact phaseOk_iff.2 ⟨hxf, not_lt.1 (mt hneg.2 h), hlt.le⟩

end Sys2Proof.Machine
end

section
/-! PROOF. An accepted RENDER: what its checks give (40_render.md R102 to R106) and what its block leaves of the phase and the
baselines (R111). -/

namespace Sys2Proof.Machine

open Sys2Proof Sys2Proof.Safety

/-! The clamped pulse width -/

/-- 2·abs(f) is at most 0.5 for a frequency within K_MAX. -/
theorem two_mul_abs_le_half {f : Word} (hf : F32.le (F32.abs f) kMax = true) :
    F32.le F32.zero (F32.mul F32.two (F32.abs f)) = true ∧ F32.le (F32.mul F32.two (F32.abs f)) F32.half = true := by
  obtain ⟨hff, -⟩ := (F32.le_abs_iff (by decide)).1 hf
  obtain ⟨-, -, hk⟩ := (F32.le_iff _ _).1 hf
  have hfa : F32.isFinite (F32.abs f) = true := by simpa using hff
  have hmag : F32.mag f ≤ F32.mag kMax := by
    simpa [F32.key, show F32.sign kMax = false by decide] using hk
  have hround : F32.roundMag (F32.units F32.two * F32.units (F32.abs f)) (2 ^ 149) ≤ F32.mag F32.half := by
    rw [F32.units_abs]
    exact (F32.roundMag_mono _ (Nat.mul_le_mul_left _ (F32.unitsOf_mono hmag))).trans (by decide)
  have hnan := F32.isNaN_mul_of_finite (show F32.isFinite F32.two = true by decide) hfa
  have hkey : F32.key (F32.mul F32.two (F32.abs f)) =
      F32.roundMag (F32.units F32.two * F32.units (F32.abs f)) (2 ^ 149) := by
    rw [F32.mul_of_finite (by decide) hfa, F32.key_pack _ (F32.roundMag_lt _ _), F32.sign_abs]
    simp [show F32.sign F32.two = false by decide]
  refine ⟨(F32.le_iff _ _).2 ⟨by decide, hnan, ?_⟩, (F32.le_iff _ _).2 ⟨hnan, by decide, ?_⟩⟩
  · rw [hkey, show F32.key F32.zero = 0 by decide]
    exact Int.natCast_nonneg _
  · rw [hkey, show F32.key F32.half = F32.mag F32.half by decide]
    exact_mod_cast hround

/-- The bounds of CLAMP_PW stand in order around 0.5 and within [0, 1] (40_render.md R106). -/
theorem pwBounds_ordered {f : Word} (hf : F32.le (F32.abs f) kMax = true) :
    F32.le F32.zero (pwLow f) = true ∧ F32.le (pwLow f) F32.half = true ∧
      F32.le F32.half (pwHigh f) = true ∧ F32.le (pwHigh f) F32.one = true := by
  obtain ⟨h0, h1⟩ := two_mul_abs_le_half hf
  obtain ⟨haf, ha0, ha1⟩ := (F32.between_iff F32.isFinite_zero F32.isFinite_half).1 ⟨h0, h1⟩
  rw [F32.value_zero] at ha0
  rw [F32.value_half] at ha1
  obtain ⟨hb0, hb1⟩ := (F32.between_iff F32.isFinite_half F32.isFinite_one).2
    (F32.value_sub_between F32.isFinite_one haf F32.isFinite_half F32.isFinite_one
      (by rw [F32.value_one, F32.value_half]; omega) (by rw [F32.value_one]; omega))
  refine ⟨?_, ?_, ?_, ?_⟩
  · unfold pwLow; simp only []; split <;> [decide; exact h0]
  · unfold pwLow; simp only []; split <;> [decide; exact h1]
  · unfold pwHigh; simp only []; split <;> [decide; exact hb0]
  · unfold pwHigh; simp only []; split <;> [decide; exact hb1]

/-- CLAMP_PW of anything but a NaN lies in [0, 1], for a frequency within K_MAX (40_render.md R106). -/
theorem clampPw_between {p f : Word} (hp : F32.isNaN p = false) (hf : F32.le (F32.abs f) kMax = true) :
    F32.le F32.zero (clampPw p f) = true ∧ F32.le (clampPw p f) F32.one = true := by
  obtain ⟨hlo, hlo', hhi', hhi⟩ := pwBounds_ordered hf
  obtain ⟨h0, h1⟩ := constrain_between hp (F32.le_trans' hlo' hhi')
  exact ⟨F32.le_trans' hlo h0, F32.le_trans' h1 hhi⟩

theorem inClampF.le_kMax {tz : Bool} {f : Word} (h : inClampF tz f) : F32.le (F32.abs f) kMax = true := by
  obtain ⟨hf, hlo, hhi, -⟩ := h.value_bounds
  exact (F32.le_abs_iff isFinite_kMax).2 ⟨hf, by rw [value_kMax]; exact abs_le.2 ⟨hlo, hhi⟩⟩

/-! What the checks give -/

/-- Where an accepted RENDER takes its targets and its FM words from (40_render.md R103, R104). -/
theorem checkRender_accepted_cases {tz fm : Bool} {size : Nat} {s : State} {f p : Word} {es : List (Option Word)}
    (h : checkRender tz fm size s = .accepted f p es) :
    F32.isNaN s.targetFreq = false ∧ F32.isNaN s.targetPw = false ∧
      ((f = clampF s.targetFreq tz ∧ p = clampPw s.targetPw f ∧ es = List.replicate size none) ∨
        (f = s.targetFreq ∧ p = s.targetPw ∧ targetsInRange s = true ∧
          ∃ ws, scanFm s.mem 0 size = .finite ws ∧ es = ws.map some)) := by
  rcases checkRender_cases tz fm size s with
    ⟨-, h1⟩ | ⟨-, ⟨-, h1⟩ | ⟨-, ⟨-, h1⟩ | ⟨hnan, ⟨-, h1⟩ | ⟨-, ⟨-, h1⟩ | ⟨hrange, ⟨ws, hws, h1⟩ | ⟨-, h1⟩ |
      ⟨_, -, h1⟩⟩⟩⟩⟩⟩
  case inr.inr.inr.inl =>
    obtain ⟨hf, hp⟩ := Bool.or_eq_false_iff.1 hnan
    obtain ⟨rfl, rfl, rfl⟩ := Verdict.accepted.inj (h1.symm.trans h)
    exact ⟨hf, hp, .inl ⟨rfl, rfl, rfl⟩⟩
  case inr.inr.inr.inr.inr.inl =>
    obtain ⟨hf, hp⟩ := Bool.or_eq_false_iff.1 hnan
    obtain ⟨rfl, rfl, rfl⟩ := Verdict.accepted.inj (h1.symm.trans h)
    exact ⟨hf, hp, .inr ⟨rfl, rfl, hrange, ws, hws, rfl⟩⟩
  all_goals exact Verdict.noConfusion (h1.symm.trans h)

/-- The targets of an accepted RENDER are within FM_TARGET_LIMIT, with and without external FM (40_render.md R103, R104). -/
theorem accepted_targets_le_limit {tz fm : Bool} {size : Nat} {s : State} {f p : Word} {es : List (Option Word)}
    (h : checkRender tz fm size s = .accepted f p es) :
    F32.le (F32.abs f) fmTargetLimit = true ∧ F32.le (F32.abs p) fmTargetLimit = true := by
  obtain ⟨hnf, hnp, ⟨rfl, rfl, -⟩ | ⟨rfl, rfl, hrange, -⟩⟩ := checkRender_accepted_cases h
  · have hf := inClampF.le_kMax (clampF_between tz hnf)
    obtain ⟨hpf, hp0, hp1⟩ := phaseOk_iff.1 (clampPw_between hnp hf)
    exact ⟨F32.le_trans' hf (by decide), le_fmTargetLimit_iff.2 ⟨hpf, abs_le.2 ⟨by omega, by omega⟩⟩⟩
  · exact (Bool.and_eq_true _ _).mp hrange

/-- The FM words of an accepted RENDER are finite (40_render.md R103). -/
theorem accepted_fm_finite {tz fm : Bool} {size : Nat} {s : State} {f p : Word} {es : List (Option Word)}
    (h : checkRender tz fm size s = .accepted f p es) : ∀ e ∈ es, ∀ x ∈ e, F32.isFinite x = true := by
  obtain ⟨-, -, ⟨-, -, rfl⟩ | ⟨-, -, -, ws, hws, rfl⟩⟩ := checkRender_accepted_cases h
  · intro e he
    simp [List.eq_of_mem_replicate he]
  · obtain ⟨-, hall⟩ := scanFm_finite hws
    intro e he x hx
    obtain ⟨w, hw, rfl⟩ := List.mem_map.1 he
    obtain ⟨j, hj, rfl⟩ := List.getElem_of_mem hw
    obtain rfl := Option.mem_some.1 hx
    exact (hall j hj).2

/-! The sample loop -/

theorem renderLoop_nil_voice (shape : Shape) (kid : BitVec 8) (tz : Bool) (incF incPw : Word) (r : Ramp) (v : Voice) :
    (renderLoop shape kid tz incF incPw [] r v).voice = v := rfl

theorem renderLoop_cons_voice (shape : Shape) (kid : BitVec 8) (tz : Bool) (incF incPw : Word) (e : Option Word)
    (es : List (Option Word)) (r : Ramp) (v : Voice) :
    (renderLoop shape kid tz incF incPw (e :: es) r v).voice =
      (renderLoop shape kid tz incF incPw es (rampStep incF incPw r)
        (sample shape kid tz e (rampStep incF incPw r) v).1).voice := rfl

/-- A loop with finite FM words and finite interpolator outputs keeps PHASE in [0, 1], and leaves it below 1 without through-zero
FM once it has run a sample (10_state.md R23). -/
theorem renderLoop_phaseOk {shape : Shape} {kid : BitVec 8} {tz : Bool} {incF incPw : Word} {es : List (Option Word)} {r : Ramp}
    {v : Voice} (hes : ∀ e ∈ es, ∀ x ∈ e, F32.isFinite x = true)
    (hr : ∀ k ≤ es.length, F32.isFinite ((rampStep incF incPw)^[k] r).fi = true) (hv : phaseOk v.phase) :
    phaseOk (renderLoop shape kid tz incF incPw es r v).voice.phase ∧
      (es ≠ [] → tz = false → F32.lt (renderLoop shape kid tz incF incPw es r v).voice.phase F32.one = true) := by
  induction es generalizing r v with
  | nil => exact ⟨hv, fun h => absurd rfl h⟩
  | cons e es ih =>
    have hfi := hr 1 (by simp)
    rw [Function.iterate_one] at hfi
    obtain ⟨hok, hlt⟩ := wrappedPhase_ok hv (controlF_inClampF (tz := tz) hfi (hes e List.mem_cons_self))
    rw [← sample_phase shape kid tz e (rampStep incF incPw r) v] at hok hlt
    obtain ⟨hok', hlt'⟩ := ih (r := rampStep incF incPw r) (fun e' he' => hes e' (List.mem_cons_of_mem _ he'))
      (fun k hk => by simpa only [Function.iterate_succ_apply] using hr (k + 1) (Nat.succ_le_succ hk)) hok
    rw [renderLoop_cons_voice]
    refine ⟨hok', fun _ htz => ?_⟩
    cases es with
    | nil => rw [renderLoop_nil_voice]; exact hlt htz
    | cons e' es' => exact hlt' (List.cons_ne_nil _ _) htz

/-! The block -/

theorem seed_le_rampLimit {o : Osc} {f p : Word} (hf : F32.le (F32.abs f) fmTargetLimit = true)
    (hp : F32.le (F32.abs p) fmTargetLimit = true) (hof : F32.le (F32.abs o.smoothFreq) rampLimit = true)
    (hop : F32.le (F32.abs o.smoothPw) rampLimit = true) :
    F32.le (F32.abs (seed f p o).smoothFreq) rampLimit = true ∧ F32.le (F32.abs (seed f p o).smoothPw) rampLimit = true := by
  have hlim : F32.le fmTargetLimit rampLimit = true := by decide
  rw [seed_smoothFreq, seed_smoothPw]
  split
  · exact ⟨hof, hop⟩
  · exact ⟨F32.le_trans' hf hlim, F32.le_trans' hp hlim⟩

/-- An accepted block keeps PhaseInv, and without through-zero FM it leaves PHASE below 1 (10_state.md R23). -/
theorem renderBlock_phaseInv {shape : Shape} {tz fm : Bool} {size : Nat} {s : State} {f p : Word} {es : List (Option Word)}
    (hs : PhaseInv s) (h : checkRender tz fm size s = .accepted f p es) :
    PhaseInv (renderBlock shape tz f p es s) ∧
      (tz = false → F32.lt (renderBlock shape tz f p es s).osc.phase F32.one = true) := by
  obtain ⟨hparams, hphase, hfreq, hpw⟩ := hs
  obtain ⟨hlen, hpos, hmax⟩ := checkRender_accepted_length h
  obtain ⟨hf, hp⟩ := accepted_targets_le_limit h
  obtain ⟨hbf, hbp⟩ := seed_le_rampLimit hf hp hfreq hpw
  have h0 : 0 < es.length := hlen ▸ hpos
  have hn : es.length ≤ 1024 := hlen ▸ hmax.trans (maxBlockSize_le hparams)
  obtain ⟨hok, hlt⟩ := renderLoop_phaseOk (shape := shape) (kid := s.params.kernelId) (tz := tz)
    (incPw := increment p (seed f p s.osc).smoothPw es.length) (v := startVoice (seed f p s.osc))
    (r := ⟨(seed f p s.osc).smoothFreq, (seed f p s.osc).smoothPw⟩) (accepted_fm_finite h)
    (fun k hk => by rw [rampStep_iterate]; exact ramp_isFinite hf hbf h0 hn hk) (by simpa using hphase)
  rw [renderBlock_osc]
  refine ⟨⟨hparams, hok, ?_, ?_⟩, hlt (List.length_pos_iff.1 h0)⟩
  · rw [renderBlock_osc, persist_smoothFreq, blockSamples, renderLoop_ramp, rampStep_iterate]
    exact ramp_end_le_rampLimit hf hbf h0 hn
  · rw [renderBlock_osc, persist_smoothPw, blockSamples, renderLoop_ramp, rampStep_iterate]
    exact ramp_end_le_rampLimit hp hbp h0 hn

end Sys2Proof.Machine
end

section
/-! PROOF. What a command and what a step can do, said once for every invariant of the state. -/

namespace Sys2Proof.Machine

open Sys2Proof Sys2Proof.Safety

/-- Every command is a control command or the RENDER of a shape (30_encoding.md R73). -/
theorem Instr.cases_renderOf (i : Instr) :
    i = .nop ∨ i = .init ∨ i = .keval ∨ ∃ shape tz fm size, i = renderOf shape tz fm size := by
  cases i with
  | nop => exact .inl rfl
  | init => exact .inr (.inl rfl)
  | keval => exact .inr (.inr (.inl rfl))
  | renderImpulse tz fm size => exact .inr (.inr (.inr ⟨.impulse, tz, fm, size, rfl⟩))
  | renderSaw tz fm size => exact .inr (.inr (.inr ⟨.saw, tz, fm, size, rfl⟩))
  | renderTriangle tz fm size => exact .inr (.inr (.inr ⟨.triangle, tz, fm, size, rfl⟩))
  | renderSlope tz fm size => exact .inr (.inr (.inr ⟨.slope, tz, fm, size, rfl⟩))
  | renderSquare tz fm size => exact .inr (.inr (.inr ⟨.square, tz, fm, size, rfl⟩))
  | renderSquareBright tz fm size => exact .inr (.inr (.inr ⟨.squareBright, tz, fm, size, rfl⟩))
  | renderSquareDark tz fm size => exact .inr (.inr (.inr ⟨.squareDark, tz, fm, size, rfl⟩))
  | renderSquareTriangle tz fm size => exact .inr (.inr (.inr ⟨.squareTriangle, tz, fm, size, rfl⟩))

/-- What a command that answers a next state has done: a reject, an accepted block, or a control command, which leaves the
parameters, the buffers and STATUS alone and the oscillator as it was or at its reset values (43_control.md R194). -/
theorem exec_next {i : Instr} {s t : State} (h : exec i s = .next t) :
    (∃ c, t = reject c s) ∨
      (∃ shape tz fm size f p es, checkRender tz fm size s = .accepted f p es ∧ t = renderBlock shape tz f p es s) ∨
        (t.params = s.params ∧ t.mem = s.mem ∧ sameStatus s t ∧ (t.osc = s.osc ∨ t.osc = State.reset.osc)) := by
  rcases Instr.cases_renderOf i with rfl | rfl | rfl | ⟨shape, tz, fm, size, rfl⟩
  · obtain rfl := Host.Outcome.next.inj h
    exact .inr (.inr ⟨rfl, rfl, ⟨rfl, rfl⟩, .inl rfl⟩)
  · obtain rfl := Host.Outcome.next.inj h
    exact .inr (.inr ⟨rfl, rfl, ⟨rfl, rfl⟩, .inr rfl⟩)
  · obtain rfl := Host.Outcome.next.inj h
    exact .inr (.inr ⟨rfl, rfl, ⟨rfl, rfl⟩, .inl rfl⟩)
  · rw [exec_renderOf] at h
    rcases render_next h with rfl | hrej | ⟨f, p, es, hacc, rfl⟩
    · exact .inr (.inr ⟨rfl, rfl, ⟨rfl, rfl⟩, .inl rfl⟩)
    · exact .inl hrej
    · exact .inr (.inl ⟨shape, tz, fm, size, f, p, es, hacc, rfl⟩)

/-- The state a request is served in: it has left the queue, and the answer is given. -/
def State.answering (s : State) (rest : List BusRequest) (r : Option BusResponse) : State :=
  { s with host := rest, response := r }

/-- What a step that answers a next state has done (20_memory.md R54, R55; 70_reset_and_hazards.md R230 to R232). -/
inductive StepEffect (s : State) : State → Prop
  /-- The queue is empty. -/
  | idle : s.host = [] → StepEffect s s
  /-- The platform's reset. -/
  | reset {rest} : s.host = .reset :: rest → StepEffect s (applyReset (s.answering rest none))
  /-- A read, a bus error or an access outside the window: nothing but the answer. -/
  | answered {q rest} (r : Option BusResponse) : s.host = q :: rest → StepEffect s (s.answering rest r)
  /-- A write to CMD whose word is a command. -/
  | command {w rest i t} : s.host = .write (s.params.base + 0x008) 32 w :: rest → decode w = .ok i →
      exec i (s.answering rest (some .writeDone)) = .next t → StepEffect s t
  /-- A write to CMD of an ILLEGAL word. -/
  | illegal {w rest} : s.host = .write (s.params.base + 0x008) 32 w :: rest →
      StepEffect s (reject .illegalCmd (s.answering rest (some .writeDone)))
  | status {w rest} : s.host = .write (s.params.base + 0x00C) 32 w :: rest →
      StepEffect s (writeStatus w (s.answering rest (some .writeDone)))
  | targetFreq {w rest} : s.host = .write (s.params.base + 0x010) 32 w :: rest →
      StepEffect s { s.answering rest (some .writeDone) with targetFreq := w }
  | targetPw {w rest} : s.host = .write (s.params.base + 0x014) 32 w :: rest →
      StepEffect s { s.answering rest (some .writeDone) with targetPw := w }
  | kernelT {w rest} : s.host = .write (s.params.base + 0x018) 32 w :: rest →
      StepEffect s { s.answering rest (some .writeDone) with kernelT := w }
  | fmBuf {off n w rest} : s.host = .write (s.params.base + off) 32 w :: rest → locate s.params off = some (.fmBuf n) →
      StepEffect s { s.answering rest (some .writeDone) with mem := s.mem.writeWord off w }

/-- The offset of a register stands in the table of 10_state.md, section 3. -/
theorem mem_regTable_of_locate {p : Params} {off : Nat} {r : Reg} (h : locate p off = some (.reg r)) : (off, r) ∈ regTable := by
  unfold locate at h
  split at h
  · simp at h
  · split at h
    · obtain ⟨r', hr', hrr⟩ := Option.map_eq_some_iff.1 h
      obtain rfl := Location.reg.inj hrr
      obtain ⟨l, l', hl, -⟩ := List.lookup_eq_some_iff.1 hr'
      rw [hl]
      simp
    · split at h
      · simp at h
      · split at h <;> simp at h

/-- A command word runs its command or is rejected (30_encoding.md R71, 43_control.md R193). -/
theorem command_effect {s t : State} {w : Word} {rest : List BusRequest}
    (hs : s.host = .write (s.params.base + 0x008) 32 w :: rest)
    (h : command w (s.answering rest (some .writeDone)) = .next t) : StepEffect s t := by
  rcases command_cases w (s.answering rest (some .writeDone)) with ⟨i, hi, hc⟩ | ⟨x, -, hc⟩
  · exact .command hs hi (hc ▸ h)
  · obtain rfl := Host.Outcome.next.inj (hc.symm.trans h)
    exact .illegal hs

theorem writeReg_effect {s t : State} {off : Nat} {r : Reg} {w : Word} {rest : List BusRequest}
    (hs : s.host = .write (s.params.base + off) 32 w :: rest) (hr : (off, r) ∈ regTable)
    (h : writeReg r w { s with host := rest } = .next t) : StepEffect s t := by
  cases r
  case cmd =>
    obtain rfl : off = 0x008 := by simpa [regTable] using hr
    exact command_effect hs h
  case status =>
    obtain rfl : off = 0x00C := by simpa [regTable] using hr
    obtain rfl := Host.Outcome.next.inj h
    exact .status hs
  case targetFreq =>
    obtain rfl : off = 0x010 := by simpa [regTable] using hr
    obtain rfl := Host.Outcome.next.inj h
    exact .targetFreq hs
  case targetPw =>
    obtain rfl : off = 0x014 := by simpa [regTable] using hr
    obtain rfl := Host.Outcome.next.inj h
    exact .targetPw hs
  case kernelT =>
    obtain rfl : off = 0x018 := by simpa [regTable] using hr
    obtain rfl := Host.Outcome.next.inj h
    exact .kernelT hs
  all_goals
    obtain rfl := Host.Outcome.next.inj h
    exact .answered (some .writeError) hs

theorem busWrite_effect {s t : State} {off width : Nat} {w : Word} {rest : List BusRequest}
    (hs : s.host = .write (s.params.base + off) width w :: rest)
    (h : busWrite off width w { s with host := rest } = .next t) : StepEffect s t := by
  have hrefuse : refuseWrite { s with host := rest } = .next t → StepEffect s t := fun h => by
    obtain rfl := Host.Outcome.next.inj h
    exact .answered (some .writeError) hs
  unfold busWrite at h
  split at h
  · exact hrefuse h
  next hw =>
    obtain rfl := not_not.1 hw
    split at h
    · exact hrefuse h
    next hloc => exact writeReg_effect hs (mem_regTable_of_locate hloc) h
    next hloc =>
      obtain rfl := Host.Outcome.next.inj h
      exact .fmBuf hs hloc
    · exact hrefuse h

/-- A window offset is its address less BASE (20_memory.md R50). -/
theorem eq_base_add_of_windowOffset {p : Params} {addr off : Nat} (h : windowOffset p addr = some off) :
    addr = p.base + off := by
  unfold windowOffset at h
  split at h
  · have := Option.some.inj h
    omega
  · simp at h

/-- Every step that answers a next state has one of the effects of `StepEffect`. -/
theorem step_effect {s t : State} (h : step s = .next t) : StepEffect s t := by
  cases hq : s.host with
  | nil =>
    obtain rfl := Host.Outcome.next.inj ((step_idle hq).symm.trans h)
    exact .idle hq
  | cons q rest =>
    rw [step_serve hq] at h
    have hanswer : ∀ r, Host.Outcome.next (φ := Fault) (ρ := Refusal) (s.answering rest r) = .next t → StepEffect s t :=
      fun r h => Host.Outcome.next.inj h ▸ .answered r hq
    cases q with
    | reset =>
      obtain rfl := Host.Outcome.next.inj h
      exact .reset hq
    | read addr width =>
      simp only [serve] at h
      split at h
      · exact hanswer none h
      next off _ =>
        rcases busRead_cases off width { s with host := rest } with ⟨r, hr⟩ | ⟨hf, -⟩
        · exact hanswer (some r) (hr.symm.trans h)
        · simp [hf] at h
    | write addr width w =>
      simp only [serve] at h
      split at h
      · exact hanswer none h
      next off hoff =>
        obtain rfl := eq_base_add_of_windowOffset hoff
        exact busWrite_effect hq h

end Sys2Proof.Machine

namespace Sys2Proof.Proofs

open Sys2Proof Sys2Proof.Machine Sys2Proof.Safety

theorem reset_osc_phaseInv : phaseOk State.reset.osc.phase ∧ F32.le (F32.abs State.reset.osc.smoothFreq) rampLimit = true ∧
    F32.le (F32.abs State.reset.osc.smoothPw) rampLimit = true := by decide

/-- Only an accepted block moves the phase and the baselines; INIT puts them at their reset values. -/
theorem exec_keeps_phaseInv {i : Instr} {s t : State} (hs : PhaseInv s) (h : exec i s = .next t) : PhaseInv t := by
  rcases exec_next h with ⟨c, rfl⟩ | ⟨shape, tz, fm, size, f, p, es, hacc, rfl⟩ | ⟨hparams, -, -, hosc | hosc⟩
  · exact hs
  · exact (renderBlock_phaseInv hs hacc).1
  · rwa [PhaseInv, hparams, hosc]
  · rw [PhaseInv, hparams, hosc]
    exact ⟨hs.1, reset_osc_phaseInv⟩

/-- Settles O13: a command keeps the bounds, a reset restores them, and no other step touches PHASE or a baseline. -/
theorem everyStepKeepsPhaseInTheUnitInterval : Obligations.EveryStepKeepsPhaseInTheUnitInterval := by
  unfold Obligations.EveryStepKeepsPhaseInTheUnitInterval
  intro s t hs h
  cases step_effect h with
  | @command w rest i _ _ _ hexec => exact exec_keeps_phaseInv (s := s.answering rest (some .writeDone)) hs hexec
  | reset => exact ⟨hs.1, reset_osc_phaseInv⟩
  | status => rwa [PhaseInv, writeStatus_params, writeStatus_osc]
  | _ => exact hs

end Sys2Proof.Proofs
end

section
/-! PROOF. RENDER under the conditions of 40_render.md R101 to R103. -/

namespace Sys2Proof.Machine

open Sys2Proof Sys2Proof.Safety

/-- The FM scan of words that are all written and finite lists them in order (40_render.md R103). -/
theorem scanFm_eq_of_finite {m : Memory} {size : Nat} (h : ∀ k, k < size → fmWordFinite m k) :
    ∃ ws, scanFm m 0 size = .finite ws ∧ ws.map some = (List.range size).map fun n => m.readWord (fmOffset n) := by
  obtain ⟨ws, hws⟩ := scanFm_of_all_finite (k := 0) fun j hj => by rw [Nat.zero_add]; exact h j hj
  obtain ⟨hlen, hall⟩ := scanFm_finite hws
  refine ⟨ws, hws, List.ext_getElem (by simp [hlen]) fun j hj hj' => ?_⟩
  obtain ⟨hw, -⟩ := hall j (by simpa using hj)
  simpa using hw.symm

/-- The checks accept under the conditions of 40_render.md R101 to R103, with the targets of R104 and the block's FM words. -/
theorem checkRender_of_renderAccepted (tz : Bool) {fm : Bool} {size : Nat} {s : State} (h : renderAccepted fm size s) :
    checkRender tz fm size s =
      .accepted (targetF tz fm s) (targetP tz fm s) ((List.range size).map fun n => fmValue fm n s) := by
  obtain ⟨hpos, hmax, hnf, hnp, hfm⟩ := h
  have hnan : targetIsNaN s = false := by rw [targetIsNaN, hnf, hnp]; rfl
  unfold checkRender
  rw [if_neg (Nat.not_lt.2 hmax), if_neg hpos.ne', if_neg (by simp [hnan])]
  cases fm with
  | false => simp [targetF, targetP, fmValue, List.map_const']
  | true =>
    obtain ⟨hf, hp, hwords⟩ := hfm rfl
    obtain ⟨ws, hws, hmap⟩ := scanFm_eq_of_finite hwords
    have hrange : targetsInRange s = true := (Bool.and_eq_true _ _).mpr ⟨hf, hp⟩
    simp only [if_true, hrange, hws, hmap, targetF, targetP, fmValue]
    rfl

/-- What RENDER answers under the conditions of 40_render.md R101 to R103. -/
theorem exec_renderOf_of_accepted (shape : Shape) (tz : Bool) {fm : Bool} {size : Nat} {s : State}
    (h : renderAccepted fm size s) :
    exec (renderOf shape tz fm size) s =
      .next (renderBlock shape tz (targetF tz fm s) (targetP tz fm s) ((List.range size).map fun n => fmValue fm n s) s) := by
  rw [exec_renderOf, render, checkRender_of_renderAccepted tz h]

end Sys2Proof.Machine

namespace Sys2Proof.Proofs

open Sys2Proof Sys2Proof.Machine Sys2Proof.Safety

/-- Settles O30: without through-zero FM the frequency is positive, so that no reverse wrap can answer 1.0. -/
theorem blocksWithoutThroughZeroEndBelowOne : Obligations.BlocksWithoutThroughZeroEndBelowOne := by
  unfold Obligations.BlocksWithoutThroughZeroEndBelowOne
  intro shape fm size s hs hacc
  obtain ⟨⟨-, hok, -⟩, hlt⟩ := renderBlock_phaseInv (shape := shape) hs (checkRender_of_renderAccepted false hacc)
  exact ⟨_, exec_renderOf_of_accepted shape false hacc, hok, hlt rfl⟩

end Sys2Proof.Proofs
end

section
/-! PROOF. The form of the state: the buffers canonical, mapped and whole, STATUS coherent (10_state.md R43, R49). -/

namespace Sys2Proof.Machine

open Sys2Proof Sys2Proof.Safety

/-- The buffers' part of the invariant, as a predicate of the memory alone. -/
def memoryOk (p : Params) (m : Memory) : Prop :=
  m.wf ∧ ∀ c ∈ m, bufferByte p c.1 = true ∧ (m.readWord (c.1 - c.1 % 4)).isSome = true

/-- An aligned offset whose word lies in one of the buffers (20_memory.md R50). -/
def bufferWord (p : Params) (off : Nat) : Prop :=
  off % 4 = 0 ∧ (0x1000 ≤ off ∧ off < 0x1000 + 4 * p.maxBlockSize ∨ 0x2000 ≤ off ∧ off < 0x2000 + 4 * p.maxBlockSize)

theorem bufferWord_outOffset {p : Params} {n : Nat} (h : n < p.maxBlockSize) : bufferWord p (outOffset n) := by
  unfold bufferWord outOffset
  omega

theorem bufferWord_of_locate_fmBuf {p : Params} {off n : Nat} (h : locate p off = some (.fmBuf n)) : bufferWord p off := by
  unfold locate at h
  split at h
  · simp at h
  · split at h
    · obtain ⟨r, -, hr⟩ := Option.map_eq_some_iff.1 h
      exact Location.noConfusion hr
    · split at h
      · exact ⟨by omega, .inl (by omega)⟩
      · split at h <;> simp at h

theorem mem_writeWord {m : Memory} {off : Nat} {w : Word} {c : Host.Cell} (h : c ∈ m.writeWord off w) :
    (off ≤ c.1 ∧ c.1 < off + 4) ∨ c ∈ m := by
  rcases mem_setByte h with rfl | h
  · exact .inl ⟨by simp, by simp⟩
  rcases mem_setByte h with rfl | h
  · exact .inl ⟨by simp, by simp⟩
  rcases mem_setByte h with rfl | h
  · exact .inl ⟨by simp, by simp⟩
  rcases mem_setByte h with rfl | h
  · exact .inl ⟨by simp, by simp⟩
  exact .inr h

/-- A write of a whole aligned word keeps the words whole (20_memory.md R51). -/
theorem writeWord_memoryOk {p : Params} {m : Memory} {off : Nat} (hm : memoryOk p m) (hoff : bufferWord p off) (w : Word) :
    memoryOk p (m.writeWord off w) := by
  obtain ⟨hwf, hcells⟩ := hm
  obtain ⟨halign, hbuf⟩ := hoff
  refine ⟨writeWord_wf hwf off w, fun c hc => ?_⟩
  by_cases hin : off ≤ c.1 ∧ c.1 < off + 4
  · rw [show c.1 - c.1 % 4 = off by omega, readWord_writeWord]
    refine ⟨?_, rfl⟩
    simp only [bufferByte, Bool.or_eq_true, decide_eq_true_eq]
    omega
  · obtain ⟨hb, hw⟩ := hcells c ((mem_writeWord hc).resolve_left hin)
    rw [readWord_writeWord_of_disjoint m w (by omega)]
    exact ⟨hb, hw⟩

theorem writeOut_memoryOk {p : Params} {m : Memory} {n : Nat} {ys : List Word} (hm : memoryOk p m)
    (h : n + ys.length ≤ p.maxBlockSize) : memoryOk p (m.writeOut n ys) := by
  induction ys generalizing m n with
  | nil => exact hm
  | cons y ys ih =>
    rw [List.length_cons] at h
    exact ih (writeWord_memoryOk hm (bufferWord_outOffset (by omega)) y) (by omega)

/-- A reject leaves ERR set with one of the codes 1 to 4 (60_exceptions.md R210). -/
theorem reject_statusOk (c : RejectCode) (s : State) : statusOk (reject c s) := by
  refine ⟨fun h => Bool.noConfusion h, fun _ => ?_⟩
  rw [reject_errCode]
  cases c <;> decide

theorem writeStatus_statusOk {w : Word} {s : State} (h : statusOk s) : statusOk (writeStatus w s) := by
  unfold writeStatus
  split
  · exact ⟨fun _ => rfl, fun h => Bool.noConfusion h⟩
  · exact h

theorem exec_keeps_inv {i : Instr} {s t : State} (hs : Inv s) (h : exec i s = .next t) : Inv t := by
  obtain ⟨hp, hmem, hst⟩ := hs
  rcases exec_next h with ⟨c, rfl⟩ | ⟨shape, tz, fm, size, f, p, es, hacc, rfl⟩ | ⟨hparams, hm, ⟨herr, hcode⟩, -⟩
  · exact ⟨hp, hmem, reject_statusOk c s⟩
  · obtain ⟨hlen, -, hmax⟩ := checkRender_accepted_length hacc
    exact ⟨hp, writeOut_memoryOk hmem (by rw [blockSamples_length, renderBlock_params]; omega), hst⟩
  · rw [Safety.Inv, buffersOk, statusOk, hparams, hm, herr, hcode]
    exact ⟨hp, hmem, hst⟩

end Sys2Proof.Machine

namespace Sys2Proof.Proofs

open Sys2Proof Sys2Proof.Machine Sys2Proof.Safety

/-- Settles O12: the buffers change by whole words inside them, and STATUS by a reject, a clear or a reset. -/
theorem everyStepKeepsTheMachineWellFormed : Obligations.EveryStepKeepsTheMachineWellFormed := by
  unfold Obligations.EveryStepKeepsTheMachineWellFormed
  intro s t hs h
  obtain ⟨hp, hmem, hst⟩ := hs
  cases step_effect h with
  | @command w rest i _ _ _ hexec => exact exec_keeps_inv (s := s.answering rest (some .writeDone)) ⟨hp, hmem, hst⟩ hexec
  | illegal => exact ⟨hp, hmem, reject_statusOk _ _⟩
  | @status w rest =>
    refine ⟨by rwa [writeStatus_params], ?_, writeStatus_statusOk hst⟩
    rwa [buffersOk, writeStatus_mem, writeStatus_params]
  | reset =>
    exact ⟨hp, ⟨List.Pairwise.nil, fun c hc => absurd hc List.not_mem_nil⟩, fun _ => rfl, fun h => Bool.noConfusion h⟩
  | fmBuf _ hloc => exact ⟨hp, writeWord_memoryOk hmem (bufferWord_of_locate_fmBuf hloc) _, hst⟩
  | _ => exact ⟨hp, hmem, hst⟩

end Sys2Proof.Proofs
end

section
/-! PROOF. STATUS (10_state.md R43). -/

namespace Sys2Proof.Machine

open Sys2Proof Sys2Proof.Safety

theorem getLsbD_zero_iff (w : Word) : w.getLsbD 0 = true ↔ w.toNat % 2 = 1 := by
  simp [BitVec.getLsbD, Nat.testBit_zero]

theorem step_status {s : State} {w : Word} {rest : List BusRequest}
    (h : s.host = .write (s.params.base + 0x00C) 32 w :: rest) :
    step s = .next (writeStatus w (s.answering rest (some .writeDone))) := by
  rw [step_write h (by decide), busWrite_reg (r := .status) rfl]
  rfl

theorem writeStatus_of_bit_set {w : Word} (s : State) (h : w.toNat % 2 = 1) :
    writeStatus w s = { s with err := false, errCode := 0#4 } := if_pos ((getLsbD_zero_iff w).2 h)

theorem writeStatus_of_bit_clear {w : Word} (s : State) (h : w.toNat % 2 = 0) : writeStatus w s = s :=
  if_neg (by rw [getLsbD_zero_iff]; omega)

/-- A command changes STATUS by a reject only (43_control.md R194). -/
theorem exec_status {i : Instr} {s t : State} (h : exec i s = .next t) (hst : ¬ sameStatus s t) : ∃ c, t = reject c s := by
  rcases exec_next h with hrej | ⟨_, _, _, _, _, _, _, -, rfl⟩ | ⟨-, -, hsame, -⟩
  · exact hrej
  · exact absurd ⟨rfl, rfl⟩ hst
  · exact absurd hsame hst

end Sys2Proof.Machine

namespace Sys2Proof.Proofs

open Sys2Proof Sys2Proof.Machine Sys2Proof.Safety

/-- Settles O39: of the effects of a step, only a reset, a STATUS write with bit 0 set and a reject change STATUS. -/
theorem statusChangesByRejectWriteAndResetOnly : Obligations.StatusChangesByRejectWriteAndResetOnly := by
  unfold Obligations.StatusChangesByRejectWriteAndResetOnly
  refine ⟨fun s w rest hs => ?_, fun s t h hst => ?_⟩
  · rw [step_status hs]
    exact ⟨fun hw => by rw [writeStatus_of_bit_set _ hw]; rfl, fun hw => by rw [writeStatus_of_bit_clear _ hw]; rfl⟩
  · cases step_effect h with
    | reset hs => exact .inl ⟨_, hs⟩
    | @command w rest i _ hs _ hexec =>
      obtain ⟨c, rfl⟩ := exec_status hexec hst
      exact .inr (.inr ⟨w, rest, c, hs, rfl⟩)
    | @illegal w rest hs => exact .inr (.inr ⟨w, rest, .illegalCmd, hs, rfl⟩)
    | @status w rest hs =>
      rcases Nat.mod_two_eq_zero_or_one w.toNat with hw | hw
      · rw [writeStatus_of_bit_clear _ hw] at hst
        exact absurd ⟨rfl, rfl⟩ hst
      · rw [writeStatus_of_bit_set _ hw]
        exact .inr (.inl ⟨w, rest, hs, rfl, rfl⟩)
    | _ => exact absurd ⟨rfl, rfl⟩ hst

end Sys2Proof.Proofs
end

section
/-! PROOF. IMPULSE and SAW do not touch EDGE_STATE (10_state.md R27, 41_phase_and_corrections.md R145): a voice, an
oscillator or a state with another side renders alike. -/

namespace Sys2Proof.Machine

open Sys2Proof Sys2Proof.Safety

/-- A voice with another EDGE_STATE. -/
def Voice.withEdge (side : Side) (v : Voice) : Voice := { v with edgeState := side }

/-- An oscillator with another EDGE_STATE. -/
def Osc.withEdge (side : Side) (o : Osc) : Osc := { o with edgeState := side }

/-- A state with another EDGE_STATE. -/
def State.withEdge (side : Side) (s : State) : State := { s with osc := s.osc.withEdge side }

section
variable (side : Side) (kid : BitVec 8) (tz : Bool) (f : Word) (v : Voice)

theorem wrapSaw_withEdge : wrapSaw kid tz f (v.withEdge side) = (wrapSaw kid tz f v).withEdge side := by
  unfold wrapSaw
  rw [show wrapsForward (v.withEdge side) = wrapsForward v from rfl,
    show wrapsBackward tz (v.withEdge side) = wrapsBackward tz v from rfl]
  split <;> [rfl; (split <;> rfl)]

theorem sawVoice_withEdge : sawVoice kid tz f (v.withEdge side) = (sawVoice kid tz f v).withEdge side := by
  rw [sawVoice, wrapSaw_withEdge]; rfl

theorem seed_withEdge (f p : Word) (o : Osc) : seed f p (o.withEdge side) = (seed f p o).withEdge side := by
  cases h : o.seeded <;> simp [seed, Osc.withEdge, h]

end

/-- IMPULSE and SAW, the shapes without a pulse-width edge (41_phase_and_corrections.md R145). -/
def isSawFamily (shape : Shape) : Prop := shape = .impulse ∨ shape = .saw

variable {shape : Shape} (hshape : isSawFamily shape) (side : Side) (kid : BitVec 8) (tz : Bool)
include hshape

theorem stepShape_withEdge (f pw : Word) (v : Voice) : stepShape shape kid tz f pw (v.withEdge side) =
    ((stepShape shape kid tz f pw v).1.withEdge side, (stepShape shape kid tz f pw v).2) := by
  rcases hshape with rfl | rfl
  · simp only [stepShape, stepImpulse, sawVoice_withEdge]; rfl
  · simp only [stepShape, stepSaw, sawVoice_withEdge]; rfl

theorem sample_edgeState (e : Option Word) (r : Ramp) (v : Voice) :
    (sample shape kid tz e r v).1.edgeState = v.edgeState := by
  rcases hshape with rfl | rfl <;> simp [sample, stepShape, stepImpulse, stepSaw, sawVoice]

theorem sample_withEdge (e : Option Word) (r : Ramp) (v : Voice) : sample shape kid tz e r (v.withEdge side) =
    ((sample shape kid tz e r v).1.withEdge side, (sample shape kid tz e r v).2) := by
  have hadvance : ∀ f, advance f (takePending (v.withEdge side)) = (advance f (takePending v)).withEdge side := fun _ => rfl
  simp only [sample, hadvance, stepShape_withEdge hshape]

theorem renderLoop_withEdge (incF incPw : Word) (es : List (Option Word)) (r : Ramp) (v : Voice) :
    renderLoop shape kid tz incF incPw es r (v.withEdge side) =
      { renderLoop shape kid tz incF incPw es r v with
        voice := (renderLoop shape kid tz incF incPw es r v).voice.withEdge side } := by
  induction es generalizing r v with
  | nil => rfl
  | cons e es ih => simp only [renderLoop, sample_withEdge hshape, ih]

theorem blockSamples_withEdge (f p : Word) (es : List (Option Word)) (o : Osc) :
    blockSamples shape kid tz f p es (o.withEdge side) =
      { blockSamples shape kid tz f p es o with voice := (blockSamples shape kid tz f p es o).voice.withEdge side } := by
  have hstart : startVoice (o.withEdge side) = (startVoice o).withEdge side := rfl
  rw [blockSamples, hstart, renderLoop_withEdge hshape]
  rfl

theorem renderBlock_withEdge (f p : Word) (es : List (Option Word)) (s : State) :
    renderBlock shape tz f p es (s.withEdge side) = (renderBlock shape tz f p es s).withEdge side := by
  have hosc : (s.withEdge side).osc = s.osc.withEdge side := rfl
  simp only [renderBlock, hosc, seed_withEdge]
  rw [show (s.withEdge side).params = s.params from rfl, blockSamples_withEdge hshape]
  rfl

theorem renderBlock_edgeState (f p : Word) (es : List (Option Word)) (s : State) :
    (renderBlock shape tz f p es s).osc.edgeState = s.osc.edgeState := by
  rw [renderBlock_osc, persist_edgeState]
  exact renderLoop_invariant (fun v => v.edgeState = s.osc.edgeState)
    (fun e r v hv => (sample_edgeState hshape _ _ e r v).trans hv) _ _ _ (by simp)

end Sys2Proof.Machine

namespace Sys2Proof.Proofs

open Sys2Proof Sys2Proof.Machine Sys2Proof.Safety

/-- Settles O32: no branch of RENDER reads EDGE_STATE for these shapes, and each sample step keeps it. -/
theorem sawFamilyNeitherReadsNorWritesEdgeState : Obligations.SawFamilyNeitherReadsNorWritesEdgeState := by
  unfold Obligations.SawFamilyNeitherReadsNorWritesEdgeState
  intro shape tz fm size s t side hshape h
  have hs : { s with osc := { s.osc with edgeState := side } } = s.withEdge side := rfl
  have hcheck : checkRender tz fm size (s.withEdge side) = checkRender tz fm size s := rfl
  rw [exec_renderOf] at h ⊢
  rw [hs, render, hcheck]
  unfold render at h
  split at h
  · obtain rfl := Host.Outcome.next.inj h
    exact ⟨rfl, rfl⟩
  · obtain rfl := Host.Outcome.next.inj h
    exact ⟨rfl, rfl⟩
  · simp at h
  · obtain rfl := Host.Outcome.next.inj h
    exact ⟨renderBlock_edgeState hshape tz _ _ _ s, congrArg _ (renderBlock_withEdge hshape side tz _ _ _ s)⟩

end Sys2Proof.Proofs
end

section
/-! PROOF. A command word written to CMD runs its command (20_memory.md R55, 10_state.md R42). -/

namespace Sys2Proof.Machine

open Sys2Proof Sys2Proof.Safety

theorem tableWord_toNat (w : Word) : tableWord 32 w.toNat = w := by
  rw [tableWord, Nat.mod_eq_of_lt w.isLt, BitVec.ofNat_toNat, BitVec.setWidth_eq]

theorem command_of_ok {w : Word} {i : Instr} (h : decode w = .ok i) (s : State) : command w s = exec i s := by
  rw [command, h]

theorem command_of_error {w : Word} {x : DecodeReject} (h : decode w = .error x) (s : State) :
    command w s = .next (rejectedWith 1#4 s) := by
  rw [command, h]; rfl

/-- The step that serves a write to CMD. -/
theorem step_cmd {s : State} {w : Word} {rest : List BusRequest}
    (h : s.host = .write (s.params.base + 0x008) 32 w :: rest) :
    step s = command w (s.answering rest (some .writeDone)) :=
  (step_serve h).trans (serve_commandWrite w { s with host := rest })

theorem step_withFetchWord (s : State) (w : Word) :
    step (s.withFetchWord 32 w.toNat) = command w (s.answering s.host (some .writeDone)) := by
  rw [State.withFetchWord, tableWord_toNat]
  exact step_cmd rfl

end Sys2Proof.Machine

namespace Sys2Proof.Proofs

open Sys2Proof Sys2Proof.Machine Sys2Proof.Safety

/-- Settles O6: the step is `command` of the word on the answered state, and `command` decodes it. -/
theorem stepRunsTheDecodedCommand : Obligations.StepRunsTheDecodedCommand := by
  unfold Obligations.StepRunsTheDecodedCommand
  intro s w
  refine ⟨fun i hi => ⟨fun rest hs => ?_, ?_⟩, fun x hx => ⟨fun rest hs => ?_, ?_⟩⟩
  · exact (step_cmd hs).trans (command_of_ok hi _)
  · exact (step_withFetchWord s w).trans (command_of_ok hi _)
  · exact (step_cmd hs).trans (command_of_error hx _)
  · exact (step_withFetchWord s w).trans (command_of_error hx _)

end Sys2Proof.Proofs
end

section
/-! PROOF. What a read answers, and that it does nothing else (20_memory.md R54). -/

namespace Sys2Proof.Machine

open Sys2Proof Sys2Proof.Safety

/-! The registers that are assembled from fields, by shifts (10_state.md R41, R43, R48) -/

theorem capsWord_eq (p : Params) :
    capsWord p = (p.kernelId.setWidth 32 <<< 16) ||| (BitVec.ofNat 16 p.maxBlockSize).setWidth 32 := by
  have hzeros : 0#8 ++ p.kernelId = p.kernelId.setWidth (8 + 8) :=
    (BitVec.setWidth_eq_append (v := 8) (w := 8 + 8) (by omega)).symm
  rw [capsWord, hzeros, BitVec.append_def, BitVec.shiftLeftZeroExtend_eq, BitVec.setWidth'_eq]
  simp

theorem statusWord_eq (err : Bool) (code : BitVec 4) :
    statusWord err code = (code.setWidth 32 <<< 4) ||| (if err then 1#32 else 0#32) := by
  revert code
  cases err <;> decide

theorem bitWord_eq (b : Bool) : bitWord b = if b then 1#32 else 0#32 := by cases b <;> rfl

theorem sideBit_iff (side : Side) : sideBit side = true ↔ side = .high := by cases side <;> decide

theorem readReg_host (r : Reg) (s : State) (rest : List BusRequest) : readReg r { s with host := rest } = readReg r s := by
  cases r <;> rfl

/-! Where a read goes -/

/-- The offsets of the table are aligned, below the buffers and distinct (10_state.md, the table of section 3). -/
theorem regTable_lookup : ∀ e ∈ regTable, e.1 % 4 = 0 ∧ e.1 < 0x1000 ∧ regTable.lookup e.1 = some e.2 := by decide

theorem locate_of_mem_regTable {e : Nat × Reg} (h : e ∈ regTable) (p : Params) : locate p e.1 = some (.reg e.2) := by
  obtain ⟨halign, hlt, hlookup⟩ := regTable_lookup e h
  rw [locate, if_neg (not_not.2 halign), if_pos hlt, hlookup]
  rfl

/-- OUT_BUF[n] is mapped for every n below MAX_BLOCK_SIZE (20_memory.md R50). -/
theorem locate_outBuf {p : Params} {n : Nat} (hp : p.wellFormed = true) (h : n < p.maxBlockSize) :
    locate p (0x2000 + 4 * n) = some (.outBuf n) := by
  have hmax := maxBlockSize_le hp
  unfold locate
  rw [if_neg (by omega), if_neg (by omega), if_neg (by omega), if_pos (by omega),
    show (0x2000 + 4 * n - 0x2000) / 4 = n by omega]

theorem busRead_outBuf {off n : Nat} {s : State} {w : Word} (h : locate s.params off = some (.outBuf n))
    (hw : s.mem.readWord off = some w) : busRead off 32 s = .next (respond (.readData w) s) := by
  simp [busRead, readBuffer, h, hw]

/-- The step that serves a read of a register. -/
theorem step_read_reg {s : State} {e : Nat × Reg} {rest : List BusRequest} (he : e ∈ regTable)
    (h : s.host = .read (s.params.base + e.1) 32 :: rest) :
    step s = .next (s.answering rest (some (.readData (readReg e.2 s)))) := by
  obtain ⟨-, hlt, -⟩ := regTable_lookup e he
  rw [step_read h (by omega), busRead_reg (locate_of_mem_regTable he _), readReg_host]
  rfl

end Sys2Proof.Machine

namespace Sys2Proof.Proofs

open Sys2Proof Sys2Proof.Machine Sys2Proof.Safety

/-- Settles O36: each entry is a row of the register table with what `readReg` answers there; a buffer word is read where it
lies. -/
theorem registerReadsFollowTheMap : Obligations.RegisterReadsFollowTheMap := by
  unfold Obligations.RegisterReadsFollowTheMap
  refine ⟨fun s rest entry hentry hs => ?_, fun s rest n v hp hn => ?_⟩
  · have hrow : entry ∈ regTable.map fun e => (e.1, readReg e.2 s) := by
      simpa only [regTable, List.map, readReg, idWord, F32.zero, capsWord_eq, statusWord_eq, bitWord_eq, sideBit_iff] using hentry
    obtain ⟨e, he, rfl⟩ := List.mem_map.1 hrow
    exact step_read_reg he hs
  · have hmax := maxBlockSize_le hp
    refine ⟨fun hs hv => ?_, fun hs hv => ?_⟩
    · exact (step_read hs (by omega)).trans (busRead_fmBuf (locate_fmBuf hn) hv)
    · exact (step_read hs (by omega)).trans (busRead_outBuf (locate_outBuf hp hn) hv)

/-- Settles O37: a read outside the window only loses the answer, and one inside it answers or faults (`busRead_cases`). -/
theorem readsHaveNoSideEffect : Obligations.ReadsHaveNoSideEffect := by
  unfold Obligations.ReadsHaveNoSideEffect
  intro s t addr width rest hs h
  rw [step_serve hs, serve] at h
  split at h
  · obtain rfl := Host.Outcome.next.inj h
    rfl
  next off _ =>
    rcases busRead_cases off width { s with host := rest } with ⟨r, hr⟩ | ⟨hfault, -⟩
    · obtain rfl := Host.Outcome.next.inj (hr.symm.trans h)
      rfl
    · simp [hfault] at h

end Sys2Proof.Proofs
end

section
/-! PROOF. The buffer words a RENDER reads and writes (20_memory.md R56). -/

namespace Sys2Proof.Machine

open Sys2Proof Sys2Proof.Safety

/-- The scan reads no other word than those it counts (40_render.md R103). -/
theorem scanFm_congr {m m' : Memory} {k count : Nat}
    (h : ∀ j, j < count → m'.readWord (fmOffset (k + j)) = m.readWord (fmOffset (k + j))) :
    scanFm m' k count = scanFm m k count := by
  induction count generalizing k with
  | zero => rfl
  | succ count ih =>
    have hhead : m'.readWord (fmOffset k) = m.readWord (fmOffset k) := h 0 count.succ_pos
    have htail : scanFm m' (k + 1) count = scanFm m (k + 1) count := ih fun j hj => by
      rw [show k + 1 + j = k + (j + 1) by omega]
      exact h (j + 1) (by omega)
    rw [scanFm, scanFm, hhead, htail]

/-- The checks of RENDER see of the buffers the first `size` words of FM_BUF, and these with FM = 1 only. -/
theorem checkRender_withMem (tz : Bool) {fm : Bool} {size : Nat} {s : State} {m : Memory}
    (h : fm = true → ∀ k, k < size → m.readWord (fmOffset k) = s.mem.readWord (fmOffset k)) :
    checkRender tz fm size { s with mem := m } = checkRender tz fm size s := by
  cases fm with
  | false => rfl
  | true =>
    have hscan : scanFm m 0 size = scanFm s.mem 0 size := scanFm_congr fun j hj => by
      rw [Nat.zero_add]
      exact h rfl j hj
    unfold checkRender
    rw [hscan]
    rfl

/-- RENDER changes the buffers by the samples it stores from OUT_BUF[0], `size` of them where it is accepted; where the checks
end alike over other buffers, it stores the same samples there and is otherwise the same. -/
theorem render_stores {shape : Shape} {tz fm : Bool} {size : Nat} {s t : State} (h : render shape tz fm size s = .next t) :
    ∃ ys, ys.length ≤ size ∧ (renderAccepted fm size s → ys.length = size) ∧ t.mem = s.mem.writeOut 0 ys ∧
      ∀ m, checkRender tz fm size { s with mem := m } = checkRender tz fm size s →
        render shape tz fm size { s with mem := m } = .next { t with mem := m.writeOut 0 ys } := by
  have haccepted := checkRender_of_renderAccepted tz (fm := fm) (size := size) (s := s)
  unfold render at h
  split at h
  case h_1 hc | h_2 _ hc =>
    obtain rfl := Host.Outcome.next.inj h
    exact ⟨[], Nat.zero_le _, fun hacc => Verdict.noConfusion (hc.symm.trans (haccepted hacc)), rfl,
      fun m hm => by rw [render, hm, hc]; rfl⟩
  case h_3 => simp at h
  case h_4 f p es hc =>
    obtain rfl := Host.Outcome.next.inj h
    obtain ⟨hlen, -, -⟩ := checkRender_accepted_length hc
    have hsamples := (blockSamples_length shape s.params.kernelId tz f p es (seed f p s.osc)).trans hlen
    exact ⟨_, hsamples.le, fun _ => hsamples, rfl, fun m hm => by rw [render, hm, hc]; rfl⟩

/-- A sample stored from OUT_BUF[0] is read back at its index, whatever the buffers held. -/
theorem readWord_writeOut_zero (m : Memory) {ys : List Word} {n : Nat} (h : n < ys.length) :
    (m.writeOut 0 ys).readWord (0x2000 + 4 * n) = some ys[n] := by
  simpa only [Nat.zero_add, outOffset] using readWord_writeOut m 0 ys h

end Sys2Proof.Machine

namespace Sys2Proof.Proofs

open Sys2Proof Sys2Proof.Machine Sys2Proof.Safety

/-- Settles O27: the samples RENDER stores are its only effect on the buffers, and the FM words of its checks all it reads of
them. -/
theorem renderTouchesOnlyItsOwnBufferWords : Obligations.RenderTouchesOnlyItsOwnBufferWords := by
  unfold Obligations.RenderTouchesOnlyItsOwnBufferWords
  intro shape tz fm size s t m h
  rw [exec_renderOf] at h
  obtain ⟨ys, hle, hlen, hmem, hother⟩ := render_stores h
  refine ⟨fun a ha => ?_, fun hacc n hn => ?_, fun hfm => ?_⟩
  · rw [hmem]
    exact byteAt_writeOut_of_outside s.mem ys (by simp only [outOffset]; omega)
  · rw [hmem, readWord_writeOut_zero _ ((hlen hacc).symm ▸ hn)]
    rfl
  · refine ⟨_, (exec_renderOf ..).trans (hother m (checkRender_withMem tz hfm)), rfl, ⟨rfl, rfl⟩, fun hacc n hn => ?_⟩
    have hn' : n < ys.length := (hlen hacc).symm ▸ hn
    rw [hmem, readWord_writeOut_zero _ hn', readWord_writeOut_zero _ hn']

end Sys2Proof.Proofs
end

section
/-! PROOF. The command word as a number (30_encoding.md R70): its fields determine it, the decoder is a function of them and the
encoder its inverse. -/

namespace Sys2Proof

/-! The fields are the digits of the word's number -/

@[simp] theorem opField_toNat (w : Word) : (opField w).toNat = w.toNat % 16 := by simp [opField]

@[simp] theorem shapeField_toNat (w : Word) : (shapeField w).toNat = w.toNat / 2 ^ 4 % 2 ^ 3 := by
  simp [shapeField, Nat.shiftRight_eq_div_pow]

@[simp] theorem rsvField_toNat (w : Word) : (rsvField w).toNat = w.toNat / 2 ^ 9 % 2 ^ 7 := by
  simp [rsvField, Nat.shiftRight_eq_div_pow]

theorem tzField_eq (w : Word) : tzField w = decide (w.toNat / 2 ^ 7 % 2 = 1) := Nat.testBit_eq_decide_div_mod_eq

theorem fmField_eq (w : Word) : fmField w = decide (w.toNat / 2 ^ 8 % 2 = 1) := Nat.testBit_eq_decide_div_mod_eq

theorem sizeField_eq (w : Word) : sizeField w = w.toNat / 2 ^ 16 := by
  have hw := w.isLt
  simp only [sizeField, BitVec.extractLsb'_toNat, Nat.shiftRight_eq_div_pow]
  omega

theorem sizeField_fits (w : Word) : sizeFits (sizeField w) = true := decide_eq_true (w.extractLsb' 16 16).isLt

/-- The row of a RENDER is matched (30_encoding.md R71) when OP is 2 and RSV is 0. -/
theorem renderRow_iff (w : Word) :
    (opField w = 0b0010#4 ∧ rsvField w = 0#7) ↔ w.toNat % 16 = 2 ∧ w.toNat / 2 ^ 9 % 2 ^ 7 = 0 := by
  simp [BitVec.toNat_eq]

/-- The number of a RENDER's word, field by field (30_encoding.md R70, R79). -/
theorem renderWord_toNat (shape : Shape) (tz fm : Bool) {size : Nat} (h : size < 2 ^ 16) :
    (renderWord shape tz fm size).toNat =
      2 ^ 16 * size + 2 ^ 8 * fm.toNat + 2 ^ 7 * tz.toNat + 2 ^ 4 * shapeCode shape + 2 := by
  have hlow : (renderWord shape tz fm 0).toNat = 2 ^ 8 * fm.toNat + 2 ^ 7 * tz.toNat + 2 ^ 4 * shapeCode shape + 2 ∧
      (renderWord shape tz fm 0).toNat < 2 ^ 16 := by
    cases shape <;> cases tz <;> cases fm <;> decide
  obtain ⟨hval, hlt⟩ := hlow
  have hsplit : renderWord shape tz fm size = BitVec.ofNat 32 size <<< 16 ||| renderWord shape tz fm 0 := by
    simp [renderWord, BitVec.or_assoc]
  have hshift : (BitVec.ofNat 32 size <<< 16).toNat = 2 ^ 16 * size := by
    simp only [BitVec.toNat_shiftLeft, BitVec.toNat_ofNat, Nat.shiftLeft_eq]
    omega
  rw [hsplit, BitVec.toNat_or, hshift, ← Nat.two_pow_add_eq_or_of_lt hlt, hval]
  omega

/-! The decoder on its rows -/

theorem shapeOfCode_of_toNat {shape : Shape} {code : BitVec 3} (h : shapeCode shape = code.toNat) :
    shapeOfCode code = shape := by
  rw [← shapeOfCode_shapeCode shape, h, BitVec.ofNat_toNat, BitVec.setWidth_eq]

/-- A RENDER's row is not taken by a control command's row before it. -/
theorem decode_of_renderRow {w : Word} (hop : opField w = 0b0010#4) (hrsv : rsvField w = 0#7) :
    decode w = .ok (renderOf (shapeOfCode (shapeField w)) (tzField w) (fmField w) (sizeField w)) := by
  rcases decode_cases w with ⟨rfl, -⟩ | ⟨rfl, -⟩ | ⟨rfl, -⟩ | ⟨-, -, h⟩ | ⟨-, -, -, hrow, -⟩
  · exact absurd hop (by decide)
  · exact absurd hop (by decide)
  · exact absurd hop (by decide)
  · exact h
  · exact absurd ⟨hop, hrsv⟩ hrow

/-- A word is ILLEGAL when no row matches it (30_encoding.md R71, R77). -/
theorem decode_error_iff (w : Word) :
    (∃ x, decode w = .error x) ↔
      w.toNat ≠ 0 ∧ w.toNat ≠ 1 ∧ w.toNat ≠ 3 ∧ ¬ (w.toNat % 16 = 2 ∧ w.toNat / 2 ^ 9 % 2 ^ 7 = 0) := by
  rw [← renderRow_iff]
  rcases decode_cases w with ⟨rfl, h⟩ | ⟨rfl, h⟩ | ⟨rfl, h⟩ | ⟨hop, hrsv, h⟩ | ⟨h0, h1, h3, hrow, h⟩
  · simp [h]
  · simp [h]
  · simp [h]
  · simp [h, hop, hrsv]
  · exact iff_of_true ⟨_, h⟩
      ⟨fun e => h0 (BitVec.eq_of_toNat_eq e), fun e => h1 (BitVec.eq_of_toNat_eq e),
        fun e => h3 (BitVec.eq_of_toNat_eq e), hrow⟩

/-! The round trips of a RENDER -/

/-- Each field of a RENDER's word gives back what it was built from. -/
theorem decode_renderWord (shape : Shape) (tz fm : Bool) {size : Nat} (h : size < 2 ^ 16) :
    decode (renderWord shape tz fm size) = .ok (renderOf shape tz fm size) := by
  have hnum := renderWord_toNat shape tz fm h
  have hcode : shapeCode shape < 8 := by cases shape <;> decide
  have htz := tz.toNat_lt
  have hfm := fm.toNat_lt
  have hrow := (renderRow_iff (renderWord shape tz fm size)).2 (by omega)
  have hshape : shapeOfCode (shapeField (renderWord shape tz fm size)) = shape :=
    shapeOfCode_of_toNat (by rw [shapeField_toNat]; omega)
  have htzField : tzField (renderWord shape tz fm size) = tz := by
    rw [tzField_eq, show (renderWord shape tz fm size).toNat / 2 ^ 7 % 2 = tz.toNat by omega]
    cases tz <;> rfl
  have hfmField : fmField (renderWord shape tz fm size) = fm := by
    rw [fmField_eq, show (renderWord shape tz fm size).toNat / 2 ^ 8 % 2 = fm.toNat by omega]
    cases fm <;> rfl
  have hsize : sizeField (renderWord shape tz fm size) = size := by
    rw [sizeField_eq]
    omega
  rw [decode_of_renderRow hrow.1 hrow.2, hshape, htzField, hfmField, hsize]

/-- A word with OP = 2 and RSV = 0 is the word of its other fields. -/
theorem renderWord_fields {w : Word} (hop : opField w = 0b0010#4) (hrsv : rsvField w = 0#7) :
    renderWord (shapeOfCode (shapeField w)) (tzField w) (fmField w) (sizeField w) = w := by
  obtain ⟨hopNum, hrsvNum⟩ := (renderRow_iff w).1 ⟨hop, hrsv⟩
  have htz : (tzField w).toNat = w.toNat / 2 ^ 7 % 2 := Nat.toNat_testBit ..
  have hfm : (fmField w).toNat = w.toNat / 2 ^ 8 % 2 := Nat.toNat_testBit ..
  refine BitVec.eq_of_toNat_eq ?_
  rw [renderWord_toNat _ _ _ (of_decide_eq_true (sizeField_fits w)), shapeCode_shapeOfCode, shapeField_toNat, sizeField_eq,
    htz, hfm]
  omega

end Sys2Proof

namespace Sys2Proof.Proofs

open Sys2Proof Sys2Proof.Machine Sys2Proof.Safety

/-- Settles O1: a control command's word is its own row, a RENDER's word gives back each field (`decode_renderWord`). -/
theorem decodeOfEncodeIsTheCommand : Obligations.DecodeOfEncodeIsTheCommand := by
  unfold Obligations.DecodeOfEncodeIsTheCommand
  intro i hwf
  rcases instr_cases i with rfl | rfl | rfl | ⟨shape, tz, fm, size, rfl⟩
  · rfl
  · rfl
  · rfl
  · rw [wellFormed_renderOf] at hwf
    rw [encode_renderOf, decode_renderWord shape tz fm (of_decide_eq_true hwf)]

/-- Settles O2: each row of the decoder that answers a command answers the one whose word it matched. -/
theorem encodeOfDecodeIsTheWord : Obligations.EncodeOfDecodeIsTheWord := by
  unfold Obligations.EncodeOfDecodeIsTheWord
  intro w i hi
  rcases decode_cases w with ⟨rfl, h⟩ | ⟨rfl, h⟩ | ⟨rfl, h⟩ | ⟨hop, hrsv, h⟩ | ⟨-, -, -, -, h⟩
  · obtain rfl := Except.ok.inj (h.symm.trans hi)
    exact ⟨rfl, rfl⟩
  · obtain rfl := Except.ok.inj (h.symm.trans hi)
    exact ⟨rfl, rfl⟩
  · obtain rfl := Except.ok.inj (h.symm.trans hi)
    exact ⟨rfl, rfl⟩
  · obtain rfl := Except.ok.inj (h.symm.trans hi)
    exact ⟨(wellFormed_renderOf ..).trans (sizeField_fits w), (encode_renderOf ..).trans (renderWord_fields hop hrsv)⟩
  · exact nomatch h.symm.trans hi

/-- Settles O3: the control rows are single words, the RENDER row is read off its fields, the rest is `decode_error_iff`. -/
theorem decodeFollowsTheRowsInOrder : Obligations.DecodeFollowsTheRowsInOrder := by
  unfold Obligations.DecodeFollowsTheRowsInOrder
  intro w
  refine ⟨fun h => ?_, fun h => ?_, fun h => ?_, fun hop hrsv shape hshape => ?_,
    fun h0 h1 h3 hrow => (decode_error_iff w).2 ⟨h0, h1, h3, hrow⟩⟩
  · obtain rfl : w = 0#32 := BitVec.eq_of_toNat_eq h
    rfl
  · obtain rfl : w = 1#32 := BitVec.eq_of_toNat_eq h
    rfl
  · obtain rfl : w = 3#32 := BitVec.eq_of_toNat_eq h
    rfl
  · obtain ⟨hopField, hrsvField⟩ := (renderRow_iff w).2 ⟨hop, hrsv⟩
    rw [decode_of_renderRow hopField hrsvField, shapeOfCode_of_toNat (hshape.trans (shapeField_toNat w).symm), tzField_eq,
      fmField_eq, sizeField_eq]

/-- Settles O4: the words of R77 are those no row of R71 matches, and `command` rejects such a word with code 1. -/
theorem illegalWordsAreRejectedWithCodeOne : Obligations.IllegalWordsAreRejectedWithCodeOne := by
  unfold Obligations.IllegalWordsAreRejectedWithCodeOne
  intro w s
  refine ⟨?_, fun ⟨_, hx⟩ => command_of_error hx s⟩
  rw [decode_error_iff]
  omega

end Sys2Proof.Proofs
end

section
/-! PROOF. How the checks of RENDER end, check by check in their order (40_render.md R101 to R103, 60_exceptions.md R217). -/

namespace Sys2Proof.Machine

open Sys2Proof Sys2Proof.Safety

/-- Away from NaN `<=` is the negation of `>` (00_scope.md R8). -/
theorem F32.le_eq_not_lt {a b : Word} (ha : F32.isNaN a = false) (hb : F32.isNaN b = false) : F32.le a b = !F32.lt b a := by
  rw [F32.le_eq_decide_key ha hb, F32.lt_eq_decide_key hb ha, ← decide_not, decide_eq_decide]
  exact not_lt.symm

theorem reject_eq_rejectedWith (c : RejectCode) (s : State) : reject c s = rejectedWith (errCodeOf c) s := rfl

section
variable (shape : Shape) {tz fm : Bool} {size : Nat} {s : State}

theorem exec_renderOf_of_rejected {c : RejectCode} (h : checkRender tz fm size s = .rejected c) :
    exec (renderOf shape tz fm size) s = .next (rejectedWith (errCodeOf c) s) := by
  rw [exec_renderOf, render, h, ← reject_eq_rejectedWith]

theorem exec_renderOf_of_nothing (h : checkRender tz fm size s = .nothing) :
    exec (renderOf shape tz fm size) s = .next s := by
  rw [exec_renderOf, render, h]

theorem exec_renderOf_of_unwritten {off : Nat} (h : checkRender tz fm size s = .unwritten off) :
    exec (renderOf shape tz fm size) s = .fault (.readUnwritten off) := by
  rw [exec_renderOf, render, h]

end

section
variable {tz fm : Bool} {size : Nat} {s : State}

theorem checkRender_of_size_gt (h : s.params.maxBlockSize < size) : checkRender tz fm size s = .rejected .size := by
  rw [checkRender, if_pos h]

theorem checkRender_zero : checkRender tz fm 0 s = .nothing := by
  rw [checkRender, if_neg (Nat.not_lt_zero _), if_pos rfl]

variable (hpos : 0 < size) (hmax : size ≤ s.params.maxBlockSize)
include hpos hmax

theorem checkRender_of_targetIsNaN (h : targetIsNaN s = true) : checkRender tz fm size s = .rejected .nonFinite := by
  rw [checkRender, if_neg (Nat.not_lt.2 hmax), if_neg hpos.ne', if_pos h]

variable (hnan : targetIsNaN s = false)
include hnan

theorem checkRender_of_out_of_range (h : targetsInRange s = false) : checkRender tz true size s = .rejected .range := by
  simp [checkRender, Nat.not_lt.2 hmax, hpos.ne', hnan, h]

theorem checkRender_of_scan_nonFinite (hrange : targetsInRange s = true) (h : scanFm s.mem 0 size = .nonFinite) :
    checkRender tz true size s = .rejected .nonFinite := by
  simp [checkRender, Nat.not_lt.2 hmax, hpos.ne', hnan, hrange, h]

theorem checkRender_of_scan_unwritten {off : Nat} (hrange : targetsInRange s = true)
    (h : scanFm s.mem 0 size = .unwritten off) : checkRender tz true size s = .unwritten off := by
  simp [checkRender, Nat.not_lt.2 hmax, hpos.ne', hnan, hrange, h]

end

theorem targetIsNaN_eq_false {s : State} (hf : F32.isNaN s.targetFreq = false) (hp : F32.isNaN s.targetPw = false) :
    targetIsNaN s = false := by
  rw [targetIsNaN, hf, hp, Bool.or_false]

/-- The range check of targets that are no NaN, as the rule words it: neither is above FM_TARGET_LIMIT (40_render.md R103). -/
theorem targetsInRange_eq {s : State} (hf : F32.isNaN s.targetFreq = false) (hp : F32.isNaN s.targetPw = false) :
    targetsInRange s =
      (!F32.lt fmTargetLimit (F32.abs s.targetFreq) && !F32.lt fmTargetLimit (F32.abs s.targetPw)) := by
  have hlim : F32.isNaN fmTargetLimit = false := by decide
  rw [targetsInRange, F32.le_eq_not_lt (by simpa using hf) hlim, F32.le_eq_not_lt (by simpa using hp) hlim]

/-! The scan of FM_BUF -/

/-- A predicate fails first at one index only. -/
theorem first_failure_unique {P : Nat → Prop} {j k : Nat} (hj : ∀ i, i < j → P i) (hj' : ¬ P j) (hk : ∀ i, i < k → P i)
    (hk' : ¬ P k) : j = k := by
  rcases Nat.lt_trichotomy j k with h | h | h
  · exact absurd (hk j h) hj'
  · exact h
  · exact absurd (hj k h) hk'

theorem not_fmWordFinite_of_none {m : Memory} {k : Nat} (h : m.readWord (fmOffset k) = none) : ¬ fmWordFinite m k := by
  rintro ⟨e, he, -⟩
  cases h.symm.trans he

theorem not_fmWordFinite_of_nonFinite {m : Memory} {k : Nat} {e : Word} (h : m.readWord (fmOffset k) = some e)
    (he : F32.isFinite e = false) : ¬ fmWordFinite m k := by
  rintro ⟨e', he', hfin⟩
  obtain rfl := Option.some.inj (h.symm.trans he')
  exact Bool.noConfusion (he.symm.trans hfin)

/-- The first FM_BUF word in index order that is unwritten or not finite ends the scan (40_render.md R103, 60_exceptions.md
R217). -/
theorem scanFm_of_first_not_finite {m : Memory} {size k : Nat} (hk : k < size) (hbefore : ∀ j, j < k → fmWordFinite m j)
    (hat : ¬ fmWordFinite m k) :
    (m.readWord (fmOffset k) = none ∧ scanFm m 0 size = .unwritten (fmOffset k)) ∨
      ((∃ e, m.readWord (fmOffset k) = some e ∧ F32.isFinite e = false) ∧ scanFm m 0 size = .nonFinite) := by
  cases h : scanFm m 0 size with
  | finite es =>
    obtain ⟨hlen, hall⟩ := scanFm_finite h
    have hword := hall k (hlen ▸ hk)
    rw [Nat.zero_add] at hword
    exact absurd ⟨_, hword⟩ hat
  | nonFinite =>
    obtain ⟨j, -, hbefore', e, he, hfin⟩ := scanFm_nonFinite h
    simp only [Nat.zero_add] at hbefore' he
    obtain rfl := first_failure_unique hbefore' (not_fmWordFinite_of_nonFinite he hfin) hbefore hat
    exact .inr ⟨⟨e, he, hfin⟩, rfl⟩
  | unwritten off =>
    obtain ⟨j, -, rfl, hbefore', hnone⟩ := scanFm_unwritten h
    simp only [Nat.zero_add] at hbefore' hnone ⊢
    obtain rfl := first_failure_unique hbefore' (not_fmWordFinite_of_none hnone) hbefore hat
    exact .inl ⟨hnone, rfl⟩

end Sys2Proof.Machine

namespace Sys2Proof.Proofs

open Sys2Proof Sys2Proof.Machine Sys2Proof.Safety

/-- Settles O20: the size check is the first of the checks, SIZE = 0 the second. -/
theorem renderChecksSizeFirst : Obligations.RenderChecksSizeFirst := by
  unfold Obligations.RenderChecksSizeFirst
  intro shape tz fm size s
  refine ⟨fun h => exec_renderOf_of_rejected shape (checkRender_of_size_gt h), ?_⟩
  rintro - rfl
  exact exec_renderOf_of_nothing shape checkRender_zero

/-- Settles O21: the NaN check comes before the range check and before the scan. -/
theorem renderRejectsNaNTargets : Obligations.RenderRejectsNaNTargets := by
  unfold Obligations.RenderRejectsNaNTargets
  intro shape tz fm size s hpos hmax hnan
  have h : targetIsNaN s = true := (Bool.or_eq_true _ _).mpr hnan
  exact exec_renderOf_of_rejected shape (checkRender_of_targetIsNaN hpos hmax h)

/-- Settles O22: the range check, then the first word of the scan that is unwritten or not finite. -/
theorem renderChecksExternalFmInOrder : Obligations.RenderChecksExternalFmInOrder := by
  unfold Obligations.RenderChecksExternalFmInOrder
  intro shape tz size s hpos hmax hf hp
  have hnan := targetIsNaN_eq_false hf hp
  have hrange := targetsInRange_eq hf hp
  refine ⟨fun h => ?_, fun hlf hlp k hk hbefore => ?_⟩
  · have hout : targetsInRange s = false := by
      rw [hrange, ← Bool.not_or, Bool.not_eq_false', Bool.or_eq_true]
      exact h
    exact exec_renderOf_of_rejected shape (checkRender_of_out_of_range hpos hmax hnan hout)
  · have hin : targetsInRange s = true := by
      rw [hrange, ← Bool.not_or, Bool.not_eq_true', Bool.or_eq_false_iff]
      exact ⟨hlf, hlp⟩
    refine ⟨fun hnone => ?_, fun e he hfin => ?_⟩
    · rcases scanFm_of_first_not_finite hk hbefore (not_fmWordFinite_of_none hnone) with ⟨-, hscan⟩ | ⟨⟨e, he, -⟩, -⟩
      · exact exec_renderOf_of_unwritten shape (checkRender_of_scan_unwritten hpos hmax hnan hin hscan)
      · cases hnone.symm.trans he
    · rcases scanFm_of_first_not_finite hk hbefore (not_fmWordFinite_of_nonFinite he hfin) with ⟨hnone, -⟩ | ⟨-, hscan⟩
      · cases hnone.symm.trans he
      · exact exec_renderOf_of_rejected shape (checkRender_of_scan_nonFinite hpos hmax hnan hin hscan)

end Sys2Proof.Proofs
end

section
/-! PROOF. The control values of a sample (40_render.md R105 to R107, R112): where the floor of CLAMP_PW binds, and the ranges
CONTROL brings its outputs into. -/

namespace Sys2Proof.Machine

open Sys2Proof Sys2Proof.Safety

/-! Strict comparisons beside `<=` (00_scope.md R8) -/

theorem F32.lt_of_lt_of_le' {a b c : Word} (h : F32.lt a b = true) (h' : F32.le b c = true) : F32.lt a c = true := by
  obtain ⟨ha, -, hab⟩ := (F32.lt_iff a b).1 h
  obtain ⟨-, hc, hbc⟩ := (F32.le_iff b c).1 h'
  exact (F32.lt_iff a c).2 ⟨ha, hc, lt_of_lt_of_le hab hbc⟩

theorem F32.lt_of_le_of_lt' {a b c : Word} (h : F32.le a b = true) (h' : F32.lt b c = true) : F32.lt a c = true := by
  obtain ⟨ha, -, hab⟩ := (F32.le_iff a b).1 h
  obtain ⟨-, hc, hbc⟩ := (F32.lt_iff b c).1 h'
  exact (F32.lt_iff a c).2 ⟨ha, hc, lt_of_le_of_lt hab hbc⟩

/-! The bounds of CLAMP_PW -/

/-- A word that is no NaN and at least a finite one is finite or +infinity. -/
theorem F32.isFinite_or_eq_posInf {a b : Word} (ha : F32.isFinite a = true) (h : F32.le a b = true) :
    F32.isFinite b = true ∨ b = 0x7F800000#32 := by
  obtain ⟨-, hnan, -⟩ := (F32.le_iff a b).1 h
  cases hinf : F32.isInf b with
  | false => exact .inl ((F32.isFinite_iff b).2 ⟨hnan, hinf⟩)
  | true =>
    refine .inr (((F32.isInf_iff_eq b).1 hinf).resolve_right ?_)
    rintro rfl
    exact Bool.noConfusion ((F32.compare_negInf ha).2.2.2.symm.trans h)

/-- 2·abs(f) is not below PW_FLOOR from K_MIN up (40_render.md R106). -/
theorem pwFloor_le_two_mul_abs {f : Word} (h : F32.le kMin (F32.abs f) = true) :
    F32.le pwFloor (F32.mul F32.two (F32.abs f)) = true := by
  obtain ⟨-, hnan, hkey⟩ := (F32.le_iff _ _).1 h
  rcases F32.isFinite_or_eq_posInf (by decide) h with hf | hinf
  · have hmag : F32.mag kMin ≤ F32.mag f := by
      simpa [F32.key, show F32.sign kMin = false by decide] using hkey
    have hround : F32.mag pwFloor ≤ F32.roundMag (F32.units F32.two * F32.units (F32.abs f)) (2 ^ 149) := by
      rw [F32.units_abs]
      exact le_trans (by decide) (F32.roundMag_mono _ (Nat.mul_le_mul_left _ (F32.unitsOf_mono hmag)))
    have hsign : (F32.sign F32.two != F32.sign (F32.abs f)) = false := by rw [F32.sign_abs]; decide
    refine (F32.le_iff _ _).2 ⟨by decide, F32.isNaN_mul_of_finite (by decide) hf, ?_⟩
    rw [F32.mul_of_finite (by decide) hf, hsign, F32.key_pack _ (F32.roundMag_lt _ _), if_neg Bool.false_ne_true,
      show F32.key pwFloor = F32.mag pwFloor by decide]
    exact_mod_cast hround
  · rw [hinf]
    decide

/-- Where a is not below PW_FLOOR, 1 - a is not above 1 - PW_FLOOR. -/
theorem one_sub_le_one_sub_pwFloor {a : Word} (h : F32.le pwFloor a = true) :
    F32.le (F32.sub F32.one a) (F32.sub F32.one pwFloor) = true := by
  have hfloor : F32.isFinite pwFloor = true := by decide
  rcases F32.isFinite_or_eq_posInf hfloor h with ha | rfl
  · obtain ⟨hnan, hkey⟩ := F32.key_sub F32.isFinite_one ha
    obtain ⟨hnan', hkey'⟩ := F32.key_sub F32.isFinite_one hfloor
    have hvalue := (F32.le_iff_value_le hfloor ha).1 h
    exact (F32.le_iff _ _).2 ⟨hnan, hnan', by rw [hkey, hkey']; exact F32.roundedKey_mono (by omega)⟩
  · decide

/-- From K_MIN up the floor of CLAMP_PW does not bind (40_render.md R106). -/
theorem pwBounds_of_kMin_le {f : Word} (h : F32.le kMin (F32.abs f) = true) :
    pwLow f = F32.mul F32.two (F32.abs f) ∧ pwHigh f = F32.sub F32.one (F32.mul F32.two (F32.abs f)) := by
  have hlow := pwFloor_le_two_mul_abs h
  exact ⟨if_neg (by simp [F32.lt_eq_false_of_le hlow]),
    if_neg (by simp [F32.lt_eq_false_of_le (one_sub_le_one_sub_pwFloor hlow)])⟩

/-- The bounds of CLAMP_PW lie strictly inside (0, 1), PW_FLOOR away from either end (40_render.md R106). -/
theorem pwBounds_strict {f : Word} (hf : F32.le (F32.abs f) kMax = true) :
    F32.lt F32.zero (pwLow f) = true ∧ F32.lt (pwHigh f) F32.one = true := by
  obtain ⟨ha, -, -⟩ := (F32.between_iff F32.isFinite_zero F32.isFinite_half).1 (two_mul_abs_le_half hf)
  have hlow : F32.le pwFloor (pwLow f) = true := by
    unfold pwLow
    simp only []
    split
    · decide
    next h => exact F32.le_of_not_lt ((F32.isFinite_iff _).1 ha).1 (by decide) (Bool.eq_false_iff.2 h)
  have hhigh : F32.le (pwHigh f) (F32.sub F32.one pwFloor) = true := by
    unfold pwHigh
    simp only []
    split
    · decide
    next h => exact F32.le_of_not_lt (by decide) (F32.key_sub F32.isFinite_one ha).1 (Bool.eq_false_iff.2 h)
  exact ⟨F32.lt_of_lt_of_le' (by decide) hlow, F32.lt_of_le_of_lt' hhigh (by decide)⟩

/-! CONTROL -/

/-- R107 for the frequency, mode by mode. -/
theorem inClampF.range {tz : Bool} {f : Word} (h : inClampF tz f) :
    (tz = false → F32.le 0x358637BD#32 f = true) ∧ (tz = true → F32.le 0xBE800000#32 f = true) ∧
      F32.le f 0x3E800000#32 = true := by
  obtain ⟨hlo, hhi⟩ := h
  refine ⟨?_, ?_, hhi⟩ <;> rintro rfl <;> exact hlo

/-- R107 for the pulse width: CLAMP_PW of anything but a NaN, against a frequency in the range of CLAMP_F. -/
theorem clampPw_range {p f : Word} (hp : F32.isNaN p = false) (hf : F32.le (F32.abs f) kMax = true) :
    F32.le (pwLow f) (clampPw p f) = true ∧ F32.le (clampPw p f) (pwHigh f) = true ∧
      F32.lt F32.zero (clampPw p f) = true ∧ F32.lt (clampPw p f) F32.one = true := by
  obtain ⟨-, hlow, hhigh, -⟩ := pwBounds_ordered hf
  obtain ⟨hpos, hlt⟩ := pwBounds_strict hf
  obtain ⟨h0, h1⟩ := constrain_between hp (F32.le_trans' hlow hhigh)
  exact ⟨h0, h1, F32.lt_of_lt_of_le' hpos h0, F32.lt_of_le_of_lt' h1 hlt⟩

/-- The pulse width CONTROL clamps is no NaN, whether the shape takes the interpolator's or the block's 0.5 (40_render.md
R112). -/
theorem controlPw_range {f pwi : Word} (shape : Shape) (hpwi : F32.isNaN pwi = false) (hf : F32.le (F32.abs f) kMax = true) :
    F32.le (pwLow f) (controlPw shape f pwi) = true ∧ F32.le (controlPw shape f pwi) (pwHigh f) = true ∧
      F32.lt F32.zero (controlPw shape f pwi) = true ∧ F32.lt (controlPw shape f pwi) F32.one = true := by
  unfold controlPw
  split
  · exact clampPw_range (by decide) hf
  · exact clampPw_range hpwi hf

end Sys2Proof.Machine

namespace Sys2Proof.Proofs

open Sys2Proof Sys2Proof.Machine Sys2Proof.Safety

/-- Settles O59: 2·K_MIN is PW_FLOOR, and doubling and rounding keep the order. -/
theorem pulseWidthFloorBindsOnlyBelowMinimumFrequency : Obligations.PulseWidthFloorBindsOnlyBelowMinimumFrequency := by
  unfold Obligations.PulseWidthFloorBindsOnlyBelowMinimumFrequency
  intro p f a
  refine ⟨fun h => ?_, fun h => ?_⟩
  · obtain ⟨hlow, hhigh⟩ := pwBounds_of_kMin_le h
    exact ⟨hlow, hhigh, by rw [clampPw, hlow, hhigh]; rfl⟩
  · obtain ⟨-, hlow, hhigh, -⟩ := pwBounds_ordered h
    exact ⟨hlow, hhigh, constrain_of_not_lt (F32.lt_eq_false_of_le hlow) (F32.lt_eq_false_of_le hhigh)⟩

/-- Settles O47: CLAMP_F bounds the frequency, and against such a frequency the bounds of CLAMP_PW lie inside (0, 1) around
0.5. -/
theorem controlValuesAreBounded : Obligations.ControlValuesAreBounded := by
  unfold Obligations.ControlValuesAreBounded
  intro shape tz e fi pwi hfi hpwi he f pw
  have hf : inClampF tz f := controlF_inClampF hfi he
  obtain ⟨hlo, hlo', hhi⟩ := hf.range
  obtain ⟨h0, h1, hpos, hlt⟩ := controlPw_range shape hpwi hf.le_kMax
  obtain ⟨-, hlow, hhigh, -⟩ := pwBounds_ordered hf.le_kMax
  exact ⟨hlo, hlo', hhi, h0, h1, hpos, hlt, hlow, hhigh⟩

end Sys2Proof.Proofs
end

section
/-! PROOF. The block of an accepted RENDER, sample by sample (40_render.md R100, R108 to R112), and what it leaves alone. -/

namespace Sys2Proof.Machine

open Sys2Proof Sys2Proof.Safety

/-! The sample loop, one pass after another -/

section
variable (shape : Shape) (kid : BitVec 8) (tz : Bool) (incF incPw : Word) (es : List (Option Word)) (r : Ramp) (v : Voice)

/-- The loop over the first n entries of the list of FM words: what the samples before sample n leave. -/
def loopUpTo (n : Nat) : Rendered := renderLoop shape kid tz incF incPw (es.take n) r v

@[simp] theorem loopUpTo_length :
    loopUpTo shape kid tz incF incPw es r v es.length = renderLoop shape kid tz incF incPw es r v := by
  rw [loopUpTo, List.take_length]

/-- Sample n takes one interpolator step and one sample step from what the samples before it leave, and its output is entry n of
the samples (40_render.md R100, R110). -/
theorem loopUpTo_succ {n : Nat} {e : Option Word} (h : es[n]? = some e) :
    let d := loopUpTo shape kid tz incF incPw es r v n
    let d' := loopUpTo shape kid tz incF incPw es r v (n + 1)
    d'.ramp = rampStep incF incPw d.ramp ∧
      ∃ y, sample shape kid tz e d'.ramp d.voice = (d'.voice, y) ∧
        (renderLoop shape kid tz incF incPw es r v).samples[n]? = some y := by
  induction es generalizing r v n with
  | nil => simp at h
  | cons e' es ih =>
    cases n with
    | zero =>
      obtain rfl := Option.some.inj h
      exact ⟨rfl, _, rfl, rfl⟩
    | succ n => exact ih (rampStep incF incPw r) (sample shape kid tz e' (rampStep incF incPw r) v).1 h

end

/-! The block -/

section
variable (shape : Shape) (tz fm : Bool) (size : Nat) (s : State)

/-- The oscillator an accepted RENDER starts its loop from (40_render.md R108). -/
def seededOsc : Osc := seed (targetF tz fm s) (targetP tz fm s) s.osc

/-- The FM words of an accepted RENDER, sample by sample. -/
def fmValues : List (Option Word) := (List.range size).map fun n => fmValue fm n s

/-- What the samples of an accepted RENDER before sample n leave. -/
def blockUpTo (n : Nat) : Rendered :=
  loopUpTo shape s.params.kernelId tz (increment (targetF tz fm s) (seededOsc tz fm s).smoothFreq size)
    (increment (targetP tz fm s) (seededOsc tz fm s).smoothPw size) (fmValues fm size s)
    { fi := (seededOsc tz fm s).smoothFreq, pwi := (seededOsc tz fm s).smoothPw } (startVoice (seededOsc tz fm s)) n

/-- The state an accepted RENDER answers. -/
def blockState : State := renderBlock shape tz (targetF tz fm s) (targetP tz fm s) (fmValues fm size s) s

@[simp] theorem fmValues_length : (fmValues fm size s).length = size := by simp [fmValues]

theorem blockSamples_eq_blockUpTo :
    blockSamples shape s.params.kernelId tz (targetF tz fm s) (targetP tz fm s) (fmValues fm size s) (seededOsc tz fm s) =
      blockUpTo shape tz fm size s size := by
  have h := loopUpTo_length shape s.params.kernelId tz (increment (targetF tz fm s) (seededOsc tz fm s).smoothFreq size)
    (increment (targetP tz fm s) (seededOsc tz fm s).smoothPw size) (fmValues fm size s)
    { fi := (seededOsc tz fm s).smoothFreq, pwi := (seededOsc tz fm s).smoothPw } (startVoice (seededOsc tz fm s))
  rw [fmValues_length] at h
  rw [blockSamples, fmValues_length]
  exact h.symm

theorem blockState_osc :
    (blockState shape tz fm size s).osc = persist (blockUpTo shape tz fm size s size) (seededOsc tz fm s) := by
  rw [← blockSamples_eq_blockUpTo]
  rfl

theorem blockState_mem :
    (blockState shape tz fm size s).mem = s.mem.writeOut 0 (blockUpTo shape tz fm size s size).samples := by
  rw [← blockSamples_eq_blockUpTo]
  rfl

@[simp] theorem blockUpTo_samples_length : (blockUpTo shape tz fm size s size).samples.length = size := by
  rw [← blockSamples_eq_blockUpTo, blockSamples_length, fmValues_length]

/-- The interpolator starts from the baselines, or from the targets where there are none yet (40_render.md R108, R110). -/
theorem blockUpTo_zero_ramp : (blockUpTo shape tz fm size s 0).ramp =
    { fi := if s.osc.seeded then s.osc.smoothFreq else targetF tz fm s
      pwi := if s.osc.seeded then s.osc.smoothPw else targetP tz fm s } := by
  rw [← seed_smoothFreq, ← seed_smoothPw]
  rfl

variable {n : Nat} (hn : n < size)
include hn

theorem readWord_blockState :
    (blockState shape tz fm size s).mem.readWord (0x2000 + 4 * n) = (blockUpTo shape tz fm size s size).samples[n]? := by
  have hlen : n < (blockUpTo shape tz fm size s size).samples.length := by rwa [blockUpTo_samples_length]
  rw [blockState_mem, readWord_writeOut_zero _ hlen, List.getElem?_eq_getElem hlen]

/-- Sample n of an accepted RENDER: one interpolator step, and one sample step with FM_BUF[n], whose output is OUT_BUF[n]
(40_render.md R110, R112, 42_shapes.md R171). -/
theorem blockUpTo_succ :
    (blockUpTo shape tz fm size s (n + 1)).ramp =
        rampStep (increment (targetF tz fm s) (seededOsc tz fm s).smoothFreq size)
          (increment (targetP tz fm s) (seededOsc tz fm s).smoothPw size) (blockUpTo shape tz fm size s n).ramp ∧
      ∃ y, sample shape s.params.kernelId tz (fmValue fm n s) (blockUpTo shape tz fm size s (n + 1)).ramp
            (blockUpTo shape tz fm size s n).voice = ((blockUpTo shape tz fm size s (n + 1)).voice, y) ∧
        (blockState shape tz fm size s).mem.readWord (0x2000 + 4 * n) = some y := by
  have he : (fmValues fm size s)[n]? = some (fmValue fm n s) := by simp [fmValues, hn]
  rw [readWord_blockState shape tz fm size s hn, ← blockSamples_eq_blockUpTo, blockSamples, fmValues_length]
  exact loopUpTo_succ shape s.params.kernelId tz _ _ (fmValues fm size s) _ _ he

end

/-- What every accepted RENDER leaves alone and what it always writes (20_memory.md R56, 43_control.md R194). -/
theorem blockState_frame (shape : Shape) (tz fm : Bool) (size : Nat) (s : State) :
    renderFrame size s (blockState shape tz fm size s) := by
  have hlen := blockUpTo_samples_length shape tz fm size s
  refine ⟨⟨rfl, rfl, rfl, rfl, rfl, rfl⟩, ⟨rfl, rfl, rfl, rfl⟩, ⟨rfl, rfl⟩, fun a ha => ?_, ?_, fun n hn => ?_⟩
  · rw [blockState_mem]
    exact byteAt_writeOut_of_outside s.mem _ (by simp only [outOffset]; omega)
  · rw [blockState_osc, persist_seeded]
    exact seed_seeded _ _ _
  · obtain ⟨-, y, -, hy⟩ := blockUpTo_succ shape tz fm size s hn
    rw [hy]
    rfl

theorem exec_renderOf_blockState (shape : Shape) (tz : Bool) {fm : Bool} {size : Nat} {s : State}
    (h : renderAccepted fm size s) : exec (renderOf shape tz fm size) s = .next (blockState shape tz fm size s) :=
  exec_renderOf_of_accepted shape tz h

/-! CONTROL, written out (40_render.md R112) -/

theorem controlPw_eq (shape : Shape) (f pwi : Word) :
    controlPw shape f pwi = clampPw (if shape = .triangle ∨ shape = .squareTriangle then 0x3F000000#32 else pwi) f := by
  cases shape <;> rfl

end Sys2Proof.Machine

namespace Sys2Proof.Proofs

open Sys2Proof Sys2Proof.Machine Sys2Proof.Safety

/-- Settles O26: the ramps and the voices are those of the first n passes of the sample loop, for each n. -/
theorem renderRunsOneStepForEachSample : Obligations.RenderRunsOneStepForEachSample := by
  unfold Obligations.RenderRunsOneStepForEachSample
  intro shape tz fm size s hacc
  refine ⟨blockState shape tz fm size s, fun n => (blockUpTo shape tz fm size s n).voice,
    fun n => (blockUpTo shape tz fm size s n).ramp, exec_renderOf_blockState shape tz hacc, blockUpTo_zero_ramp .., seed_phase ..,
    seed_edgeState .., seed_lpState .., seed_hpState .., seed_pending .., fun n hn => ?_, ?_, blockState_frame shape tz fm size s⟩
  · obtain ⟨hramp, y, hstep, hy⟩ := blockUpTo_succ shape tz fm size s hn
    refine ⟨hramp, ?_⟩
    intro f pw
    have hf : f = controlF tz (fmValue fm n s) (blockUpTo shape tz fm size s (n + 1)).ramp.fi := rfl
    have hpw : pw = controlPw shape f (blockUpTo shape tz fm size s (n + 1)).ramp.pwi := (controlPw_eq _ _ _).symm
    rw [hpw, hf]
    exact ⟨y, hstep, hy⟩
  · rw [blockState_osc, persist, seededOsc, seed_seeded]

end Sys2Proof.Proofs
end

section
/-! PROOF. Which of the oscillator's registers the block of an accepted RENDER leaves alone, shape by shape (42_shapes.md R160 to
R167). -/

namespace Sys2Proof.Machine

open Sys2Proof Sys2Proof.Safety

/-- The shapes whose output passes no filter (42_shapes.md R161 to R164). -/
def isUnfiltered (shape : Shape) : Prop := shape = .saw ∨ shape = .triangle ∨ shape = .slope ∨ shape = .square

/-- The shapes that emit the low-pass itself (42_shapes.md R166, R167). -/
def emitsLpState (shape : Shape) : Prop := shape = .squareDark ∨ shape = .squareTriangle

section
variable (kid : BitVec 8) (tz : Bool) (f pw : Word) (v : Voice)

@[simp] theorem sawVoice_lpState : (sawVoice kid tz f v).lpState = v.lpState := by simp [sawVoice]
@[simp] theorem sawVoice_hpState : (sawVoice kid tz f v).hpState = v.hpState := by simp [sawVoice]
@[simp] theorem slopeVoice_lpState : (slopeVoice kid tz f pw v).lpState = v.lpState := by simp [slopeVoice]
@[simp] theorem slopeVoice_hpState : (slopeVoice kid tz f pw v).hpState = v.hpState := by simp [slopeVoice]
@[simp] theorem squareVoice_lpState : (squareVoice kid tz f pw v).lpState = v.lpState := by simp [squareVoice]
@[simp] theorem squareVoice_hpState : (squareVoice kid tz f pw v).hpState = v.hpState := by simp [squareVoice]

/-- HP_STATE belongs to IMPULSE (10_state.md R26, 42_shapes.md R160). -/
theorem stepShape_hpState {shape : Shape} (h : shape ≠ .impulse) :
    (stepShape shape kid tz f pw v).1.hpState = v.hpState := by
  cases shape with
  | impulse => exact absurd rfl h
  | saw => exact sawVoice_hpState kid tz f v
  | triangle => exact slopeVoice_hpState kid tz f pw v
  | slope => exact slopeVoice_hpState kid tz f pw v
  | square => exact squareVoice_hpState kid tz f pw v
  | squareBright => exact squareVoice_hpState kid tz f pw v
  | squareDark => exact squareVoice_hpState kid tz f pw v
  | squareTriangle => exact squareVoice_hpState kid tz f pw v

theorem stepShape_lpState {shape : Shape} (h : isUnfiltered shape) :
    (stepShape shape kid tz f pw v).1.lpState = v.lpState := by
  rcases h with rfl | rfl | rfl | rfl
  · exact sawVoice_lpState kid tz f v
  · exact slopeVoice_lpState kid tz f pw v
  · exact slopeVoice_lpState kid tz f pw v
  · exact squareVoice_lpState kid tz f pw v

theorem stepShape_output {shape : Shape} (h : emitsLpState shape) :
    (stepShape shape kid tz f pw v).2 = (stepShape shape kid tz f pw v).1.lpState := by
  rcases h with rfl | rfl <;> rfl

end

theorem sample_output {shape : Shape} (h : emitsLpState shape) (kid : BitVec 8) (tz : Bool) (e : Option Word) (r : Ramp)
    (v : Voice) : (sample shape kid tz e r v).2 = (sample shape kid tz e r v).1.lpState :=
  stepShape_output kid tz _ _ _ h

section
variable {shape : Shape} (tz fm : Bool) (size : Nat) (s : State)

/-- What every sample step keeps, the block keeps. -/
theorem blockUpTo_invariant (P : Voice → Prop)
    (hstep : ∀ f pw v, P v → P (stepShape shape s.params.kernelId tz f pw (advance f (takePending v))).1)
    (h0 : P (startVoice (seededOsc tz fm s))) : P (blockUpTo shape tz fm size s size).voice :=
  renderLoop_invariant P (fun _ _ v hv => hstep _ _ v hv) _ _ _ h0

theorem blockState_hpState (h : shape ≠ .impulse) : (blockState shape tz fm size s).osc.hpState = s.osc.hpState := by
  rw [blockState_osc, persist_hpState]
  exact blockUpTo_invariant tz fm size s (fun v => v.hpState = s.osc.hpState)
    (fun f pw v hv => (stepShape_hpState _ _ f pw _ h).trans hv) (seed_hpState ..)

theorem blockState_lpState (h : isUnfiltered shape) : (blockState shape tz fm size s).osc.lpState = s.osc.lpState := by
  rw [blockState_osc, persist_lpState]
  exact blockUpTo_invariant tz fm size s (fun v => v.lpState = s.osc.lpState)
    (fun f pw v hv => (stepShape_lpState _ _ f pw _ h).trans hv) (seed_lpState ..)

/-- LP_STATE is the last sample stored, where the shape emits its low-pass (42_shapes.md R166, R167). -/
theorem readWord_last_blockState (h : emitsLpState shape) (hpos : 0 < size) :
    (blockState shape tz fm size s).mem.readWord (0x2000 + 4 * (size - 1)) =
      some (blockState shape tz fm size s).osc.lpState := by
  obtain ⟨-, y, hstep, hy⟩ := blockUpTo_succ shape tz fm size s (Nat.sub_one_lt hpos.ne')
  rw [Nat.sub_one_add_one hpos.ne'] at hstep
  have hout : y = (blockUpTo shape tz fm size s size).voice.lpState := by
    have h' := sample_output h s.params.kernelId tz (fmValue fm (size - 1) s) (blockUpTo shape tz fm size s size).ramp
      (blockUpTo shape tz fm size s (size - 1)).voice
    rwa [hstep] at h'
  rw [hy, hout, blockState_osc, persist_lpState]

end

end Sys2Proof.Machine

namespace Sys2Proof.Proofs

open Sys2Proof Sys2Proof.Machine Sys2Proof.Safety

/-- Settles O23: neither shape's step writes EDGE_STATE, and SAW's neither filter memory. -/
theorem renderImpulseAndSawComplete : Obligations.RenderImpulseAndSawComplete := by
  unfold Obligations.RenderImpulseAndSawComplete
  intro tz fm size s hacc
  exact ⟨⟨_, exec_renderOf_blockState .impulse tz hacc, blockState_frame .., renderBlock_edgeState (.inl rfl) ..⟩,
    ⟨_, exec_renderOf_blockState .saw tz hacc, blockState_frame .., renderBlock_edgeState (.inr rfl) ..,
      blockState_lpState tz fm size s (.inl rfl), blockState_hpState tz fm size s (by decide)⟩⟩

/-- Settles O24: the three steps write neither filter memory. -/
theorem renderUnfilteredPulseShapesComplete : Obligations.RenderUnfilteredPulseShapesComplete := by
  unfold Obligations.RenderUnfilteredPulseShapesComplete
  intro tz fm size s hacc
  have hframe : ∀ shape, isUnfiltered shape → shape ≠ .impulse →
      ∃ t, exec (renderOf shape tz fm size) s = .next t ∧ renderFrame size s t ∧
        t.osc.lpState = s.osc.lpState ∧ t.osc.hpState = s.osc.hpState := fun shape h h' =>
    ⟨_, exec_renderOf_blockState shape tz hacc, blockState_frame .., blockState_lpState tz fm size s h,
      blockState_hpState tz fm size s h'⟩
  exact ⟨hframe .triangle (.inr (.inl rfl)) (by decide), hframe .slope (.inr (.inr (.inl rfl))) (by decide),
    hframe .square (.inr (.inr (.inr rfl))) (by decide)⟩

/-- Settles O25: no step but IMPULSE's writes HP_STATE, and SQUARE_DARK and SQUARE_TRIANGLE emit the LP_STATE they write. -/
theorem renderFilteredSquaresComplete : Obligations.RenderFilteredSquaresComplete := by
  unfold Obligations.RenderFilteredSquaresComplete
  intro tz fm size s hacc
  have hlast : ∀ shape, emitsLpState shape → shape ≠ .impulse →
      ∃ t, exec (renderOf shape tz fm size) s = .next t ∧ renderFrame size s t ∧ t.osc.hpState = s.osc.hpState ∧
        t.mem.readWord (0x2000 + 4 * (size - 1)) = some t.osc.lpState := fun shape h h' =>
    ⟨_, exec_renderOf_blockState shape tz hacc, blockState_frame .., blockState_hpState tz fm size s h',
      readWord_last_blockState tz fm size s h hacc.1⟩
  exact ⟨⟨_, exec_renderOf_blockState .squareBright tz hacc, blockState_frame .., blockState_hpState tz fm size s (by decide)⟩,
    hlast .squareDark (.inl rfl) (by decide), hlast .squareTriangle (.inr rfl) (by decide)⟩

end Sys2Proof.Proofs
end

section
/-! PROOF. The interpolator of an accepted RENDER: the first block does not ramp (40_render.md R108), and its outputs stay finite
(R109, R110), so that every sample has its control values in range (R107). -/

namespace Sys2Proof.Machine

open Sys2Proof Sys2Proof.Safety

/-! An increment of a parameter from itself -/

theorem F32.sub_self {a : Word} (ha : F32.isFinite a = true) : F32.sub a a = F32.zero := by
  have h := F32.sum_of_value_zero (F32.nanOf .sub a a) ha (show F32.isFinite (F32.neg a) = true by simpa using ha) (by simp)
  rw [F32.sub, h, F32.sign_neg]
  cases F32.sign a <;> rfl

/-- float(n) is positive, and finite or +infinity, for every n but 0 (00_scope.md R9). -/
theorem F32.ofNat_pos {n : Nat} (h : 0 < n) :
    F32.sign (F32.ofNat n) = false ∧ F32.value (F32.ofNat n) ≠ 0 ∧
      (F32.isFinite (F32.ofNat n) = true ∨ F32.isInf (F32.ofNat n) = true) := by
  have hlt := F32.roundMag_lt (n * 2 ^ 149) 1
  have hle := F32.roundMag_le_infMag (n * 2 ^ 149) 1
  have hpos : F32.roundMag (1 * 2 ^ 149) 1 ≤ F32.roundMag (n * 2 ^ 149) 1 := F32.roundMag_mono 1 (Nat.mul_le_mul_right _ h)
  have hone : 0 < F32.roundMag (1 * 2 ^ 149) 1 := by decide
  refine ⟨F32.sign_pack false hlt, ?_, ?_⟩
  · rw [Ne, F32.value_eq_zero_iff, F32.ofNat, F32.mag_pack false hlt]
    omega
  · rw [F32.isFinite, F32.isInf, F32.ofNat, F32.mag_pack false hlt, decide_eq_true_eq, decide_eq_true_eq]
    omega

theorem F32.zero_div_ofNat {n : Nat} (h : 0 < n) : F32.div F32.zero (F32.ofNat n) = F32.zero := by
  obtain ⟨hsign, hne, hfin | hinf⟩ := F32.ofNat_pos h
  · rw [F32.div_of_value_zero F32.isFinite_zero hfin F32.value_zero hne, hsign]
    rfl
  · rw [F32.div_finite_inf F32.isFinite_zero hinf, hsign]
    rfl

/-- A parameter that stands at its target has the increment +0.0 (40_render.md R108, R109). -/
theorem increment_self {a : Word} {n : Nat} (ha : F32.isFinite a = true) (h : 0 < n) : increment a a n = F32.zero := by
  rw [increment, F32.sub_self ha, F32.zero_div_ofNat h]

/-- Adding +0.0 keeps the value: -0.0 becomes +0.0. -/
theorem F32.value_add_zero {a : Word} (ha : F32.isFinite a = true) :
    F32.isFinite (F32.add a F32.zero) = true ∧ F32.value (F32.add a F32.zero) = F32.value a := by
  obtain ⟨hf, hlo, hhi⟩ := F32.value_add_between ha F32.isFinite_zero ha ha (by simp) (by simp)
  exact ⟨hf, le_antisymm hhi hlo⟩

theorem F32.value_iterate_add_zero {a : Word} (ha : F32.isFinite a = true) (k : Nat) :
    F32.isFinite ((F32.add · F32.zero)^[k] a) = true ∧ F32.value ((F32.add · F32.zero)^[k] a) = F32.value a := by
  induction k with
  | zero => exact ⟨ha, rfl⟩
  | succ k ih =>
    rw [Function.iterate_succ_apply']
    obtain ⟨hf, hv⟩ := F32.value_add_zero ih.1
    exact ⟨hf, hv.trans ih.2⟩

section
variable {shape : Shape} {tz fm : Bool} {size : Nat} {s : State}

/-- Both targets of an accepted RENDER are within FM_TARGET_LIMIT (40_render.md R103, R104). -/
theorem targets_le_limit (tz : Bool) (h : renderAccepted fm size s) :
    F32.le (F32.abs (targetF tz fm s)) fmTargetLimit = true ∧ F32.le (F32.abs (targetP tz fm s)) fmTargetLimit = true :=
  accepted_targets_le_limit (checkRender_of_renderAccepted tz h)

theorem fmValue_isFinite (h : renderAccepted fm size s) {n : Nat} (hn : n < size) :
    ∀ x ∈ fmValue fm n s, F32.isFinite x = true :=
  accepted_fm_finite (checkRender_of_renderAccepted false h) _ (List.mem_map_of_mem (List.mem_range.2 hn))

/-- The interpolator's outputs at the end of an accepted RENDER (40_render.md R110, R111). -/
theorem blockState_smooth :
    (blockState shape tz fm size s).osc.smoothFreq =
        (F32.add · (increment (targetF tz fm s) (seededOsc tz fm s).smoothFreq size))^[size] (seededOsc tz fm s).smoothFreq ∧
      (blockState shape tz fm size s).osc.smoothPw =
        (F32.add · (increment (targetP tz fm s) (seededOsc tz fm s).smoothPw size))^[size] (seededOsc tz fm s).smoothPw := by
  rw [blockState_osc, persist_smoothFreq, persist_smoothPw, blockUpTo, loopUpTo, renderLoop_ramp, rampStep_iterate]
  simp

end

/-- Interpolator outputs that follow 40_render.md R109 and R110 from baselines within the bound of log entry 19 are finite. -/
theorem ramp_outputs_isFinite {rs : Nat → Ramp} {f p : Word} {size n : Nat}
    (hf : F32.le (F32.abs f) fmTargetLimit = true) (hp : F32.le (F32.abs p) fmTargetLimit = true)
    (hfi : F32.le (F32.abs (rs 0).fi) rampLimit = true) (hpwi : F32.le (F32.abs (rs 0).pwi) rampLimit = true)
    (hsize : size ≤ 1024) (hpos : 0 < size)
    (hrs : ∀ n, n < size → rs (n + 1) = rampStep (increment f (rs 0).fi size) (increment p (rs 0).pwi size) (rs n))
    (hn : n ≤ size) : F32.isFinite (rs n).fi = true ∧ F32.isFinite (rs n).pwi = true := by
  have hiter : ∀ k, k ≤ size → rs k = (rampStep (increment f (rs 0).fi size) (increment p (rs 0).pwi size))^[k] (rs 0) := by
    intro k hk
    induction k with
    | zero => rfl
    | succ k ih => rw [hrs k hk, Function.iterate_succ_apply', ← ih (Nat.le_of_succ_le hk)]
  rw [hiter n hn, rampStep_iterate]
  exact ⟨ramp_isFinite hf hfi hpos hsize hn, ramp_isFinite hp hpwi hpos hsize hn⟩

end Sys2Proof.Machine

namespace Sys2Proof.Proofs

open Sys2Proof Sys2Proof.Machine Sys2Proof.Safety

/-- Settles O28: seeding puts each parameter at its target, and adding the increment +0.0 keeps its value. -/
theorem firstBlockDoesNotRamp : Obligations.FirstBlockDoesNotRamp := by
  unfold Obligations.FirstBlockDoesNotRamp
  intro shape tz fm size s hacc hseeded
  obtain ⟨hf, hp⟩ := targets_le_limit tz hacc
  replace hf := (le_fmTargetLimit_iff.1 hf).1
  replace hp := (le_fmTargetLimit_iff.1 hp).1
  have hincF := increment_self hf hacc.1
  have hincP := increment_self hp hacc.1
  have hbaseF : (seededOsc tz fm s).smoothFreq = targetF tz fm s := by simp [seededOsc, hseeded]
  have hbaseP : (seededOsc tz fm s).smoothPw = targetP tz fm s := by simp [seededOsc, hseeded]
  obtain ⟨hfreq, hpw⟩ := blockState_smooth (shape := shape) (tz := tz) (fm := fm) (size := size) (s := s)
  rw [hbaseF, hincF] at hfreq
  rw [hbaseP, hincP] at hpw
  obtain ⟨-, -, -, -, hset, -⟩ := blockState_frame shape tz fm size s
  refine ⟨hincF, hincP, _, exec_renderOf_blockState shape tz hacc, hset, ?_⟩
  rw [hfreq, hpw]
  obtain ⟨hff, hfv⟩ := F32.value_iterate_add_zero hf size
  exact ⟨hff, hfv, F32.value_iterate_add_zero hp size⟩

/-- Settles O55: the interpolator's outputs and the FM words are finite, and CONTROL does the rest. -/
theorem everySampleIsWithinTheControlBounds : Obligations.EverySampleIsWithinTheControlBounds := by
  unfold Obligations.EverySampleIsWithinTheControlBounds
  intro shape tz fm size s rs hs hacc h0 hrs n hn f pw
  obtain ⟨hparams, -, hfreq, hpw⟩ := hs
  obtain ⟨hf, hp⟩ := targets_le_limit tz hacc
  have he := fmValue_isFinite hacc hn
  obtain ⟨hpos, hmax, -⟩ := hacc
  obtain ⟨hbf, hbp⟩ := seed_le_rampLimit hf hp hfreq hpw
  rw [seed_smoothFreq] at hbf
  rw [seed_smoothPw] at hbp
  obtain ⟨hfi, hpwi⟩ := ramp_outputs_isFinite hf hp (by rw [h0]; exact hbf) (by rw [h0]; exact hbp)
    (hmax.trans (maxBlockSize_le hparams)) hpos hrs (Nat.succ_le_of_lt hn)
  have hfin : inClampF tz f := controlF_inClampF hfi he
  have hpweq : pw = controlPw shape f (rs (n + 1)).pwi := (controlPw_eq _ _ _).symm
  obtain ⟨hlo, hlo', hhi⟩ := hfin.range
  rw [hpweq]
  exact ⟨hfi, hpwi, hlo, hlo', hhi, controlPw_range shape ((F32.isFinite_iff _).1 hpwi).1 hfin.le_kMax⟩

end Sys2Proof.Proofs
end

section
/-! PROOF. The default kernel on [0, 1] (41_phase_and_corrections.md R140 to R144): its formulas are products, quotients and
negations of words between +0.0 and a bound, and rounding keeps such bounds. -/

namespace Sys2Proof.Machine.F32

open Sys2Proof

/-! Words between +0.0 and a bound -/

/-- From zero of either sign up to `hi`. -/
def upTo (hi a : Word) : Prop := le zero a = true ∧ le a hi = true

theorem upTo_iff {hi a : Word} (hhi : isFinite hi = true) :
    upTo hi a ↔ isFinite a = true ∧ 0 ≤ value a ∧ value a ≤ value hi := by
  rw [upTo, between_iff isFinite_zero hhi, value_zero]

theorem upTo_of_key {hi a : Word} {m n : Nat} (ha : isNaN a = false) (hhi : isNaN hi = false) (hka : key a = m)
    (hkhi : key hi = n) (h : m ≤ n) : upTo hi a := by
  refine ⟨(le_iff _ _).2 ⟨by decide, ha, ?_⟩, (le_iff _ _).2 ⟨ha, hhi, ?_⟩⟩
  · rw [hka]
    exact Int.natCast_nonneg m
  · rw [hka, hkhi]
    exact Int.ofNat_le.2 h

/-- The one word of negative sign that is not below zero is -0.0. -/
theorem units_of_nonneg_of_sign {a : Word} (h : 0 ≤ value a) (hs : sign a = true) : units a = 0 := by
  rw [value, if_pos hs] at h
  omega

theorem natCast_units {a : Word} (h : 0 ≤ value a) : (units a : Int) = value a := by
  cases hs : sign a
  · simp [value, hs]
  · simp [value, hs, units_of_nonneg_of_sign h hs]

theorem units_le_units {a b : Word} (ha : 0 ≤ value a) (h : value a ≤ value b) : units a ≤ units b := by
  have hua := natCast_units ha
  have hub := natCast_units (ha.trans h)
  omega

/-- A rounded magnitude under a sign that is negative only where the exact result is zero. -/
theorem key_pack_roundMag {s : Bool} {n d : Nat} (hd : 0 < d) (h : s = true → n = 0) :
    key (pack s (roundMag n d)) = roundMag n d := by
  rw [key_pack s (roundMag_lt n d)]
  split
  next hs => simp [h hs, roundMag_zero_left hd]
  next => rfl

theorem key_mul_of_nonneg {a b : Word} (ha : isFinite a = true) (hb : isFinite b = true) (ha0 : 0 ≤ value a)
    (hb0 : 0 ≤ value b) : key (mul a b) = roundMag (units a * units b) (2 ^ 149) := by
  rw [mul_of_finite ha hb]
  refine key_pack_roundMag (by decide) fun hs => Nat.mul_eq_zero.2 ?_
  cases hsa : sign a
  · exact .inr (units_of_nonneg_of_sign hb0 (by simpa [hsa] using hs))
  · exact .inl (units_of_nonneg_of_sign ha0 hsa)

theorem key_div_of_nonneg {a b : Word} (ha : isFinite a = true) (hb : isFinite b = true) (ha0 : 0 ≤ value a)
    (hb0 : 0 < value b) : key (div a b) = roundMag (units a * 2 ^ 149) (units b) := by
  have hsb : sign b ≠ true := fun hs => by
    have hunits := natCast_units hb0.le
    rw [units_of_nonneg_of_sign hb0.le hs] at hunits
    omega
  rw [div_of_finite ha hb hb0.ne']
  refine key_pack_roundMag (units_pos hb0.ne') fun hs => ?_
  rw [units_of_nonneg_of_sign ha0 (by simpa [hsb] using hs), Nat.zero_mul]

/-- A product grows with both factors. -/
theorem upTo_mul {a b c d : Word} (hc : isFinite c = true) (hd : isFinite d = true) (ha : upTo c a) (hb : upTo d b) :
    upTo (mul c d) (mul a b) := by
  obtain ⟨haf, ha0, hac⟩ := (upTo_iff hc).1 ha
  obtain ⟨hbf, hb0, hbd⟩ := (upTo_iff hd).1 hb
  exact upTo_of_key (isNaN_mul_of_finite haf hbf) (isNaN_mul_of_finite hc hd) (key_mul_of_nonneg haf hbf ha0 hb0)
    (key_mul_of_nonneg hc hd (ha0.trans hac) (hb0.trans hbd))
    (roundMag_mono _ (Nat.mul_le_mul (units_le_units ha0 hac) (units_le_units hb0 hbd)))

theorem isNaN_div_of_finite {a b : Word} (ha : isFinite a = true) (hb : isFinite b = true) (hb0 : value b ≠ 0) :
    isNaN (div a b) = false := by
  rw [div_of_finite ha hb hb0]
  exact isNaN_pack _ (roundMag_le_infMag _ _)

/-- A quotient by a positive divisor grows with its dividend. -/
theorem upTo_div {a b c : Word} (hc : isFinite c = true) (hb : isFinite b = true) (hb0 : 0 < value b) (ha : upTo c a) :
    upTo (div c b) (div a b) := by
  obtain ⟨haf, ha0, hac⟩ := (upTo_iff hc).1 ha
  exact upTo_of_key (isNaN_div_of_finite haf hb hb0.ne') (isNaN_div_of_finite hc hb hb0.ne')
    (key_div_of_nonneg haf hb ha0 hb0) (key_div_of_nonneg hc hb (ha0.trans hac) hb0)
    (roundMag_mono _ (Nat.mul_le_mul_right _ (units_le_units ha0 hac)))

theorem upTo_one_sub {a : Word} (h : upTo one a) : upTo one (sub one a) := by
  obtain ⟨hf, h0, h1⟩ := (upTo_iff isFinite_one).1 h
  rw [upTo_iff isFinite_one, ← value_zero]
  exact value_sub_between isFinite_one hf isFinite_zero isFinite_one (by rw [value_zero]; omega) (by omega)

/-- Negation turns the order round. -/
theorem le_neg_neg (a b : Word) : le (neg a) (neg b) = le b a := by
  simp [le, Bool.and_comm]

end Sys2Proof.Machine.F32

namespace Sys2Proof.Machine

open Sys2Proof

/-! The kernel functions -/

theorem sat01_upTo_one (x : Word) : F32.upTo F32.one (sat01 x) := by
  rcases sat01_cases x with ⟨-, h⟩ | ⟨-, h⟩ | ⟨-, h⟩ | ⟨h0, h1, h⟩ <;> rw [h]
  · exact ⟨by decide, by decide⟩
  · exact ⟨by decide, by decide⟩
  · exact ⟨by decide, by decide⟩
  · exact ⟨h0, h1⟩

section
variable {t : Word} (ht : F32.upTo F32.one t)
include ht

/-- (0.5 * t) * t is at most its value at 1 (R140; R141 takes it at 1 - t). -/
theorem upTo_half_mul_mul : F32.upTo F32.half (F32.mul (F32.mul F32.half t) t) := by
  have hhalf : F32.upTo F32.half F32.half := ⟨by decide, by decide⟩
  have h := F32.upTo_mul (by decide) F32.isFinite_one (F32.upTo_mul F32.isFinite_half F32.isFinite_one hhalf ht) ht
  rwa [show F32.mul (F32.mul F32.half F32.one) F32.one = F32.half by decide] at h

/-- ((t * t) * t) / 6 is at most its value at 1, the word nearest to 1/6 (R142; R143 takes it at 1 - t). -/
theorem upTo_cube_div_six : F32.upTo 0x3E2AAAAB#32 (F32.div (F32.mul (F32.mul t t) t) F32.six) := by
  have hcube := F32.upTo_mul (by decide) F32.isFinite_one (F32.upTo_mul F32.isFinite_one F32.isFinite_one ht ht) ht
  have h := F32.upTo_div (b := F32.six) (by decide) (by decide) (by decide) hcube
  rwa [show F32.div (F32.mul (F32.mul F32.one F32.one) F32.one) F32.six = 0x3E2AAAAB#32 by decide] at h

theorem defaultBNext_between :
    F32.le (F32.neg F32.half) (defaultBNext t) = true ∧ F32.le (defaultBNext t) F32.zero = true := by
  obtain ⟨h0, h1⟩ := upTo_half_mul_mul (F32.upTo_one_sub ht)
  refine ⟨(F32.le_neg_neg _ _).trans h1, F32.le_trans' (b := F32.neg F32.zero) ?_ (by decide)⟩
  exact (F32.le_neg_neg _ _).trans h0

end

theorem kernel_of_default {kid : BitVec 8} (h : kid = 0#8) (fn : KernelFn) (t : Word) : kernel kid fn t = defaultKernel fn t :=
  if_pos h

end Sys2Proof.Machine

namespace Sys2Proof.Proofs

open Sys2Proof Sys2Proof.Machine Sys2Proof.Safety

/-- Settles O19: SAT01 brings the operand into [0, 1], where each kernel function is bounded by its value at an end. -/
theorem kevalResultsAreBounded : Obligations.KevalResultsAreBounded := by
  unfold Obligations.KevalResultsAreBounded
  intro s t hid h
  obtain rfl := Host.Outcome.next.inj h
  have hx := sat01_upTo_one s.kernelT
  simp only [kernel_of_default hid]
  obtain ⟨hbt0, hbt1⟩ := upTo_half_mul_mul hx
  obtain ⟨hbn0, hbn1⟩ := defaultBNext_between hx
  obtain ⟨hit0, hit1⟩ := upTo_cube_div_six hx
  obtain ⟨hin0, hin1⟩ := upTo_cube_div_six (F32.upTo_one_sub hx)
  exact ⟨hbt0, hbt1, hbn0, hbn1, hit0, hit1, hin0, hin1⟩

end Sys2Proof.Proofs
end

section
/-! PROOF. The discontinuities (41_phase_and_corrections.md R132 to R139): the fraction at f = 0, the wraps and the edge branch by
branch, and the steps of the slope family. -/

namespace Sys2Proof.Machine

open Sys2Proof

/-! The wraps -/

theorem wrapsBackward_eq_true {tz : Bool} {v : Voice} (htz : tz = true) (h : F32.lt v.phase F32.zero = true) :
    wrapsBackward tz v = true :=
  (Bool.and_eq_true _ _).mpr ⟨htz, h⟩

theorem wrapsBackward_eq_false {tz : Bool} {v : Voice} (h : tz = false ∨ F32.lt v.phase F32.zero = false) :
    wrapsBackward tz v = false :=
  Bool.and_eq_false_iff.2 h

section
variable (kid : BitVec 8) (fam : Family) {tz : Bool} (f : Word) {v : Voice}

theorem wrapSaw_of_forward (h : wrapsForward v = true) :
    wrapSaw kid tz f v =
      blep kid .fall (wrapFraction (F32.sub v.phase F32.one) f) { v with phase := F32.sub v.phase F32.one } :=
  if_pos h

theorem wrapPulse_of_forward (h : wrapsForward v = true) :
    wrapPulse kid fam tz f v =
      { correctWrap kid fam .fall (wrapFraction (F32.sub v.phase F32.one) f) { v with phase := F32.sub v.phase F32.one } with
        edgeState := .low } :=
  if_pos h

variable (hf : wrapsForward v = false)
include hf

theorem wrapSaw_of_backward (h : wrapsBackward tz v = true) :
    wrapSaw kid tz f v = blep kid .rise (wrapFraction v.phase f) { v with phase := F32.add v.phase F32.one } := by
  simp [wrapSaw, hf, h]

theorem wrapSaw_of_none (h : wrapsBackward tz v = false) : wrapSaw kid tz f v = v := by
  simp [wrapSaw, hf, h]

theorem wrapPulse_of_backward (h : wrapsBackward tz v = true) :
    wrapPulse kid fam tz f v =
      { correctWrap kid fam .rise (wrapFraction v.phase f) { v with phase := F32.add v.phase F32.one } with
        edgeState := .high } := by
  simp [wrapPulse, hf, h]

theorem wrapPulse_of_none (h : wrapsBackward tz v = false) : wrapPulse kid fam tz f v = v := by
  simp [wrapPulse, hf, h]

end

/-! The edge -/

section
variable (kid : BitVec 8) (fam : Family) (f : Word) {pw : Word} {v : Voice}

theorem edge_of_same_side (h : sideOf v.phase pw = v.edgeState) : edge kid fam f pw v = v := if_pos h

theorem edge_of_crossing (h : sideOf v.phase pw ≠ v.edgeState) :
    edge kid fam f pw v =
      { correctEdge kid fam (sideOf v.phase pw) (edgeFraction v.phase pw f) v with edgeState := sideOf v.phase pw } :=
  if_neg h

end

/-! The slope family -/

theorem slopeNaive_eq (pw : Word) (v : Voice) :
    slopeNaive pw v = if v.edgeState = .low then F32.mul v.phase (riseRate pw)
      else F32.sub F32.one (F32.mul (F32.sub v.phase pw) (fallRate pw)) := by
  unfold slopeNaive
  split
  next h => rw [if_pos h]
  next h => rw [if_neg (by rw [h]; decide)]

theorem stepShape_of_slopeFamily {shape : Shape} (h : shape = .triangle ∨ shape = .slope) (kid : BitVec 8) (tz : Bool)
    (f pw : Word) (v : Voice) :
    stepShape shape kid tz f pw v = (slopeVoice kid tz f pw v, centred (slopeVoice kid tz f pw v).thisAcc) := by
  rcases h with rfl | rfl <;> rfl

end Sys2Proof.Machine

namespace Sys2Proof.Proofs

open Sys2Proof Sys2Proof.Machine Sys2Proof.Safety

/-- Settles O54: 0/0 is a NaN, and any other overshoot over zero an infinity of the sign of the quotient. -/
theorem fractionAtZeroFrequencyIsSaturated : Obligations.FractionAtZeroFrequencyIsSaturated := by
  unfold Obligations.FractionAtZeroFrequencyIsSaturated
  intro x f hx _ hf0
  by_cases hx0 : F32.value x = 0
  · rw [if_neg fun h => h.1 hx0, F32.div_invalid (.inr ⟨hx0, hf0⟩)]
    exact sat01_of_isNaN (F32.isNaN_nanOf ..)
  · rw [F32.div_of_zero_divisor hx hx0 hf0, F32.pack_infMag]
    by_cases hsign : F32.sign x = F32.sign f
    · rw [if_neg (not_not_intro hsign), if_pos ⟨hx0, hsign⟩]
      exact sat01_of_one_lt (by decide)
    · rw [if_pos hsign, if_neg fun h => hsign h.2]
      exact sat01_of_lt_zero (by decide)

/-- Settles O41: the three branches of WRAP_SAW, with BLEP written out. -/
theorem sawWrapFollowsItsRule : Obligations.SawWrapFollowsItsRule := by
  unfold Obligations.SawWrapFollowsItsRule
  intro kid tz f v
  refine ⟨fun h => ?_, fun h htz hlt => ?_, fun h hnone => ?_⟩
  · exact wrapSaw_of_forward kid f h
  · exact wrapSaw_of_backward kid f h (wrapsBackward_eq_true htz hlt)
  · exact wrapSaw_of_none kid f h (wrapsBackward_eq_false hnone)

/-- Settles O43: the three branches of the wrap, with the correction of each family written out. -/
theorem pulseShapeWrapFollowsItsRule : Obligations.PulseShapeWrapFollowsItsRule := by
  unfold Obligations.PulseShapeWrapFollowsItsRule
  intro kid tz f m v
  refine ⟨fun h => ?_, fun h htz hlt => ?_, fun h hnone => ?_⟩
  · exact ⟨wrapPulse_of_forward kid (.slope m) f h, wrapPulse_of_forward kid .square f h⟩
  · have hb := wrapsBackward_eq_true htz hlt
    exact ⟨wrapPulse_of_backward kid (.slope m) f h hb, wrapPulse_of_backward kid .square f h hb⟩
  · have hb := wrapsBackward_eq_false hnone
    exact ⟨wrapPulse_of_none kid (.slope m) f h hb, wrapPulse_of_none kid .square f h hb⟩

/-- Settles O42: EDGE compares the side of the phase with EDGE_STATE; the square family's correction depends on the side. -/
theorem pulseWidthEdgeFollowsItsRule : Obligations.PulseWidthEdgeFollowsItsRule := by
  unfold Obligations.PulseWidthEdgeFollowsItsRule
  intro kid f pw m v side x
  have hside : sideOf v.phase pw = side := rfl
  refine ⟨fun h => ?_, fun h => ?_, fun h hhigh => ?_, fun h hlow => ?_⟩
  · exact ⟨edge_of_same_side kid .square f h, edge_of_same_side kid (.slope m) f h⟩
  · exact edge_of_crossing kid (.slope m) f h
  · rw [edge_of_crossing kid .square f h, hside, hhigh]
    rfl
  · rw [edge_of_crossing kid .square f h, hside, hlow]
    rfl

/-- Settles O45: both shapes emit the centred `this` and add the naive value of the side the wrap left. -/
theorem slopeFamilyStepsFollowTheirRules : Obligations.SlopeFamilyStepsFollowTheirRules := by
  unfold Obligations.SlopeFamilyStepsFollowTheirRules
  intro kid tz f pw v shape hshape up dn m w x
  have hx : x = slopeNaive pw w := (slopeNaive_eq pw w).symm
  rw [stepShape_of_slopeFamily hshape, hx]
  rfl

end Sys2Proof.Proofs
end

section
/-! PROOF. The sample step of the saw and the square family (42_shapes.md R160, R161, R164 to R167), and the shapes that ignore the
pulse width (40_render.md R112). -/

namespace Sys2Proof.Machine

open Sys2Proof Sys2Proof.Safety

theorem squareNaive_eq (v : Voice) : squareNaive v = if v.edgeState = .high then F32.one else F32.zero := by
  unfold squareNaive
  split
  next h => rw [if_neg (by rw [h]; decide)]
  next h => rw [if_pos h]

/-- The shapes without a pulse width of their own: IMPULSE and SAW have no pulse-width edge, and CONTROL gives TRIANGLE and
SQUARE_TRIANGLE the block's 0.5 (40_render.md R112). -/
def ignoresPulseWidth (shape : Shape) : Prop :=
  shape = .impulse ∨ shape = .saw ∨ shape = .triangle ∨ shape = .squareTriangle

/-- Two loops that differ in nothing but the interpolated pulse width. -/
def agreeButPw (d d' : Rendered) : Prop := d'.voice = d.voice ∧ d'.samples = d.samples ∧ d'.ramp.fi = d.ramp.fi

section
variable {shape : Shape} (hshape : ignoresPulseWidth shape) (kid : BitVec 8) (tz : Bool)
include hshape

theorem sample_ignores_pw (e : Option Word) {r r' : Ramp} (h : r'.fi = r.fi) (v : Voice) :
    sample shape kid tz e r' v = sample shape kid tz e r v := by
  simp only [sample, h]
  rcases hshape with rfl | rfl | rfl | rfl <;> rfl

theorem renderLoop_agreeButPw (incF incPw incPw' : Word) (es : List (Option Word)) {r r' : Ramp} (h : r'.fi = r.fi) (v : Voice) :
    agreeButPw (renderLoop shape kid tz incF incPw es r v) (renderLoop shape kid tz incF incPw' es r' v) := by
  induction es generalizing r r' v with
  | nil => exact ⟨rfl, rfl, h⟩
  | cons e es ih =>
    have hfi : (rampStep incF incPw' r').fi = (rampStep incF incPw r).fi := congrArg (F32.add · incF) h
    have hsample := sample_ignores_pw hshape kid tz e hfi v
    obtain ⟨hvoice, hsamples, hramp⟩ := ih hfi (sample shape kid tz e (rampStep incF incPw r) v).1
    simp only [renderLoop, hsample]
    exact ⟨hvoice, congrArg (List.cons _) hsamples, hramp⟩

theorem blockSamples_agreeButPw (f p p' : Word) (es : List (Option Word)) {o o' : Osc}
    (hstart : startVoice o' = startVoice o) (hfreq : o'.smoothFreq = o.smoothFreq) :
    agreeButPw (blockSamples shape kid tz f p es o) (blockSamples shape kid tz f p' es o') := by
  rw [blockSamples, blockSamples, hstart, hfreq]
  refine renderLoop_agreeButPw hshape kid tz _ _ _ es ?_ _
  rfl

end

/-- A state with another TARGET_PW and another baseline SMOOTH_PW. -/
def State.withPw (p q : Word) (s : State) : State := { s with targetPw := p, osc := { s.osc with smoothPw := q } }

theorem renderBlock_withPw {shape : Shape} (hshape : ignoresPulseWidth shape) (tz : Bool) (f p p' x y : Word)
    (es : List (Option Word)) (s : State) :
    (renderBlock shape tz f p' es (s.withPw x y)).mem = (renderBlock shape tz f p es s).mem ∧
      (renderBlock shape tz f p' es (s.withPw x y)).osc =
        { (renderBlock shape tz f p es s).osc with smoothPw := (renderBlock shape tz f p' es (s.withPw x y)).osc.smoothPw } := by
  have hstart : startVoice (seed f p' (s.withPw x y).osc) = startVoice (seed f p s.osc) := by
    simp [startVoice, State.withPw]
  have hfreq : (seed f p' (s.withPw x y).osc).smoothFreq = (seed f p s.osc).smoothFreq := by simp [State.withPw]
  obtain ⟨hvoice, hsamples, hramp⟩ :=
    blockSamples_agreeButPw hshape s.params.kernelId tz f p p' es hstart hfreq
  refine ⟨?_, ?_⟩
  · rw [renderBlock_mem, renderBlock_mem]
    exact congrArg (s.mem.writeOut 0) hsamples
  · rw [renderBlock_osc, renderBlock_osc, show (s.withPw x y).params = s.params from rfl]
    simp only [persist, hvoice, hramp, seed_seeded]

end Sys2Proof.Machine

namespace Sys2Proof.Proofs

open Sys2Proof Sys2Proof.Machine Sys2Proof.Safety

/-- Settles O31: the sample loops of the two states differ in the interpolated pulse width only, which no sample step reads. -/
theorem fourShapesIgnoreThePulseWidth : Obligations.FourShapesIgnoreThePulseWidth := by
  unfold Obligations.FourShapesIgnoreThePulseWidth
  intro shape tz fm size s p q hshape hacc hacc'
  have hacc'' : renderAccepted fm size (s.withPw p q) := hacc'
  obtain ⟨hmem, hosc⟩ := renderBlock_withPw hshape tz (targetF tz fm s) (targetP tz fm s) (targetP tz fm (s.withPw p q)) p q
    (fmValues fm size s) s
  exact ⟨_, _, exec_renderOf_blockState shape tz hacc, exec_renderOf_blockState shape tz hacc'', hmem, hosc⟩

/-- Settles O44: both shapes add the phase after the wrap to `next`; IMPULSE filters the difference of `this`, SAW centres it. -/
theorem sawFamilyStepsFollowTheirRules : Obligations.SawFamilyStepsFollowTheirRules := by
  unfold Obligations.SawFamilyStepsFollowTheirRules
  intro kid tz f pw v w y1 lp
  exact ⟨rfl, rfl⟩

/-- Settles O46: the four shapes share the corrected square and differ in what they filter `this` with. -/
theorem squareFamilyStepsFollowTheirRules : Obligations.SquareFamilyStepsFollowTheirRules := by
  unfold Obligations.SquareFamilyStepsFollowTheirRules
  intro kid tz f pw v w n s pole c2 xb dark blend
  have hn : n = F32.add w.nextAcc (squareNaive w) := congrArg (F32.add w.nextAcc) (squareNaive_eq w).symm
  rw [hn]
  exact ⟨rfl, rfl, rfl, rfl⟩

end Sys2Proof.Proofs
end

section
/-! PROOF. After the edge and the wrap of a pulse-width step EDGE_STATE is the side PHASE is on (10_state.md R27,
41_phase_and_corrections.md R133 to R135, R146): the bounds of CLAMP_PW leave room for the step and its rounding errors between the
threshold and either end. -/

namespace Sys2Proof.Machine.F32

open Sys2Proof

/-! Doubling -/

theorem exists_unitsOf_double (m : Nat) : ∃ m' ≤ m + 2 ^ 23, unitsOf m' = 2 * unitsOf m := by
  by_cases hE : m / 2 ^ 23 = 0
  · refine ⟨2 * m, by omega, ?_⟩
    have hu : unitsOf m = m := by rw [unitsOf, if_pos hE]; omega
    simpa [hu] using unitsOf_places (e := 0) (m := 2 * m) (by omega) (by omega)
  · refine ⟨m + 2 ^ 23, le_refl _, ?_⟩
    rw [unitsOf, unitsOf, if_neg hE, if_neg (by omega), Nat.add_mod_right, Nat.add_div_right m (by decide),
      Nat.add_sub_cancel, ← Nat.sub_one_add_one hE, pow_succ, Nat.add_sub_cancel]
    ring

/-- Doubling a magnitude within K_MAX is exact (00_scope.md R6). -/
theorem value_two_mul_abs {f : Word} (hf : le (abs f) kMax = true) :
    isFinite (mul two (abs f)) = true ∧ value (mul two (abs f)) = 2 * |value f| := by
  obtain ⟨h0, h1⟩ := two_mul_abs_le_half hf
  obtain ⟨hfin, -, -⟩ := (between_iff isFinite_zero isFinite_half).1 ⟨h0, h1⟩
  refine ⟨hfin, ?_⟩
  obtain ⟨hff, -⟩ := (le_abs_iff isFinite_kMax).1 hf
  have hmag : mag f ≤ mag kMax := by
    obtain ⟨-, -, hkey⟩ := (le_iff _ _).1 hf
    simpa [key, show sign kMax = false by decide] using hkey
  obtain ⟨m, hm, hdouble⟩ := exists_unitsOf_double (mag f)
  have hround : roundMag (units two * units (abs f)) (2 ^ 149) = m := by
    rw [units_abs, show units two * units f = unitsOf m * 2 ^ 149 by
      rw [hdouble, show units two = 2 * 2 ^ 149 by decide, units]; ring]
    exact roundMag_exact (lt_of_le_of_lt (hm.trans (Nat.add_le_add_right hmag _)) (by decide)) (by decide)
  have hsign : (sign two != sign (abs f)) = false := by rw [sign_abs]; decide
  have habs : |value f| = units f := by unfold value; split <;> simp
  rw [mul_of_finite (by decide) (by simpa using hff), hround, hsign, value_pack _ (hround ▸ roundMag_lt _ _),
    if_neg Bool.false_ne_true, hdouble, habs, units]
  push_cast
  rfl

end Sys2Proof.Machine.F32

namespace Sys2Proof.Machine

open Sys2Proof Sys2Proof.Safety

/-! A pulse width between the bounds of CLAMP_PW -/

theorem F32.le_of_lt' {a b : Word} (h : F32.lt a b = true) : F32.le a b = true := by
  obtain ⟨ha, hb, hab⟩ := (F32.lt_iff a b).1 h
  exact (F32.le_iff a b).2 ⟨ha, hb, hab.le⟩

theorem F32.le_self {a : Word} (h : F32.isNaN a = false) : F32.le a a = true := (F32.le_iff a a).2 ⟨h, h, le_refl _⟩

/-- The lower bound of CLAMP_PW is not below PW_FLOOR nor below 2·abs(f) (40_render.md R106). -/
theorem le_pwLow {f : Word} (h : F32.isNaN (F32.mul F32.two (F32.abs f)) = false) :
    F32.le pwFloor (pwLow f) = true ∧ F32.le (F32.mul F32.two (F32.abs f)) (pwLow f) = true := by
  unfold pwLow
  simp only []
  split
  next hlt => exact ⟨by decide, F32.le_of_lt' hlt⟩
  next hge => exact ⟨F32.le_of_not_lt h (by decide) (Bool.eq_false_iff.2 hge), F32.le_self h⟩

/-- The upper bound of CLAMP_PW is not above 1 - 2·abs(f) (40_render.md R106). -/
theorem pwHigh_le {f : Word} (h : F32.isNaN (F32.sub F32.one (F32.mul F32.two (F32.abs f))) = false) :
    F32.le (pwHigh f) (F32.sub F32.one (F32.mul F32.two (F32.abs f))) = true := by
  unfold pwHigh
  simp only []
  split
  next hlt => exact F32.le_of_lt' hlt
  next => exact F32.le_self h

/-- A pulse width is at least PW_FLOOR and 2·abs(f), and at most 1 - 2·abs(f) rounded (40_render.md R106). -/
theorem pulseWidth_bounds {f pw : Word} (hf : F32.le (F32.abs f) kMax = true) (h0 : F32.le (pwLow f) pw = true)
    (h1 : F32.le pw (pwHigh f) = true) :
    F32.isFinite pw = true ∧ F32.value pwFloor ≤ F32.value pw ∧ 2 * |F32.value f| ≤ F32.value pw ∧
      F32.le pw (F32.sub F32.one (F32.mul F32.two (F32.abs f))) = true := by
  obtain ⟨haf, hav⟩ := F32.value_two_mul_abs hf
  obtain ⟨hfloor, hdouble⟩ := le_pwLow ((F32.isFinite_iff _).1 haf).1
  have hhigh := pwHigh_le (F32.key_sub F32.isFinite_one haf).1
  obtain ⟨hzero, -, -, hone⟩ := pwBounds_ordered hf
  obtain ⟨hfin, -, -⟩ := phaseOk_iff.1 ⟨F32.le_trans' hzero h0, F32.le_trans' h1 hone⟩
  refine ⟨hfin, ?_, ?_, F32.le_trans' h1 hhigh⟩
  · exact (F32.le_iff_value_le (by decide) hfin).1 (F32.le_trans' hfloor h0)
  · rw [← hav]
    exact (F32.le_iff_value_le haf hfin).1 (F32.le_trans' hdouble h0)

/-! The wraps against the threshold -/

section
variable {phase f pw : Word} (hp : phaseOk phase) {tz : Bool} (hf : inClampF tz f) (hlo : F32.le (pwLow f) pw = true)
  (hhi : F32.le pw (pwHigh f) = true)
include hp hf hlo hhi

/-- A forward wrap ends below the threshold: the overshoot is at most f and the rounding errors of the advance (2^-23) and of the
wrap (2^-24), and the larger of 2·abs(f) and PW_FLOOR (above 2^-19) leaves 2^-20 above f. -/
theorem forwardWrap_below_threshold (hge : F32.le F32.one (F32.add phase f) = true) :
    F32.le pw (F32.sub (F32.add phase f) F32.one) = false := by
  obtain ⟨hpf, hp0, hp1⟩ := phaseOk_iff.1 hp
  obtain ⟨hff, hf0, hf1, -⟩ := hf.value_bounds
  obtain ⟨hxf, -, hx1, -⟩ := advance_bounds hp hf
  obtain ⟨hpwf, hfloor, hdouble, -⟩ := pulseWidth_bounds hf.le_kMax hlo hhi
  rw [F32.le_iff_value_le F32.isFinite_one hxf, F32.value_one] at hge
  obtain ⟨hyf, -, -⟩ := forwardWrap_bounds hxf hge hx1
  obtain ⟨-, hxerr⟩ := F32.value_add_error hpf hff (abs_lt.2 ⟨by omega, by omega⟩)
  obtain ⟨-, hyerr⟩ := F32.value_sub_error hxf F32.isFinite_one (by rw [F32.value_one]; exact abs_lt.2 ⟨by omega, by omega⟩)
  rw [F32.value_one] at hyerr
  have hfloor' : 2 ^ 130 ≤ F32.value pw := le_trans (by decide) hfloor
  have hadvance : F32.value (F32.add phase f) ≤ F32.value phase + F32.value f + 2 * 2 ^ 125 := by
    have hexact : |F32.value phase + F32.value f| ≤ 2 ^ 149 + 2 ^ 147 := abs_le.2 ⟨by omega, by omega⟩
    have hround := le_abs_self (F32.value (F32.add phase f) - (F32.value phase + F32.value f))
    omega
  have hwrap : F32.value (F32.sub (F32.add phase f) F32.one) ≤ F32.value (F32.add phase f) - 2 ^ 149 + 2 ^ 125 := by
    have hexact : |F32.value (F32.add phase f) - 2 ^ 149| ≤ 2 ^ 147 := abs_le.2 ⟨by omega, by omega⟩
    have hround := le_abs_self (F32.value (F32.sub (F32.add phase f) F32.one) - (F32.value (F32.add phase f) - 2 ^ 149))
    omega
  have hroom : F32.value f + 2 ^ 129 ≤ F32.value pw := by
    have habs := le_abs_self (F32.value f)
    omega
  rw [Bool.eq_false_iff, Ne, F32.le_iff_value_le hpwf hyf, not_le]
  omega

/-- A reverse wrap ends at or above the threshold: 1 + (PHASE + f) is at least 1 - 2·abs(f), and rounding keeps that order. -/
theorem reverseWrap_above_threshold : F32.le pw (F32.add (F32.add phase f) F32.one) = true := by
  obtain ⟨hpf, hp0, -⟩ := phaseOk_iff.1 hp
  obtain ⟨hff, hf0, hf1, -⟩ := hf.value_bounds
  obtain ⟨hxf, -, -, -⟩ := advance_bounds hp hf
  obtain ⟨haf, hav⟩ := F32.value_two_mul_abs hf.le_kMax
  obtain ⟨-, -, -, hhigh⟩ := pulseWidth_bounds hf.le_kMax hlo hhi
  have hge : F32.value f ≤ F32.value (F32.add phase f) :=
    (F32.le_iff_value_le hff hxf).1 (F32.le_add_of_value_le hpf hff hff (by omega))
  have habs := neg_abs_le (F32.value f)
  have hnonneg := abs_nonneg (F32.value f)
  obtain ⟨hsub, hsubkey⟩ := F32.key_sub F32.isFinite_one haf
  obtain ⟨hadd, haddkey⟩ := F32.key_add hxf F32.isFinite_one
  refine F32.le_trans' hhigh ((F32.le_iff _ _).2 ⟨hsub, hadd, ?_⟩)
  rw [hsubkey, haddkey, hav]
  exact F32.roundedKey_mono (by omega)

end

/-- The side a step leaves in EDGE_STATE is the side of the phase it leaves. -/
theorem wrapPulse_edge_side (kid : BitVec 8) (fam : Family) {tz : Bool} {f pw : Word} {v : Voice} (hp : phaseOk v.phase)
    (hf : inClampF tz f) (hlo : F32.le (pwLow f) pw = true) (hhi : F32.le pw (pwHigh f) = true) :
    (wrapPulse kid fam tz f (edge kid fam f pw (advance f v))).edgeState =
      sideOf (wrapPulse kid fam tz f (edge kid fam f pw (advance f v))).phase pw := by
  rw [wrapPulse_edgeState, wrapPulse_phase]
  simp only [wrapsForward, wrapsBackward, edge_phase, edge_edgeState, advance_phase]
  split
  next hge => rw [sideOf, forwardWrap_below_threshold hp hf hlo hhi hge]; rfl
  next =>
    split
    next => rw [sideOf, reverseWrap_above_threshold hp hf hlo hhi]; rfl
    next => rfl

theorem sideOf_eq_high_iff {phase pw : Word} : sideOf phase pw = .high ↔ F32.le pw phase = true := by
  simp [sideOf]

end Sys2Proof.Machine

namespace Sys2Proof.Proofs

open Sys2Proof Sys2Proof.Machine Sys2Proof.Safety

/-- Settles O48: the edge sets the side of the advanced phase, and a wrap that crosses the threshold again sets the side it lands
on. -/
theorem edgeStateTracksTheThreshold : Obligations.EdgeStateTracksTheThreshold := by
  unfold Obligations.EdgeStateTracksTheThreshold
  intro kid fam tz f pw v hphase hf0 hf1 hlo hhi w
  have hf : inClampF tz f := ⟨hf0, hf1⟩
  have hhigh : w.edgeState = .high ↔ F32.le pw w.phase = true := by
    rw [wrapPulse_edge_side kid fam hphase hf hlo hhi]
    exact sideOf_eq_high_iff
  have hwrapped : w.phase = wrappedPhase tz (F32.add v.phase f) := by
    rw [wrapPulse_phase_eq, edge_phase, advance_phase]
  refine ⟨hhigh, ?_, ?_⟩
  · rw [squareNaive_eq]
    exact if_congr hhigh rfl rfl
  · rw [hwrapped]
    exact (wrappedPhase_ok hphase hf).1

end Sys2Proof.Proofs
end

section
/-! PROOF. NOP, INIT and KEVAL as equations (43_control.md R190 to R192), and the default kernel at the ends of [0, 1]
(41_phase_and_corrections.md R144). -/

namespace Sys2Proof.Machine

open Sys2Proof

/-- A state with the four kernel functions at `t` in its result registers. -/
def State.withKernelAt (t : Word) (s : State) : State :=
  { s with
    kernelBThis := kernel s.params.kernelId .bThis t
    kernelBNext := kernel s.params.kernelId .bNext t
    kernelIThis := kernel s.params.kernelId .iThis t
    kernelINext := kernel s.params.kernelId .iNext t }

theorem exec_nop (s : State) : exec .nop s = .next s := rfl

/-- The eight values of INIT are those of a reset (43_control.md R191, 70_reset_and_hazards.md R230). -/
theorem exec_init (s : State) : exec .init s = .next { s with osc := State.reset.osc } := rfl

theorem exec_keval (s : State) : exec .keval s = .next (s.withKernelAt (sat01 s.kernelT)) := rfl

theorem kernel_of_fitted {kid : BitVec 8} (h : kid ≠ 0#8) (fn : KernelFn) (t : Word) :
    kernel kid fn t = Config.fittedKernel kid fn t :=
  if_neg h

theorem withKernelAt_of_default {s : State} (h : s.params.kernelId = 0#8) (t : Word) :
    s.withKernelAt t =
      { s with
        kernelBThis := defaultBThis t, kernelBNext := defaultBNext t
        kernelIThis := defaultIThis t, kernelINext := defaultINext t } := by
  simp only [State.withKernelAt, kernel_of_default h, defaultKernel]

theorem defaultKernel_at_zero :
    defaultBThis F32.zero = 0x00000000#32 ∧ defaultBNext F32.zero = 0xBF000000#32 ∧
      defaultIThis F32.zero = 0x00000000#32 ∧ defaultINext F32.zero = 0x3E2AAAAB#32 := by decide

theorem defaultKernel_at_one :
    defaultBThis F32.one = 0x3F000000#32 ∧ defaultBNext F32.one = 0x80000000#32 ∧
      defaultIThis F32.one = 0x3E2AAAAB#32 ∧ defaultINext F32.one = 0x00000000#32 := by decide

end Sys2Proof.Machine

namespace Sys2Proof.Proofs

open Sys2Proof Sys2Proof.Machine Sys2Proof.Safety

/-- Settles O18: SAT01 answers +0.0, 1.0 or the operand, and at the two ends the default kernel has its boundary values. -/
theorem kevalSaturatesItsOperand : Obligations.KevalSaturatesItsOperand := by
  unfold Obligations.KevalSaturatesItsOperand
  intro s hid
  rw [exec_keval]
  refine ⟨fun h => ?_, fun h => ?_, fun h0 h1 => ?_⟩
  · obtain ⟨hbt, hbn, hit, hin⟩ := defaultKernel_at_zero
    rw [h.elim sat01_of_isNaN sat01_of_lt_zero, withKernelAt_of_default hid, hbt, hbn, hit, hin]
  · obtain ⟨hbt, hbn, hit, hin⟩ := defaultKernel_at_one
    rw [sat01_of_one_lt h, withKernelAt_of_default hid, hbt, hbn, hit, hin]
  · rw [sat01_of_between h0 h1, withKernelAt_of_default hid]
    rfl

/-- Settles O14, by the equation of NOP. -/
theorem nopChangesNothing : Obligations.NopChangesNothing := by
  unfold Obligations.NopChangesNothing
  exact exec_nop

/-- Settles O15: INIT puts the oscillator of a reset in place of the state's own. -/
theorem initRestoresTheOscillatorOnly : Obligations.InitRestoresTheOscillatorOnly := by
  unfold Obligations.InitRestoresTheOscillatorOnly
  intro s
  exact ⟨_, exec_init s, rfl, rfl, rfl, rfl, rfl, rfl, rfl, rfl, rfl, ⟨rfl, rfl, rfl, rfl, rfl, rfl⟩, ⟨rfl, rfl, rfl, rfl⟩,
    ⟨rfl, rfl⟩, rfl⟩

/-- Settles O16: with KERNEL_ID = 0 the four functions are those of R140 to R143. -/
theorem kevalWritesTheFourKernelValues : Obligations.KevalWritesTheFourKernelValues := by
  unfold Obligations.KevalWritesTheFourKernelValues
  intro s hid x u
  refine ⟨_, exec_keval s, ?_⟩
  rw [withKernelAt_of_default hid]
  exact ⟨rfl, rfl, rfl, rfl, rfl, ⟨rfl, rfl, rfl, rfl, rfl, rfl⟩, ⟨rfl, rfl⟩, rfl⟩

/-- Settles O17: with another KERNEL_ID each function is the implementation's own. -/
theorem kevalUsesTheFittedKernel : Obligations.KevalUsesTheFittedKernel := by
  unfold Obligations.KevalUsesTheFittedKernel
  intro s hid
  have hfitted : ∀ fn, kernel s.params.kernelId fn (sat01 s.kernelT) =
      Config.fittedKernel s.params.kernelId fn (sat01 s.kernelT) := fun fn => kernel_of_fitted hid fn _
  exact ⟨_, exec_keval s, hfitted .bThis, hfitted .bNext, hfitted .iThis, hfitted .iNext, rfl,
    ⟨rfl, rfl, rfl, rfl, rfl, rfl⟩, ⟨rfl, rfl⟩, rfl⟩

end Sys2Proof.Proofs
end

section
/-! PROOF. What RENDER takes from the state: the parameters, the targets, the oscillator and the buffers, so that after INIT
nothing is left of the oscillator's past (43_control.md R191). -/

namespace Sys2Proof.Machine

open Sys2Proof

/-- States that agree in everything RENDER reads (40_render.md R100). -/
def sameRenderInputs (s s' : State) : Prop :=
  s'.params = s.params ∧ s'.targetFreq = s.targetFreq ∧ s'.targetPw = s.targetPw ∧ s'.osc = s.osc ∧ s'.mem = s.mem

section
variable {s s' : State} (hin : sameRenderInputs s s')
include hin

theorem checkRender_congr (tz fm : Bool) (size : Nat) : checkRender tz fm size s' = checkRender tz fm size s := by
  obtain ⟨hparams, hfreq, hpw, -, hmem⟩ := hin
  unfold checkRender targetIsNaN targetsInRange
  rw [hparams, hfreq, hpw, hmem]

theorem renderBlock_congr (shape : Shape) (tz : Bool) (f p : Word) (es : List (Option Word)) :
    (renderBlock shape tz f p es s').osc = (renderBlock shape tz f p es s).osc ∧
      (renderBlock shape tz f p es s').mem = (renderBlock shape tz f p es s).mem := by
  obtain ⟨hparams, -, -, hosc, hmem⟩ := hin
  simp only [renderBlock_osc, renderBlock_mem, hparams, hosc, hmem, and_self]

/-- RENDER ends alike on such states, with the same oscillator and the same buffers. -/
theorem render_congr {shape : Shape} {tz fm : Bool} {size : Nat} {t : State} (h : render shape tz fm size s = .next t) :
    ∃ t', render shape tz fm size s' = .next t' ∧ t'.osc = t.osc ∧ t'.mem = t.mem := by
  have hcheck := checkRender_congr hin tz fm size
  have hblock := renderBlock_congr hin shape tz
  obtain ⟨-, -, -, hosc, hmem⟩ := hin
  unfold render at h ⊢
  rw [hcheck]
  split at h
  case h_1 | h_2 =>
    obtain rfl := Host.Outcome.next.inj h
    exact ⟨_, rfl, hosc, hmem⟩
  case h_3 => simp at h
  case h_4 f p es _ =>
    obtain rfl := Host.Outcome.next.inj h
    exact ⟨_, rfl, hblock f p es⟩

end

end Sys2Proof.Machine

namespace Sys2Proof.Proofs

open Sys2Proof Sys2Proof.Machine Sys2Proof.Safety

/-- Settles O33: over the other machine's buffers the first stores the same samples, and then the two machines agree in all that
RENDER reads. -/
theorem initThenRenderForgetsThePast : Obligations.InitThenRenderForgetsThePast := by
  unfold Obligations.InitThenRenderForgetsThePast
  intro shape tz fm size s s' a a' t hparams hfreq hpw hfm ha ha' h
  obtain rfl := Host.Outcome.next.inj ((exec_init s).symm.trans ha)
  obtain rfl := Host.Outcome.next.inj ((exec_init s').symm.trans ha')
  rw [exec_renderOf] at h ⊢
  obtain ⟨ys, -, hlen, hmem, hother⟩ := render_stores h
  have hrender := hother s'.mem (checkRender_withMem tz fun _ => hfm)
  have hin : sameRenderInputs { s with osc := State.reset.osc, mem := s'.mem } { s' with osc := State.reset.osc } :=
    ⟨hparams, hfreq, hpw, rfl, rfl⟩
  obtain ⟨t', ht', hosc, hmem'⟩ := render_congr hin hrender
  refine ⟨t', ht', hosc, fun hacc n hn => ?_⟩
  have hn' : n < ys.length := (hlen hacc).symm ▸ hn
  rw [hmem', hmem, readWord_writeOut_zero _ hn', readWord_writeOut_zero _ hn']

end Sys2Proof.Proofs
end

section
/-! PROOF. What each command writes (43_control.md R194). -/

namespace Sys2Proof.Machine

open Sys2Proof Sys2Proof.Safety

/-- A RENDER of some shape (40_render.md R100). -/
def isRender (i : Instr) : Prop := ∃ shape tz fm size, i = renderOf shape tz fm size

theorem isRender_not_control {i : Instr} (h : isRender i) : ¬ (i = .nop ∨ i = .init ∨ i = .keval) := by
  obtain ⟨shape, tz, fm, size, rfl⟩ := h
  cases shape <;> simp [renderOf]

/-- What a command that answers a next state has done, command by command. -/
inductive CommandEffect (s : State) : Instr → State → Prop
  | nop : CommandEffect s .nop s
  | init : CommandEffect s .init { s with osc := State.reset.osc }
  | keval : CommandEffect s .keval (s.withKernelAt (sat01 s.kernelT))
  /-- A RENDER of no samples. -/
  | empty {i} : isRender i → CommandEffect s i s
  /-- A RENDER that the checks reject. -/
  | rejected {i} (c : RejectCode) : isRender i → CommandEffect s i (reject c s)
  /-- An accepted RENDER. -/
  | block {i} (shape : Shape) (tz : Bool) (f p : Word) (es : List (Option Word)) : isRender i →
      CommandEffect s i (renderBlock shape tz f p es s)

/-- Every command that answers a next state has one of the effects of `CommandEffect`. -/
theorem exec_effect {i : Instr} {s t : State} (h : exec i s = .next t) : CommandEffect s i t := by
  rcases Instr.cases_renderOf i with rfl | rfl | rfl | ⟨shape, tz, fm, size, hi⟩
  · obtain rfl := Host.Outcome.next.inj ((exec_nop s).symm.trans h)
    exact .nop
  · obtain rfl := Host.Outcome.next.inj ((exec_init s).symm.trans h)
    exact .init
  · obtain rfl := Host.Outcome.next.inj ((exec_keval s).symm.trans h)
    exact .keval
  · have hrender : isRender i := ⟨shape, tz, fm, size, hi⟩
    rw [hi, exec_renderOf] at h
    rcases render_next h with rfl | ⟨c, rfl⟩ | ⟨f, p, es, -, rfl⟩
    · exact .empty hrender
    · exact .rejected c hrender
    · exact .block shape tz f p es hrender

section
variable {i : Instr} {s t : State} (h : exec i s = .next t)
include h

theorem exec_sameSettings : sameSettings s t := by
  cases exec_effect h <;> exact ⟨rfl, rfl, rfl, rfl, rfl, rfl⟩

/-- Only an accepted RENDER stores to the buffers, and it stores to OUT_BUF, from window offset 0x2000 (20_memory.md R56). -/
theorem exec_byteAt_below_outBuf {a : Nat} (ha : a < 0x2000) : t.mem.byteAt a = s.mem.byteAt a := by
  cases exec_effect h with
  | block => exact byteAt_writeOut_of_outside s.mem _ (.inl ha)
  | _ => rfl

theorem exec_sameKernelResults (hi : i ≠ .keval) : sameKernelResults s t := by
  cases exec_effect h with
  | keval => exact absurd rfl hi
  | _ => exact ⟨rfl, rfl, rfl, rfl⟩

theorem exec_control_keeps_mem_and_status (hi : i = .nop ∨ i = .init ∨ i = .keval) : t.mem = s.mem ∧ sameStatus s t := by
  cases exec_effect h with
  | nop | init | keval => exact ⟨rfl, rfl, rfl⟩
  | empty hrender | rejected _ hrender | block _ _ _ _ _ hrender => exact absurd hi (isRender_not_control hrender)

theorem exec_keeps_osc (hi : i = .nop ∨ i = .keval) : t.osc = s.osc := by
  cases exec_effect h with
  | init => simp at hi
  | block _ _ _ _ _ hrender => exact absurd (hi.imp_right .inr) (isRender_not_control hrender)
  | _ => rfl

theorem exec_sameStatus_or_rejected : sameStatus s t ∨ ∃ c, t = rejectedWith (errCodeOf c) s :=
  or_iff_not_imp_left.2 (exec_status h)

end

/-- A register keeps its value but for the host's write to it, at its window offset, and a reset. -/
abbrev registerSetByHostOnly (reg : State → Word) (off : Nat) (s t : State) : Prop :=
  reg t = reg s ∨ (∃ w rest, s.host = .write (s.params.base + off) 32 w :: rest ∧ reg t = w) ∨
    ∃ rest, s.host = .reset :: rest

/-- A byte of the buffers keeps its value but for the host's write to its word, and a reset. -/
abbrev byteSetByHostOnly (a : Nat) (s t : State) : Prop :=
  t.mem.byteAt a = s.mem.byteAt a ∨
    (∃ off w rest, s.host = .write (s.params.base + off) 32 w :: rest ∧ off ≤ a ∧ a < off + 4) ∨
    ∃ rest, s.host = .reset :: rest

/-- The configuration registers and FM_BUF, which lies below OUT_BUF, are the host's (43_control.md R194). -/
theorem step_configuration {s t : State} (h : step s = .next t) :
    registerSetByHostOnly State.targetFreq 0x010 s t ∧ registerSetByHostOnly State.targetPw 0x014 s t ∧
      registerSetByHostOnly State.kernelT 0x018 s t ∧ ∀ a, a < 0x2000 → byteSetByHostOnly a s t := by
  cases step_effect h with
  | @reset rest hs =>
    have hreset : ∃ rest, s.host = .reset :: rest := ⟨rest, hs⟩
    exact ⟨.inr (.inr hreset), .inr (.inr hreset), .inr (.inr hreset), fun _ _ => .inr (.inr hreset)⟩
  | command _ _ hexec =>
    obtain ⟨-, hfreq, hpw, hkernelT, -, -⟩ := exec_sameSettings hexec
    exact ⟨.inl hfreq, .inl hpw, .inl hkernelT, fun _ ha => .inl (exec_byteAt_below_outBuf hexec ha)⟩
  | status =>
    exact ⟨.inl (writeStatus_targetFreq ..), .inl (writeStatus_targetPw ..), .inl (writeStatus_kernelT ..),
      fun _ _ => .inl (by rw [writeStatus_mem]; rfl)⟩
  | targetFreq hs => exact ⟨.inr (.inl ⟨_, _, hs, rfl⟩), .inl rfl, .inl rfl, fun _ _ => .inl rfl⟩
  | targetPw hs => exact ⟨.inl rfl, .inr (.inl ⟨_, _, hs, rfl⟩), .inl rfl, fun _ _ => .inl rfl⟩
  | kernelT hs => exact ⟨.inl rfl, .inl rfl, .inr (.inl ⟨_, _, hs, rfl⟩), fun _ _ => .inl rfl⟩
  | @fmBuf off _ w rest hs _ =>
    refine ⟨.inl rfl, .inl rfl, .inl rfl, fun a _ => ?_⟩
    by_cases hin : off ≤ a ∧ a < off + 4
    · exact .inr (.inl ⟨off, w, rest, hs, hin⟩)
    · exact .inl (byteAt_writeWord_of_outside s.mem w (by omega))
  | _ => exact ⟨.inl rfl, .inl rfl, .inl rfl, fun _ _ => .inl rfl⟩

end Sys2Proof.Machine

namespace Sys2Proof.Proofs

open Sys2Proof Sys2Proof.Machine Sys2Proof.Safety

/-- Settles O34: the frame of each command (`exec_effect`), and of each step (`step_configuration`). -/
theorem eachCommandWritesOnlyItsOwnState : Obligations.EachCommandWritesOnlyItsOwnState := by
  unfold Obligations.EachCommandWritesOnlyItsOwnState
  refine ⟨fun i s t h => ?_, fun s t h => ?_⟩
  · exact ⟨exec_sameSettings h, fun _ ha => exec_byteAt_below_outBuf h ha, exec_sameKernelResults h,
      exec_control_keeps_mem_and_status h, exec_keeps_osc h, exec_sameStatus_or_rejected h⟩
  · obtain ⟨hfreq, hpw, hkernelT, hbytes⟩ := step_configuration h
    exact ⟨hfreq, hpw, hkernelT, fun a _ ha => hbytes a ha⟩

end Sys2Proof.Proofs
end

section
/-! PROOF. Where an access of the window goes (20_memory.md R50 to R52). -/

namespace Sys2Proof.Machine

open Sys2Proof Sys2Proof.Safety

theorem mem_registerOffsets_iff {off : Nat} : off ∈ registerOffsets ↔ ∃ r, (off, r) ∈ regTable := by
  rw [show registerOffsets = regTable.map Prod.fst from rfl]
  simp

theorem lookup_regTable_eq_none {off : Nat} (h : off ∉ registerOffsets) : regTable.lookup off = none := by
  rw [mem_registerOffsets_iff, not_exists] at h
  refine List.lookup_eq_none_iff.2 fun e he => bne_iff_ne.2 ?_
  rintro rfl
  exact h e.2 he

/-- The readings of an offset (20_memory.md R50, R52): nothing, a row of the register table, a word of FM_BUF or of OUT_BUF. -/
theorem locate_cases (p : Params) (off : Nat) :
    (locate p off = none ∧ (off % 4 ≠ 0 ∨ ¬ mapped p off)) ∨
      (∃ r, locate p off = some (.reg r) ∧ (off, r) ∈ regTable) ∨
      (∃ n, locate p off = some (.fmBuf n) ∧ off % 4 = 0 ∧ 0x1000 ≤ off ∧ off < 0x1000 + 4 * p.maxBlockSize) ∨
      (∃ n, locate p off = some (.outBuf n) ∧ off % 4 = 0 ∧ 0x2000 ≤ off ∧ off < 0x2000 + 4 * p.maxBlockSize) := by
  by_cases hreg : off ∈ registerOffsets
  · obtain ⟨r, hr⟩ := mem_registerOffsets_iff.1 hreg
    exact .inr (.inl ⟨r, locate_of_mem_regTable hr p, hr⟩)
  unfold locate mapped
  split
  · exact .inl ⟨rfl, .inl ‹_›⟩
  split
  · rw [lookup_regTable_eq_none hreg]
    exact .inl ⟨rfl, .inr (by simp only [hreg, false_or]; omega)⟩
  split
  · exact .inr (.inr (.inl ⟨_, rfl, by omega⟩))
  split
  · exact .inr (.inr (.inr ⟨_, rfl, by omega⟩))
  · exact .inl ⟨rfl, .inr (by simp only [hreg, false_or]; omega)⟩

/-- `legal(a)` of 20_memory.md R50 fails for a misaligned or an unmapped offset. -/
theorem locate_eq_none_iff {p : Params} {off : Nat} : locate p off = none ↔ off % 4 ≠ 0 ∨ ¬ mapped p off := by
  rcases locate_cases p off with ⟨h, hbad⟩ | ⟨r, h, hr⟩ | ⟨n, h, halign, hin⟩ | ⟨n, h, halign, hin⟩
  · exact iff_of_true h hbad
  · obtain ⟨halign, -, -⟩ := regTable_lookup _ hr
    have hmapped : mapped p off := .inl (mem_registerOffsets_iff.2 ⟨r, hr⟩)
    simp [h, halign, hmapped]
  · have hmapped : mapped p off := .inr (.inl hin)
    simp [h, halign, hmapped]
  · have hmapped : mapped p off := .inr (.inr hin)
    simp [h, halign, hmapped]

theorem bufferWord_of_locate_outBuf {p : Params} {off n : Nat} (h : locate p off = some (.outBuf n)) : bufferWord p off := by
  rcases locate_cases p off with ⟨h', -⟩ | ⟨r, h', -⟩ | ⟨n', h', -⟩ | ⟨n', -, halign, hin⟩
  · simp [h'] at h
  · simp [h'] at h
  · simp [h'] at h
  · exact ⟨halign, .inr hin⟩

end Sys2Proof.Machine
end

section
/-! PROOF. No step refuses, and a fault is a read of an unwritten buffer word (60_exceptions.md R216). -/

namespace Sys2Proof.Machine

open Sys2Proof Sys2Proof.Safety

/-- An outcome from the state `s` that is a next state, or the model fault of a buffer word that is unwritten in `s`. -/
def nextOrUnwritten (s : State) (o : Host.Outcome State Fault Refusal) : Prop :=
  (∃ t, o = .next t) ∨
    ∃ off, o = .fault (.readUnwritten off) ∧ s.mem.readWord off = none ∧ bufferWord s.params off

theorem nextOrUnwritten.ne_refused {s : State} {o : Host.Outcome State Fault Refusal} (h : nextOrUnwritten s o)
    (r : Refusal) : o ≠ .refused r := by
  rcases h with ⟨t, rfl⟩ | ⟨off, rfl, -⟩ <;> simp

theorem render_nextOrUnwritten (shape : Shape) (tz fm : Bool) (size : Nat) (s : State) :
    nextOrUnwritten s (render shape tz fm size s) := by
  cases h : render shape tz fm size s with
  | next t => exact .inl ⟨t, rfl⟩
  | fault x =>
    obtain ⟨j, hj, hmax, rfl, hnone⟩ := render_fault h
    exact .inr ⟨fmOffset j, rfl, hnone, bufferWord_of_locate_fmBuf (locate_fmBuf (by omega))⟩
  | refused r => exact absurd h (render_ne_refused shape tz fm size s r)

theorem exec_nextOrUnwritten (i : Instr) (s : State) : nextOrUnwritten s (exec i s) := by
  rcases Instr.cases_renderOf i with rfl | rfl | rfl | ⟨shape, tz, fm, size, rfl⟩
  · exact .inl ⟨_, exec_nop s⟩
  · exact .inl ⟨_, exec_init s⟩
  · exact .inl ⟨_, exec_keval s⟩
  · rw [exec_renderOf]
    exact render_nextOrUnwritten shape tz fm size s

theorem busRead_nextOrUnwritten (off width : Nat) (s : State) : nextOrUnwritten s (busRead off width s) := by
  rcases busRead_cases off width s with ⟨r, h⟩ | ⟨h, hnone, n, hloc⟩
  · exact .inl ⟨_, h⟩
  · exact .inr ⟨off, h, hnone, hloc.elim bufferWord_of_locate_fmBuf bufferWord_of_locate_outBuf⟩

/-- Of the writes only a command can fault. -/
theorem busWrite_nextOrUnwritten (off width : Nat) (w : Word) (s : State) : nextOrUnwritten s (busWrite off width w s) := by
  rcases busWrite_cases off width w s with h | h | h | h | h | h | ⟨n, -, h⟩
  case inr.inl =>
    rcases command_cases w (respond .writeDone s) with ⟨i, -, hi⟩ | ⟨x, -, hx⟩
    · rw [h, hi]
      exact exec_nextOrUnwritten i (respond .writeDone s)
    · exact .inl ⟨_, h.trans hx⟩
  all_goals exact .inl ⟨_, h⟩

theorem step_nextOrUnwritten (s : State) : nextOrUnwritten s (step s) := by
  cases hq : s.host with
  | nil => exact .inl ⟨s, step_idle hq⟩
  | cons q rest =>
    rw [step_serve hq]
    cases q with
    | reset => exact .inl ⟨_, rfl⟩
    | read addr width =>
      rw [serve]
      split
      · exact .inl ⟨_, rfl⟩
      next off _ => exact busRead_nextOrUnwritten off width { s with host := rest }
    | write addr width w =>
      rw [serve]
      split
      · exact .inl ⟨_, rfl⟩
      next off _ => exact busWrite_nextOrUnwritten off width w { s with host := rest }

theorem busRead_of_unwritten {off n : Nat} {s : State}
    (hloc : locate s.params off = some (.fmBuf n) ∨ locate s.params off = some (.outBuf n))
    (h : s.mem.readWord off = none) : busRead off 32 s = .fault (.readUnwritten off) := by
  rcases hloc with hloc | hloc <;> simp [busRead, readBuffer, hloc, h]

end Sys2Proof.Machine

namespace Sys2Proof.Proofs

open Sys2Proof Sys2Proof.Machine Sys2Proof.Safety

/-- Settles O8: every step ends in a next state or in that fault (`step_nextOrUnwritten`), and a host read of an unwritten word
of either buffer raises it. -/
theorem theOnlyFaultIsReadUnwritten : Obligations.TheOnlyFaultIsReadUnwritten := by
  unfold Obligations.TheOnlyFaultIsReadUnwritten
  refine ⟨fun s r => (step_nextOrUnwritten s).ne_refused r, fun s x hx => ?_, fun s n rest hp hn => ?_⟩
  · rcases step_nextOrUnwritten s with ⟨t, ht⟩ | ⟨off, hoff, hnone, -, hin⟩
    · exact nomatch ht.symm.trans hx
    · exact ⟨off, Host.Outcome.fault.inj (hx.symm.trans hoff), hnone, hin⟩
  · have hmax := maxBlockSize_le hp
    refine ⟨fun hs hnone => ?_, fun hs hnone => ?_⟩
    · exact (step_read hs (by omega)).trans (busRead_of_unwritten (.inl (locate_fmBuf hn)) hnone)
    · exact (step_read hs (by omega)).trans (busRead_of_unwritten (.inr (locate_outBuf hp hn)) hnone)

end Sys2Proof.Proofs
end

section
/-! PROOF. No command reads STATUS (60_exceptions.md R212). -/

namespace Sys2Proof.Machine

open Sys2Proof Sys2Proof.Safety

/-- A state with another STATUS. -/
def State.withStatus (e : Bool) (c : BitVec 4) (s : State) : State := { s with err := e, errCode := c }

/-- How a command ends on `s` (the outcome `o`) and on `s` with another STATUS (the outcome `o'`): it keeps STATUS and changes
the rest alike, it rejects with one code and so with one end state, or it faults alike. -/
inductive EndsAlike (e : Bool) (c : BitVec 4) (s : State) : (o o' : Host.Outcome State Fault Refusal) → Prop
  | kept {t} : sameStatus s t → EndsAlike e c s (.next t) (.next (t.withStatus e c))
  | rejected (code : RejectCode) : EndsAlike e c s (.next (reject code s)) (.next (reject code s))
  | faulted (x : Fault) : EndsAlike e c s (.fault x) (.fault x)

/-- The checks of RENDER see nothing of STATUS, and neither does the block it renders. -/
theorem render_endsAlike (e : Bool) (c : BitVec 4) (shape : Shape) (tz fm : Bool) (size : Nat) (s : State) :
    EndsAlike e c s (render shape tz fm size s) (render shape tz fm size (s.withStatus e c)) := by
  have hcheck : checkRender tz fm size (s.withStatus e c) = checkRender tz fm size s := rfl
  unfold render
  rw [hcheck]
  cases checkRender tz fm size s with
  | nothing => exact .kept ⟨rfl, rfl⟩
  | rejected code => exact .rejected code
  | unwritten off => exact .faulted (.readUnwritten off)
  | accepted f p es => exact .kept (t := renderBlock shape tz f p es s) ⟨rfl, rfl⟩

theorem exec_endsAlike (e : Bool) (c : BitVec 4) (i : Instr) (s : State) :
    EndsAlike e c s (exec i s) (exec i (s.withStatus e c)) := by
  rcases Instr.cases_renderOf i with rfl | rfl | rfl | ⟨shape, tz, fm, size, rfl⟩
  · exact .kept (t := s) ⟨rfl, rfl⟩
  · exact .kept (t := { s with osc := State.reset.osc }) ⟨rfl, rfl⟩
  · exact .kept (t := s.withKernelAt (sat01 s.kernelT)) ⟨rfl, rfl⟩
  · rw [exec_renderOf, exec_renderOf]
    exact render_endsAlike e c shape tz fm size s

end Sys2Proof.Machine

namespace Sys2Proof.Proofs

open Sys2Proof Sys2Proof.Machine Sys2Proof.Safety

/-- Settles O35: the three ways in which a command ends alike with another STATUS (`exec_endsAlike`). -/
theorem noCommandReadsTheErrorFlag : Obligations.NoCommandReadsTheErrorFlag := by
  unfold Obligations.NoCommandReadsTheErrorFlag
  intro i s e c
  rw [show { s with err := e, errCode := c } = s.withStatus e c from rfl]
  have halike := exec_endsAlike e c i s
  refine ⟨fun t h => ?_, fun x h => ?_⟩
  · rw [h] at halike
    generalize exec i (s.withStatus e c) = o' at halike ⊢
    cases halike with
    | kept hst => exact .inl ⟨hst, rfl⟩
    | rejected => exact .inr rfl
  · rw [h] at halike
    generalize exec i (s.withStatus e c) = o' at halike ⊢
    cases halike with
    | faulted => rfl

end Sys2Proof.Proofs
end

section
/-! PROOF. The four causes of a bus error (60_exceptions.md R213). -/

namespace Sys2Proof.Machine

open Sys2Proof Sys2Proof.Safety

/-- The registers a write to which is cause 4 of 60_exceptions.md R213. -/
def Reg.isReadOnly : Reg → Bool
  | .cmd | .status | .targetFreq | .targetPw | .kernelT => false
  | _ => true

/-- The rows of the register table with a read-only register are those of 60_exceptions.md R213. -/
theorem isReadOnly_iff : ∀ e ∈ regTable, e.2.isReadOnly = true ↔ e.1 ∈ readOnlyOffsets := by decide

theorem writeReg_of_isReadOnly {r : Reg} (h : r.isReadOnly = true) (w : Word) (s : State) : writeReg r w s = refuseWrite s := by
  cases r
  case cmd | status | targetFreq | targetPw | kernelT => cases h
  all_goals rfl

/-- A command keeps the answer of the write that carried it (20_memory.md R55). -/
theorem command_response {w : Word} {s t : State} (h : command w s = .next t) : t.response = s.response := by
  rcases command_cases w s with ⟨i, -, hi⟩ | ⟨x, -, hx⟩
  · obtain ⟨-, -, -, -, -, hresponse⟩ := exec_sameSettings (hi.symm.trans h)
    exact hresponse
  · obtain rfl := Host.Outcome.next.inj (hx.symm.trans h)
    rfl

theorem writeReg_response {r : Reg} (hr : r.isReadOnly = false) {w : Word} {s t : State} (h : writeReg r w s = .next t) :
    t.response = some .writeDone := by
  cases r
  case cmd => exact command_response h
  case status | targetFreq | targetPw | kernelT =>
    obtain rfl := Host.Outcome.next.inj h
    simp
  all_goals cases hr

/-! Reads -/

theorem busRead_of_badAccess {off width : Nat} {s : State} (h : badAccess s.params off width) :
    busRead off width s = refuseRead s := by
  rcases h with hwidth | hnone
  · exact if_pos hwidth
  · simp [busRead, locate_eq_none_iff.2 hnone]

theorem busRead_buffer_response {off n : Nat} {s t : State}
    (hloc : locate s.params off = some (.fmBuf n) ∨ locate s.params off = some (.outBuf n))
    (h : busRead off 32 s = .next t) : ∃ v, t.response = some (.readData v) := by
  cases hw : s.mem.readWord off with
  | none => exact nomatch (busRead_of_unwritten hloc hw).symm.trans h
  | some w =>
    have hread := hloc.elim (busRead_fmBuf · hw) (busRead_outBuf · hw)
    obtain rfl := Host.Outcome.next.inj (hread.symm.trans h)
    exact ⟨w, rfl⟩

/-- A read that none of the causes meets answers data, unless it faults. -/
theorem busRead_response {off width : Nat} {s t : State} (hok : ¬ badAccess s.params off width)
    (h : busRead off width s = .next t) : ∃ v, t.response = some (.readData v) := by
  obtain ⟨hwidth, hlegal⟩ := not_or.1 hok
  obtain rfl := not_not.1 hwidth
  rcases locate_cases s.params off with ⟨-, hbad⟩ | ⟨r, hloc, -⟩ | ⟨n, hloc, -⟩ | ⟨n, hloc, -⟩
  · exact absurd hbad hlegal
  · obtain rfl := Host.Outcome.next.inj ((busRead_reg hloc).symm.trans h)
    exact ⟨_, rfl⟩
  · exact busRead_buffer_response (.inl hloc) h
  · exact busRead_buffer_response (.inr hloc) h

/-! Writes -/

theorem busWrite_of_badAccess {off width : Nat} {s : State} (h : badAccess s.params off width) (w : Word) :
    busWrite off width w s = refuseWrite s := by
  rcases h with hwidth | hnone
  · exact if_pos hwidth
  · simp [busWrite, locate_eq_none_iff.2 hnone]

theorem busWrite_outBuf {off n : Nat} {s : State} (h : locate s.params off = some (.outBuf n)) (w : Word) :
    busWrite off 32 w s = refuseWrite s := by
  simp [busWrite, h]

theorem lt_of_mem_readOnlyOffsets : ∀ off ∈ readOnlyOffsets, off < 0x1000 := by decide

/-- A write is refused where one of the causes meets it, and otherwise completes, unless its command faults. -/
theorem busWrite_answer {s : State} (hp : s.params.wellFormed = true) (off width : Nat) (w : Word) :
    (badWrite s.params off width ∧ busWrite off width w s = refuseWrite s) ∨
      (¬ badWrite s.params off width ∧ ∀ t, busWrite off width w s = .next t → t.response = some .writeDone) := by
  by_cases hacc : badAccess s.params off width
  · exact .inl ⟨.inl hacc, busWrite_of_badAccess hacc w⟩
  obtain ⟨hwidth, hlegal⟩ := not_or.1 hacc
  obtain rfl := not_not.1 hwidth
  rw [badWrite, or_iff_right hacc]
  have hmax := maxBlockSize_le hp
  have hlow := lt_of_mem_readOnlyOffsets off
  rcases locate_cases s.params off with ⟨-, hbad⟩ | ⟨r, hloc, hrow⟩ | ⟨n, hloc, -, hfm⟩ | ⟨n, hloc, -, hout⟩
  · exact absurd hbad hlegal
  · obtain ⟨-, hreg, -⟩ := regTable_lookup _ hrow
    have hro := isReadOnly_iff _ hrow
    rw [busWrite_reg hloc]
    cases hr : r.isReadOnly with
    | true => exact .inl ⟨.inl (hro.1 hr), writeReg_of_isReadOnly hr w s⟩
    | false =>
      have hnot : off ∉ readOnlyOffsets := fun h => Bool.noConfusion (hr.symm.trans (hro.2 h))
      exact .inr ⟨not_or.2 ⟨hnot, by omega⟩, fun t h => writeReg_response hr h⟩
  · rw [busWrite_fmBuf hloc]
    have hnot : off ∉ readOnlyOffsets := fun h => absurd (hlow h) (by omega)
    exact .inr ⟨not_or.2 ⟨hnot, by omega⟩, fun t h => Host.Outcome.next.inj h ▸ rfl⟩
  · exact .inl ⟨.inr hout, busWrite_outBuf hloc w⟩

end Sys2Proof.Machine

namespace Sys2Proof.Proofs

open Sys2Proof Sys2Proof.Machine Sys2Proof.Safety

/-- Settles O38: where a cause meets the access it is refused before it is served; otherwise a read answers data and a write
completes. -/
theorem busErrorsAreExactlyTheFourCauses : Obligations.BusErrorsAreExactlyTheFourCauses := by
  unfold Obligations.BusErrorsAreExactlyTheFourCauses
  intro s off width rest hp hoff
  refine ⟨fun hs => ?_, fun w hs => ?_⟩
  · rw [step_read hs hoff]
    refine ⟨fun hbad => busRead_of_badAccess hbad, fun hok t h v hv => ?_⟩
    obtain ⟨d, hd⟩ := busRead_response (s := { s with host := rest }) hok h
    exact nomatch hd.symm.trans hv
  · rw [step_write hs hoff]
    rcases busWrite_answer (s := { s with host := rest }) hp off width w with ⟨hbad, hrefused⟩ | ⟨hok, hdone⟩
    · exact ⟨fun _ => hrefused, fun hok => absurd hbad hok⟩
    · exact ⟨fun hbad => absurd hbad hok, fun _ => hdone⟩

end Sys2Proof.Proofs
end

section
/-! PROOF. Waiting, foreign accesses and the reset (20_memory.md R50, R63, 70_reset_and_hazards.md R230 to R232). -/

namespace Sys2Proof.Machine

open Sys2Proof Sys2Proof.Safety

theorem windowOffset_of_outside {p : Params} {addr : Nat} (h : addr < p.base ∨ p.base + 0x4000 ≤ addr) :
    windowOffset p addr = none :=
  if_neg (by omega)

/-- The step that serves a reset (70_reset_and_hazards.md R231). -/
theorem step_reset {s : State} {rest : List BusRequest} (h : s.host = .reset :: rest) :
    step s = .next (applyReset { s with host := rest }) :=
  step_serve h

/-- A reset puts every piece of state at the value of 70_reset_and_hazards.md R230, whatever the state before it. -/
theorem applyReset_hasResetValues (s : State) : hasResetValues (applyReset s) :=
  ⟨rfl, rfl, rfl, rfl, rfl, rfl, rfl, rfl, rfl, rfl, rfl, rfl, rfl, rfl, rfl, rfl, rfl, fun _ => rfl, fun _ => rfl, rfl,
    capsWord_eq s.params⟩

/-- After reset the buffers are empty and STATUS is clear. -/
theorem resetWith_inv {p : Params} (h : p.wellFormed = true) : Inv (State.resetWith p) :=
  ⟨h, ⟨reset_mem_wf p, fun _ hc => absurd hc List.not_mem_nil⟩, fun _ => rfl, fun herr => Bool.noConfusion herr⟩

end Sys2Proof.Machine

namespace Sys2Proof.Proofs

open Sys2Proof Sys2Proof.Machine Sys2Proof.Safety

/-- Settles O7: an idle step, and an access whose address has no window offset. -/
theorem waitingAndForeignAccessesChangeNothing : Obligations.WaitingAndForeignAccessesChangeNothing := by
  unfold Obligations.WaitingAndForeignAccessesChangeNothing
  intro s
  refine ⟨step_idle, fun addr width rest hout => ?_⟩
  have hoff := windowOffset_of_outside hout
  exact ⟨fun h => by rw [step_serve h, serve, hoff], fun w h => by rw [step_serve h, serve, hoff]⟩

/-- Settles O9: State.reset is itself what a reset leaves. -/
theorem resetPutsEveryRegisterAtItsValue : Obligations.ResetPutsEveryRegisterAtItsValue := by
  unfold Obligations.ResetPutsEveryRegisterAtItsValue
  exact ⟨applyReset_hasResetValues State.reset, fun s rest h => ⟨_, step_reset h, applyReset_hasResetValues _⟩⟩

/-- Settles O10: a reset takes itself from the queue and keeps the rest of it. -/
theorem resetKeepsParametersAndQueue : Obligations.ResetKeepsParametersAndQueue := by
  unfold Obligations.ResetKeepsParametersAndQueue
  intro s rest h
  exact ⟨_, step_reset h, applyReset_params _, applyReset_host _, applyReset_response _⟩

/-- Settles O11: the default parameters are legal, and PHASE = 0.5 with both baselines in range. -/
theorem resetMeetsTheInvariants : Obligations.ResetMeetsTheInvariants := by
  unfold Obligations.ResetMeetsTheInvariants
  have hparams : Params.default.wellFormed = true := by decide
  exact ⟨resetWith_inv hparams, hparams, reset_osc_phaseInv⟩

end Sys2Proof.Proofs
end

section
/-! PROOF. The first sample after INIT or reset (70_reset_and_hazards.md R240): PENDING = +0.0 is emitted, since an edge of a
first step forward lies at its start, where BThis and IThis are zero (41_phase_and_corrections.md R136, R140, R142, R144). -/

namespace Sys2Proof.Machine.F32

open Sys2Proof Sys2Proof.Safety

/-! Zeros of either sign -/

theorem eq_zero_or_eq_neg_zero {a : Word} (h : value a = 0) : a = 0x00000000#32 ∨ a = 0x80000000#32 := by
  have hpack := pack_sign_mag a
  rw [value_eq_zero_iff.1 h] at hpack
  cases hs : sign a <;> rw [hs] at hpack
  · exact .inl hpack.symm
  · exact .inr hpack.symm

/-- A product of a finite word with a zero is a zero. -/
theorem value_mul_zero {a b : Word} (ha : isFinite a = true) (hb : value b = 0) : value (mul a b) = 0 := by
  have hfin : isFinite b = true := by rcases eq_zero_or_eq_neg_zero hb with rfl | rfl <;> decide
  rw [mul_of_value_zero ha hfin (.inr hb), value_eq_zero_iff, mag_pack _ (by decide)]

/-- A quotient of a word that is not positive by a positive word is not positive. -/
theorem div_le_zero {a b : Word} (ha : isFinite a = true) (hb : isFinite b = true) (ha0 : value a ≤ 0) (hb0 : 0 < value b) :
    le (div a b) zero = true := by
  refine (le_iff _ _).2 ⟨isNaN_div_of_finite ha hb hb0.ne', by decide, ?_⟩
  have hsb : sign b = false := by
    rw [value] at hb0
    exact Bool.eq_false_iff.2 fun hs => by rw [if_pos hs] at hb0; omega
  rw [div_of_finite ha hb hb0.ne', key_pack _ (roundMag_lt _ _), hsb, show key zero = 0 by decide]
  cases hsa : sign a with
  | true => simp
  | false =>
    have hunits : units a = 0 := by
      rw [value, hsa, if_neg Bool.false_ne_true] at ha0
      omega
    simp [hunits, roundMag_zero_left (units_pos hb0.ne')]

/-! A rounded result below overflow -/

/-- A rounded word is at most twice the exact result, since zero is no nearer to that. -/
theorem finite_and_abs_le_of_correctlyRounded {num : Int} {den : Nat} {r : Word} (h : correctlyRounded num den r)
    (hnum : |num| < (2 ^ 25 - 1) * 2 ^ 252 * den) : isFinite r = true ∧ |value r * den| ≤ 2 * |num| := by
  obtain ⟨hfin, hnearest⟩ := h.1 hnum
  obtain ⟨hzero, -⟩ := hnearest zero isFinite_zero
  rw [value_zero, zero_mul, zero_sub, abs_neg] at hzero
  have htriangle := abs_sub_abs_le_abs_sub (value r * den) num
  exact ⟨hfin, by omega⟩

theorem correctlyRounded_add {a b : Word} (ha : isFinite a = true) (hb : isFinite b = true) :
    correctlyRounded (value a + value b) 1 (add a b) :=
  correctlyRounded_sum _ ha hb

/-- The reciprocal of a word from 2^-20 up is at most 2^21. -/
theorem one_div_bound {d : Word} (hd : isFinite d = true) (h : 2 ^ 129 ≤ value d) :
    isFinite (div one d) = true ∧ |value (div one d)| ≤ 2 ^ 170 := by
  have hunits : (units d : Int) = value d := natCast_units (by omega)
  have hround := correctlyRounded_div isFinite_one hd (by omega)
  have hnum : |value one * 2 ^ 149 * (if sign d = true then -1 else 1)| = 2 ^ 149 * 2 ^ 149 := by
    rw [value_one]
    split <;> norm_num
  obtain ⟨hfin, hle⟩ := finite_and_abs_le_of_correctlyRounded hround (by rw [hnum, hunits]; omega)
  refine ⟨hfin, ?_⟩
  rw [hnum, hunits, abs_mul, abs_of_nonneg (a := value d) (by omega)] at hle
  have hmono := mul_le_mul_of_nonneg_left h (abs_nonneg (value (div one d)))
  omega

end Sys2Proof.Machine.F32

namespace Sys2Proof.Machine

open Sys2Proof Sys2Proof.Safety

/-! A correction at the start of a step -/

/-- SAT01 of a fraction that is not positive is a zero. -/
theorem value_sat01_of_le_zero {x : Word} (h : F32.le x F32.zero = true) : F32.value (sat01 x) = 0 := by
  rcases sat01_cases x with ⟨-, hx⟩ | ⟨-, hx⟩ | ⟨hone, -⟩ | ⟨h0, -, hx⟩
  · rw [hx, F32.value_zero]
  · rw [hx, F32.value_zero]
  · have hlt := F32.lt_of_lt_of_le' hone h
    exact absurd hlt (by decide)
  · obtain ⟨-, hlo, hhi⟩ := (F32.between_iff F32.isFinite_zero F32.isFinite_zero).1 ⟨h0, h⟩
    rw [hx]
    exact le_antisymm hhi hlo

/-- The fraction of an edge that a step forward has not reached is a zero (41_phase_and_corrections.md R136). -/
theorem value_edgeFraction_of_le {phase pw f : Word} (hphase : phaseOk phase) (hpw : phaseOk pw) (hf : F32.isFinite f = true)
    (hf0 : 0 < F32.value f) (h : F32.value phase ≤ F32.value pw) : F32.value (edgeFraction phase pw f) = 0 := by
  obtain ⟨hpf, hp0, -⟩ := phaseOk_iff.1 hphase
  obtain ⟨hwf, -, hw1⟩ := phaseOk_iff.1 hpw
  have hone : F32.value (F32.neg F32.one) = -2 ^ 149 := by rw [F32.value_neg, F32.value_one]
  obtain ⟨hfin, -, hle⟩ := F32.value_sub_between hpf hwf (lo := F32.neg F32.one) (by decide) F32.isFinite_zero
    (by omega) (by rw [F32.value_zero]; omega)
  exact value_sat01_of_le_zero (F32.div_le_zero hfin hf hle hf0)

/-- BThis and IThis start from zero (41_phase_and_corrections.md R144). -/
theorem kernel_this_at_zero {kid : BitVec 8} (hk : kid = 0#8) {t : Word} (ht : F32.value t = 0) :
    F32.value (kernel kid .bThis t) = 0 ∧ F32.value (kernel kid .iThis t) = 0 := by
  simp only [kernel_of_default hk, defaultKernel]
  rcases F32.eq_zero_or_eq_neg_zero ht with rfl | rfl <;> decide

theorem applyTurn_zero {c : Word} (h : Turn) (hc : F32.value c = 0) : applyTurn h F32.zero c = F32.zero := by
  rcases F32.eq_zero_or_eq_neg_zero hc with rfl | rfl <;> cases h <;> decide

section
variable {kid : BitVec 8} (hk : kid = 0#8) {fam : Family} (hm : ∀ m, fam = .slope m → F32.isFinite m = true) {v : Voice}
  (hthis : v.thisAcc = F32.zero)
include hk hm hthis

/-- A correction at the start of a step adds nothing to the sample that is emitted. -/
theorem correctEdge_thisAcc_zero {t : Word} (ht : F32.value t = 0) (side : Side) :
    (correctEdge kid fam side t v).thisAcc = F32.zero := by
  obtain ⟨hb, hi⟩ := kernel_this_at_zero hk ht
  have hblep : ∀ h, (blep kid h t v).thisAcc = F32.zero := fun h => by rw [blep_thisAcc, hthis, applyTurn_zero h hb]
  cases fam with
  | slope m => rw [correctEdge, iblep_thisAcc, hthis, applyTurn_zero _ (F32.value_mul_zero (hm m rfl) hi)]
  | square => cases side with
    | high => exact hblep .rise
    | low => exact hblep .fall

/-- From the HIGH side, EDGE of a step forward emits what the step found: either the phase is still HIGH, or it is below a
threshold that the frequency has moved past it. -/
theorem edge_thisAcc_of_high {f pw : Word} (hhigh : v.edgeState = .high) (hphase : phaseOk v.phase) (hpw : phaseOk pw)
    (hf : F32.isFinite f = true) (hf0 : 0 < F32.value f) : (edge kid fam f pw v).thisAcc = F32.zero := by
  by_cases hside : sideOf v.phase pw = v.edgeState
  · rw [edge_of_same_side kid fam f hside, hthis]
  · have hbelow : ¬ F32.le pw v.phase = true := by rwa [hhigh, sideOf_eq_high_iff] at hside
    rw [F32.le_iff_value_le (phaseOk_iff.1 hpw).1 (phaseOk_iff.1 hphase).1, not_le] at hbelow
    rw [edge_of_crossing kid fam f hside]
    exact correctEdge_thisAcc_zero hk hm hthis (value_edgeFraction_of_le hphase hpw hf hf0 hbelow.le) _

end

/-! The kink magnitude -/

/-- The pulse width of a step forward stays 2^-20 off both ends, since PW_FLOOR is above 2^-20 (40_render.md R106). -/
theorem pulseWidth_margins {f pw : Word} (hf : inClampF false f) (hlo : F32.le (pwLow f) pw = true)
    (hhi : F32.le pw (pwHigh f) = true) :
    F32.isFinite pw = true ∧ 2 ^ 129 ≤ F32.value pw ∧ F32.value pw ≤ 2 ^ 149 - 2 ^ 129 := by
  obtain ⟨hpwf, hfloor, -, hceil⟩ := pulseWidth_bounds hf.le_kMax hlo hhi
  obtain ⟨hff, -⟩ := hf.value_bounds
  have hmin : F32.le kMin (F32.abs f) = true := by
    rw [F32.le_iff_value_le (by decide) (by simpa using hff), F32.value_abs]
    exact ((F32.le_iff_value_le (by decide) hff).1 hf.1).trans (le_abs_self _)
  have hle := F32.le_trans' hceil (one_sub_le_one_sub_pwFloor (pwFloor_le_two_mul_abs hmin))
  exact ⟨hpwf, le_trans (by decide) hfloor, ((F32.le_iff_value_le hpwf (by decide)).1 hle).trans (by decide)⟩

/-- Away from both ends the two rates are at most 2^21, and so the kink magnitude does not overflow
(41_phase_and_corrections.md R139). -/
theorem kinkSize_isFinite {f pw : Word} (hf : F32.le (F32.abs f) kMax = true) (hpw : F32.isFinite pw = true)
    (hlo : 2 ^ 129 ≤ F32.value pw) (hhi : F32.value pw ≤ 2 ^ 149 - 2 ^ 129) : F32.isFinite (kinkSize f pw) = true := by
  obtain ⟨hff, hfk⟩ := (F32.le_abs_iff isFinite_kMax).1 hf
  rw [value_kMax] at hfk
  have hlow : F32.value 0x35800000#32 = 2 ^ 129 := by decide
  obtain ⟨hsf, hs0, -⟩ := F32.value_sub_between F32.isFinite_one hpw (lo := 0x35800000#32) (by decide) F32.isFinite_one
    (by rw [F32.value_one]; omega) (by omega)
  obtain ⟨hrise, hrise'⟩ : F32.isFinite (riseRate pw) = true ∧ |F32.value (riseRate pw)| ≤ 2 ^ 170 :=
    F32.one_div_bound hpw hlo
  obtain ⟨hfall, hfall'⟩ : F32.isFinite (fallRate pw) = true ∧ |F32.value (fallRate pw)| ≤ 2 ^ 170 :=
    F32.one_div_bound hsf (hlow ▸ hs0)
  have hexact := abs_add_le (F32.value (riseRate pw)) (F32.value (fallRate pw))
  obtain ⟨hsum, hsum'⟩ := F32.finite_and_abs_le_of_correctlyRounded (F32.correctlyRounded_add hrise hfall) (by omega)
  rw [Nat.cast_one, mul_one] at hsum'
  have hprod : |F32.value (F32.add (riseRate pw) (fallRate pw)) * F32.value (F32.abs f)| ≤ 2 ^ 172 * 2 ^ 147 := by
    rw [abs_mul, F32.value_abs, abs_abs]
    exact mul_le_mul (by omega) hfk (abs_nonneg _) (by decide)
  exact (F32.finite_and_abs_le_of_correctlyRounded (F32.correctlyRounded_mul hsum (by simpa using hff)) (by omega)).1

/-! The first step -/

/-- What INIT and reset leave to the first step: PHASE = 0.5 on the HIGH side, and PENDING = +0.0 (43_control.md R191,
70_reset_and_hazards.md R230). -/
def startsFresh (v : Voice) : Prop := v.phase = F32.half ∧ v.edgeState = .high ∧ v.nextAcc = F32.zero

/-- The advance from 0.5 stays off both ends. -/
theorem half_advance_bounds {tz : Bool} {f : Word} (hf : inClampF tz f) :
    phaseOk (F32.add F32.half f) ∧ F32.le F32.one (F32.add F32.half f) = false ∧
      F32.lt (F32.add F32.half f) F32.zero = false := by
  obtain ⟨hff, hf0, hf1, -⟩ := hf.value_bounds
  have hhi : F32.value 0x3F400000#32 = 2 ^ 148 + 2 ^ 147 := by decide
  have hbetween := F32.value_add_between F32.isFinite_half hff isFinite_kMax (hi := 0x3F400000#32) (by decide)
    (by rw [value_kMax, F32.value_half]; omega) (by rw [F32.value_half]; omega)
  obtain ⟨h0, h1⟩ := (F32.between_iff isFinite_kMax (by decide)).2 hbetween
  have h0' := F32.le_trans' (a := F32.zero) (by decide) h0
  refine ⟨⟨h0', F32.le_trans' h1 (by decide)⟩, Bool.eq_false_iff.2 fun hone => ?_, F32.lt_eq_false_of_le h0'⟩
  exact absurd (F32.le_trans' hone h1) (by decide)

theorem centred_zero : centred F32.zero = 0xBF800000#32 := by decide

section
variable {v : Voice} (hv : startsFresh v) (kid : BitVec 8) {tz : Bool} {f : Word}
include hv

/-- The first step of SAW does not wrap, in either direction. -/
theorem sawVoice_thisAcc_of_fresh (hf : inClampF tz f) : (sawVoice kid tz f (advance f (takePending v))).thisAcc = F32.zero := by
  obtain ⟨hphase, -, hnext⟩ := hv
  obtain ⟨-, hfwd, hbwd⟩ := half_advance_bounds hf
  have hnone : wrapSaw kid tz f (advance f (takePending v)) = advance f (takePending v) :=
    wrapSaw_of_none kid f (by simpa [wrapsForward, hphase] using hfwd)
      (wrapsBackward_eq_false (.inr (by simpa [hphase] using hbwd)))
  rw [sawVoice, hnone]
  simpa using hnext

/-- The first step forward of a pulse-width shape does not wrap, and its edge leaves the sample alone. -/
theorem wrapPulse_edge_thisAcc_of_fresh {kid : BitVec 8} (hk : kid = 0#8) {fam : Family}
    (hm : ∀ m, fam = .slope m → F32.isFinite m = true) {pw : Word} (hf : inClampF false f) (hpw : phaseOk pw) :
    (wrapPulse kid fam false f (edge kid fam f pw (advance f (takePending v)))).thisAcc = F32.zero := by
  obtain ⟨hphase, hhigh, hnext⟩ := hv
  obtain ⟨hok, hfwd, -⟩ := half_advance_bounds hf
  obtain ⟨hff, -⟩ := hf.value_bounds
  have hpos : 0 < F32.value f :=
    lt_of_lt_of_le (by decide) ((F32.le_iff_value_le (show F32.isFinite kMin = true by decide) hff).1 hf.1)
  rw [wrapPulse_of_none kid fam f (by simpa [wrapsForward, hphase] using hfwd) (wrapsBackward_eq_false (.inl rfl))]
  exact edge_thisAcc_of_high hk hm hnext hhigh (by simpa [hphase] using hok) hpw hff hpos

end

/-- The shapes whose first sample R240 gives for a first step forward. -/
def isUnfilteredPulse (shape : Shape) : Prop := shape = .triangle ∨ shape = .slope ∨ shape = .square

section
variable {v : Voice} (hv : startsFresh v) {kid : BitVec 8} {e : Option Word} {r : Ramp} (hfi : F32.isFinite r.fi = true)
  (he : ∀ x ∈ e, F32.isFinite x = true)
include hv hfi he

theorem sample_saw_of_fresh (tz : Bool) : (sample .saw kid tz e r v).2 = 0xBF800000#32 := by
  rw [← centred_zero, ← sawVoice_thisAcc_of_fresh hv kid (controlF_inClampF (tz := tz) hfi he)]
  rfl

theorem sample_unfilteredPulse_of_fresh (hk : kid = 0#8) {shape : Shape} (hshape : isUnfilteredPulse shape)
    (hpwi : F32.isFinite r.pwi = true) : (sample shape kid false e r v).2 = 0xBF800000#32 := by
  have hf : inClampF false (controlF false e r.fi) := controlF_inClampF hfi he
  obtain ⟨hlo, hhi, hpos, hlt⟩ := controlPw_range shape ((F32.isFinite_iff _).1 hpwi).1 hf.le_kMax
  have hpw : phaseOk (controlPw shape (controlF false e r.fi) r.pwi) := ⟨F32.le_of_lt' hpos, F32.le_of_lt' hlt⟩
  have hthis := fun fam hm => wrapPulse_edge_thisAcc_of_fresh hv (fam := fam) hk hm hf hpw
  obtain ⟨hpwf, hpw0, hpw1⟩ := pulseWidth_margins hf hlo hhi
  have hslope := hthis (.slope (kinkSize _ _)) fun m h => Family.slope.inj h ▸ kinkSize_isFinite hf.le_kMax hpwf hpw0 hpw1
  have hsquare := hthis .square fun m h => Family.noConfusion h
  rw [← centred_zero]
  rcases hshape with rfl | rfl | rfl
  · exact congrArg centred hslope
  · exact congrArg centred hslope
  · exact congrArg centred hsquare

end

/-! The first sample of a block -/

section
variable {fm : Bool} {size : Nat} {a : State} (hacc : renderAccepted fm size a) (hosc : a.osc = State.reset.osc)
include hosc

theorem startVoice_of_reset (tz : Bool) : startsFresh (startVoice (seededOsc tz fm a)) := by
  simp only [startsFresh, seededOsc, startVoice_phase, startVoice_edgeState, startVoice_nextAcc, seed_phase, seed_edgeState,
    seed_pending, hosc]
  exact ⟨rfl, rfl, rfl⟩

include hacc

/-- The first interpolator step after INIT or reset adds +0.0 to the targets (40_render.md R108, R110). -/
theorem first_ramp_isFinite (shape : Shape) (tz : Bool) :
    F32.isFinite (blockUpTo shape tz fm size a 1).ramp.fi = true ∧
      F32.isFinite (blockUpTo shape tz fm size a 1).ramp.pwi = true := by
  obtain ⟨hf, hp⟩ := targets_le_limit tz hacc
  replace hf := (le_fmTargetLimit_iff.1 hf).1
  replace hp := (le_fmTargetLimit_iff.1 hp).1
  have hseeded : a.osc.seeded = false := by rw [hosc]; rfl
  obtain ⟨hramp, -⟩ := blockUpTo_succ shape tz fm size a hacc.1
  rw [hramp, blockUpTo_zero_ramp]
  simp only [seededOsc, seed_smoothFreq, seed_smoothPw, hseeded, Bool.false_eq_true, if_false, increment_self hf hacc.1,
    increment_self hp hacc.1, rampStep]
  exact ⟨(F32.value_add_zero hf).1, (F32.value_add_zero hp).1⟩

/-- A block after INIT or reset stores -1.0 first, if the shape's first sample from a fresh voice is -1.0. -/
theorem first_sample_of_reset {shape : Shape} {tz : Bool}
    (h : ∀ (e : Option Word) (r : Ramp) (v : Voice), startsFresh v → F32.isFinite r.fi = true →
      F32.isFinite r.pwi = true → (∀ x ∈ e, F32.isFinite x = true) →
      (sample shape a.params.kernelId tz e r v).2 = 0xBF800000#32) :
    ∃ t, exec (renderOf shape tz fm size) a = .next t ∧ t.mem.readWord 0x2000 = some 0xBF800000#32 := by
  obtain ⟨hfi, hpwi⟩ := first_ramp_isFinite hacc hosc shape tz
  obtain ⟨-, y, hstep, hy⟩ := blockUpTo_succ shape tz fm size a hacc.1
  have hfirst := h _ _ (blockUpTo shape tz fm size a 0).voice (startVoice_of_reset hosc tz) hfi hpwi
    (fmValue_isFinite hacc hacc.1)
  rw [hstep] at hfirst
  exact ⟨_, exec_renderOf_blockState shape tz hacc, hy.trans (congrArg some hfirst)⟩

end

end Sys2Proof.Machine

namespace Sys2Proof.Proofs

open Sys2Proof Sys2Proof.Machine Sys2Proof.Safety

/-- Settles O29: from PHASE = 0.5 no first step wraps, and an edge of a first step forward lies at its start. -/
theorem firstSampleAfterInitIsMinusOne : Obligations.FirstSampleAfterInitIsMinusOne := by
  unfold Obligations.FirstSampleAfterInitIsMinusOne
  intro tz fm size s a hacc hfresh
  have hosc : a.osc = State.reset.osc :=
    hfresh.elim (fun h => by rw [← Host.Outcome.next.inj ((exec_init s).symm.trans h)]) id
  refine ⟨first_sample_of_reset hacc hosc (shape := .saw) fun e r v hv hfi _ he => sample_saw_of_fresh hv hfi he tz,
    fun hk => ?_⟩
  have hpulse : ∀ shape, isUnfilteredPulse shape →
      ∃ t, exec (renderOf shape false fm size) a = .next t ∧ t.mem.readWord 0x2000 = some 0xBF800000#32 :=
    fun shape hshape => first_sample_of_reset hacc hosc fun e r v hv hfi hpwi he =>
      sample_unfilteredPulse_of_fresh hv hfi he hk hshape hpwi
  exact ⟨hpulse .triangle (.inl rfl), hpulse .slope (.inr (.inl rfl)), hpulse .square (.inr (.inr rfl))⟩

end Sys2Proof.Proofs
end

section
/-! PROOF. Words written out in the spec: a command's word is the one it encodes to, any other word is no row's. -/

namespace Sys2Proof.Proofs

open Sys2Proof

/-- The word of a command is recognised by encoding the command (30_encoding.md R76, R79). -/
theorem decode_of_encode_eq {w : Word} {i : Instr} (hwf : i.wellFormed = true) (hw : encode i = w) : decode w = .ok i :=
  hw ▸ decodeOfEncodeIsTheCommand i hwf

/-- A word that no row of 30_encoding.md R71 matches gets the name of its bullet of R77. -/
theorem decode_of_noRow {w : Word}
    (h : ¬ (w = 0x00000000#32 ∨ w = 0x00000001#32 ∨ w = 0x00000003#32 ∨ (opField w = 0b0010#4 ∧ rsvField w = 0#7))) :
    decode w = .error (rejectReason w) := by
  rcases decode_cases w with ⟨h0, -⟩ | ⟨h1, -⟩ | ⟨h3, -⟩ | ⟨hop, hrsv, -⟩ | ⟨-, -, -, -, hillegal⟩
  · exact absurd (.inl h0) h
  · exact absurd (.inr (.inl h1)) h
  · exact absurd (.inr (.inr (.inl h3))) h
  · exact absurd (.inr (.inr (.inr ⟨hop, hrsv⟩))) h
  · exact hillegal

/-- Settles O5: each command encodes to its word (`decode_of_encode_eq`), and no row matches the three ILLEGAL words
(`decode_of_noRow`). -/
theorem specWordsDecodeToTheirCommands : Obligations.SpecWordsDecodeToTheirCommands := by
  unfold Obligations.SpecWordsDecodeToTheirCommands
  refine ⟨?nop, ?init, ?keval, ?impulse, ?saw, ?triangle, ?slope, ?square, ?bright, ?dark, ?squareTriangle, ?reserved,
    ?control, ?unassigned⟩
  case reserved => exact decode_of_noRow (by decide)
  case control => exact decode_of_noRow (by decide)
  case unassigned => exact decode_of_noRow (by decide)
  all_goals exact decode_of_encode_eq rfl rfl

end Sys2Proof.Proofs
end
